-- ==== Sys2Proof/Word.lean ====
section
/-! DEFINITION. The machine's words and bytes (spec/00_scope.md R5, R6).

A word is an unsigned 32-bit value; all arithmetic on words is modulo 2^32, which is `BitVec`'s own
`+` and `-`. The spec's `u(v)` is `v.toNat`, its `signed(v)` is `v.toInt`, its `w[hi:lo]` is
`w.extractLsb' lo (hi - lo + 1)`, its `a ++ b` is `++` (a in the high bits), its `sext_N` is
`BitVec.signExtend 32` and its `zext_N` is `BitVec.setWidth 32`. -/

namespace Sys2Proof

/-- Eight bits: one element of memory (R5, R30). -/
abbrev Byte := BitVec 8

/-- Thirty-two bits: a register, the pc, an address, an instruction word (R5). -/
abbrev Word := BitVec 32

end Sys2Proof
end

