-- ==== Sys2Proof/Config.lean ====
section
/-! DEFINITION. The parameters of the hardware (spec/00_scope.md R3, R4). XLEN, NREGS, ILEN and NHARTS are fixed
and stand in the types. MEM_SIZE and ASM_U_ACCEPT_UNSIGNED are chosen when an instance is constructed: they are
`Params`, which a state carries unchanged. RUN_BUDGET is the default of an argument of `run`. The source leaves no
value of the machine open (R27, R113), so the model has no free value. -/

namespace Sys2Proof

/-- What is fixed at construction of one machine instance (R3): MEM_SIZE, and whether the assembler accepts a
U-format operand in 2^19 .. 2^20 - 1 (OPEN in the spec, 92_eei_decisions.md D26). -/
structure Params where
  memSize            : Nat
  asmUAcceptUnsigned : Bool
  deriving DecidableEq, Repr

/-- The spec's defaults: MEM_SIZE = 2^20, ASM_U_ACCEPT_UNSIGNED = false (R3). -/
def Params.standard : Params := { memSize := 1048576, asmUAcceptUnsigned := false }

/-- The memory sizes the model takes: 4 <= MEM_SIZE <= 2^32 and MEM_SIZE mod 4 = 0 (R4). -/
abbrev Params.Legal (p : Params) : Prop :=
  4 ≤ p.memSize ∧ p.memSize ≤ 4294967296 ∧ p.memSize % 4 = 0

/-- The default instruction budget of `run` (R3, R110). -/
def Config.runBudget : Nat := 10000

end Sys2Proof
end

