-- ==== Sys2Proof/Syntax.lean ====
section
/-! DEFINITION. The instructions: one constructor per row of spec/opcode_table.json (39 rows). A constructor's
fields are the operands of the decoded record of R58: register indices 0 .. 31 and the 32-bit immediate of the
instruction's format, already reconstructed and sign-extended (R53 to R57). -/

namespace Sys2Proof

/-- A register index: a 5-bit field, so always 0 .. 31 (R13). -/
abbrev Reg := Fin 32

/-- The 39 operations of R58 and R59, without operands. -/
inductive Op where
  | add | sub | and | or | xor | sll | srl | sra | slt | sltu
  | addi | andi | ori | xori | slti | sltiu | slli | srli | srai
  | lb | lh | lw | lbu | lhu
  | sb | sh | sw
  | beq | bne | blt | bge | bltu | bgeu
  | jal | jalr
  | lui | auipc
  | ecall | ebreak
  deriving DecidableEq, Repr

/-- A decoded instruction: an operation with its operands (R58). -/
inductive Instr where
  -- Register-register (41_register_register.md): rd, rs1, rs2.
  | add (rd rs1 rs2 : Reg)
  | sub (rd rs1 rs2 : Reg)
  | and (rd rs1 rs2 : Reg)
  | or (rd rs1 rs2 : Reg)
  | xor (rd rs1 rs2 : Reg)
  | sll (rd rs1 rs2 : Reg)
  | srl (rd rs1 rs2 : Reg)
  | sra (rd rs1 rs2 : Reg)
  | slt (rd rs1 rs2 : Reg)
  | sltu (rd rs1 rs2 : Reg)
  -- Register-immediate (42_register_immediate.md): rd, rs1, and imm_I; a shift's imm is imm_I too (R61).
  | addi (rd rs1 : Reg) (imm : Word)
  | andi (rd rs1 : Reg) (imm : Word)
  | ori (rd rs1 : Reg) (imm : Word)
  | xori (rd rs1 : Reg) (imm : Word)
  | slti (rd rs1 : Reg) (imm : Word)
  | sltiu (rd rs1 : Reg) (imm : Word)
  | slli (rd rs1 : Reg) (imm : Word)
  | srli (rd rs1 : Reg) (imm : Word)
  | srai (rd rs1 : Reg) (imm : Word)
  -- Loads (43_loads.md): rd, base rs1, imm_I.
  | lb (rd rs1 : Reg) (imm : Word)
  | lh (rd rs1 : Reg) (imm : Word)
  | lw (rd rs1 : Reg) (imm : Word)
  | lbu (rd rs1 : Reg) (imm : Word)
  | lhu (rd rs1 : Reg) (imm : Word)
  -- Stores (44_stores.md): base rs1, data rs2, imm_S.
  | sb (rs1 rs2 : Reg) (imm : Word)
  | sh (rs1 rs2 : Reg) (imm : Word)
  | sw (rs1 rs2 : Reg) (imm : Word)
  -- Branches (45_branches.md): rs1, rs2, imm_B.
  | beq (rs1 rs2 : Reg) (imm : Word)
  | bne (rs1 rs2 : Reg) (imm : Word)
  | blt (rs1 rs2 : Reg) (imm : Word)
  | bge (rs1 rs2 : Reg) (imm : Word)
  | bltu (rs1 rs2 : Reg) (imm : Word)
  | bgeu (rs1 rs2 : Reg) (imm : Word)
  -- Jumps (46_jumps.md): imm_J; rs1 and imm_I.
  | jal (rd : Reg) (imm : Word)
  | jalr (rd rs1 : Reg) (imm : Word)
  -- Upper immediates (47_upper_immediate.md): rd, imm_U.
  | lui (rd : Reg) (imm : Word)
  | auipc (rd : Reg) (imm : Word)
  -- System (48_system.md): no operand.
  | ecall
  | ebreak
  deriving DecidableEq, Repr

end Sys2Proof
end

