-- ==== Sys2Proof/WellFormed.lean ====
section
/-! DEFINITION. Which instructions an encoding can express: the range of the immediate of each format
(spec/30_encoding.md R53 to R57, R61; the ranges of R86). Register indices need no check: `Reg` is `Fin 32`. -/

namespace Sys2Proof

/-- An I- or S-format immediate: a sign-extended 12-bit value, -2048 .. 2047 (R53, R54). -/
def immFits12 (imm : Word) : Bool := decide (-2048 ≤ imm.toInt ∧ imm.toInt ≤ 2047)

/-- A B-format immediate: even, -4096 .. 4094 (R55). -/
def immFitsB (imm : Word) : Bool :=
  decide (-4096 ≤ imm.toInt ∧ imm.toInt ≤ 4094 ∧ imm.toNat % 2 = 0)

/-- A U-format immediate: the low twelve bits are zero (R56). -/
def immFitsU (imm : Word) : Bool := decide (imm.toNat % 4096 = 0)

/-- A J-format immediate: even, -1 048 576 .. 1 048 574 (R57). -/
def immFitsJ (imm : Word) : Bool :=
  decide (-1048576 ≤ imm.toInt ∧ imm.toInt ≤ 1048574 ∧ imm.toNat % 2 = 0)

/-- The imm_I of a SLLI or SRLI word: funct7 = 0000000 above the shift amount (R61). -/
def immFitsShift (imm : Word) : Bool := decide (imm.toNat < 32)

/-- The imm_I of a SRAI word: funct7 = 0100000 above the shift amount, so 0x400 + shamt (R61, R149). -/
def immFitsShiftArith (imm : Word) : Bool := decide (1024 ≤ imm.toNat ∧ imm.toNat < 1056)

/-- The check: every operand is one the instruction's format can hold. -/
def Instr.wellFormed : Instr → Bool
  | .add _ _ _ | .sub _ _ _ | .and _ _ _ | .or _ _ _ | .xor _ _ _ => true
  | .sll _ _ _ | .srl _ _ _ | .sra _ _ _ | .slt _ _ _ | .sltu _ _ _ => true
  | .addi _ _ imm | .andi _ _ imm | .ori _ _ imm | .xori _ _ imm => immFits12 imm
  | .slti _ _ imm | .sltiu _ _ imm => immFits12 imm
  | .slli _ _ imm | .srli _ _ imm => immFitsShift imm
  | .srai _ _ imm => immFitsShiftArith imm
  | .lb _ _ imm | .lh _ _ imm | .lw _ _ imm | .lbu _ _ imm | .lhu _ _ imm => immFits12 imm
  | .sb _ _ imm | .sh _ _ imm | .sw _ _ imm => immFits12 imm
  | .beq _ _ imm | .bne _ _ imm | .blt _ _ imm | .bge _ _ imm => immFitsB imm
  | .bltu _ _ imm | .bgeu _ _ imm => immFitsB imm
  | .jal _ imm => immFitsJ imm
  | .jalr _ _ imm => immFits12 imm
  | .lui _ imm | .auipc _ imm => immFitsU imm
  | .ecall | .ebreak => true

/-- The instruction is one that some word encodes. -/
abbrev Instr.WellFormed (i : Instr) : Prop := i.wellFormed = true

end Sys2Proof
end

