-- ==== Sys2Proof/Decode.lean ====
section
/-! DEFINITION. The decoder, and after it the encoder, of spec/30_encoding.md sections 1 to 4, both written from
R51 to R72. The numeric opcode, funct3 and funct7 values, the positions of rd, rs1 and rs2 and the ECALL and EBREAK
words are the spec's, which marks them as RV32I general knowledge (92_eei_decisions.md D1; notes/assumptions/1.md). -/

namespace Sys2Proof

/-! ## Fields and immediates (R51 to R57) -/

def opcodeOf (w : Word) : BitVec 7 := w.extractLsb' 0 7
def rdOf (w : Word) : Reg := (w.extractLsb' 7 5).toFin
def funct3Of (w : Word) : BitVec 3 := w.extractLsb' 12 3
def rs1Of (w : Word) : Reg := (w.extractLsb' 15 5).toFin
def rs2Of (w : Word) : Reg := (w.extractLsb' 20 5).toFin
def funct7Of (w : Word) : BitVec 7 := w.extractLsb' 25 7

/-- R53: `sext_12(w[31:20])`. -/
def immI (w : Word) : Word := (w.extractLsb' 20 12).signExtend 32

/-- R54: `sext_12(w[31:25] ++ w[11:7])`. -/
def immS (w : Word) : Word := (w.extractLsb' 25 7 ++ w.extractLsb' 7 5).signExtend 32

/-- R55: `sext_13(w[31] ++ w[7] ++ w[30:25] ++ w[11:8] ++ 0)`. -/
def immB (w : Word) : Word :=
  (w.extractLsb' 31 1 ++ w.extractLsb' 7 1 ++ w.extractLsb' 25 6 ++ w.extractLsb' 8 4 ++ 0#1).signExtend 32

/-- R56: `w[31:12] ++ 0x000`. -/
def immU (w : Word) : Word := w.extractLsb' 12 20 ++ 0#12

/-- R57: `sext_21(w[31] ++ w[19:12] ++ w[20] ++ w[30:21] ++ 0)`. -/
def immJ (w : Word) : Word :=
  (w.extractLsb' 31 1 ++ w.extractLsb' 12 8 ++ w.extractLsb' 20 1 ++ w.extractLsb' 21 10 ++ 0#1).signExtend 32

/-! ## Opcodes and whole words (R59, R67) -/

def opLui    : BitVec 7 := 0b0110111#7
def opAuipc  : BitVec 7 := 0b0010111#7
def opJal    : BitVec 7 := 0b1101111#7
def opJalr   : BitVec 7 := 0b1100111#7
def opBranch : BitVec 7 := 0b1100011#7
def opLoad   : BitVec 7 := 0b0000011#7
def opStore  : BitVec 7 := 0b0100011#7
def opOpImm  : BitVec 7 := 0b0010011#7
def opOp     : BitVec 7 := 0b0110011#7
def opSystem : BitVec 7 := 0b1110011#7
def ecallWord  : Word := 0x00000073#32
def ebreakWord : Word := 0x00100073#32

/-! ## The decoder (R58 to R71) -/

/-- Why the decoder rejects. Every one but `truncated` is the spec's `IllegalInstruction`, by the selector that
failed first (R68); `truncated` says that fewer than four bytes were given, which a fetch never does. -/
inductive DecodeError where
  | illegalOpcode
  | illegalFunct3
  | illegalFunct7
  | illegalSystemWord
  | truncated
  deriving DecidableEq, Repr

/-- R60, opcode 0110011: (funct7, funct3) selects. -/
def decodeOp (w : Word) : Except DecodeError Instr :=
  let rd := rdOf w
  let rs1 := rs1Of w
  let rs2 := rs2Of w
  if funct7Of w = 0b0000000#7 then
    if funct3Of w = 0b000#3 then .ok (.add rd rs1 rs2)
    else if funct3Of w = 0b001#3 then .ok (.sll rd rs1 rs2)
    else if funct3Of w = 0b010#3 then .ok (.slt rd rs1 rs2)
    else if funct3Of w = 0b011#3 then .ok (.sltu rd rs1 rs2)
    else if funct3Of w = 0b100#3 then .ok (.xor rd rs1 rs2)
    else if funct3Of w = 0b101#3 then .ok (.srl rd rs1 rs2)
    else if funct3Of w = 0b110#3 then .ok (.or rd rs1 rs2)
    else .ok (.and rd rs1 rs2)
  else if funct7Of w = 0b0100000#7 then
    if funct3Of w = 0b000#3 then .ok (.sub rd rs1 rs2)
    else if funct3Of w = 0b101#3 then .ok (.sra rd rs1 rs2)
    else .error .illegalFunct7
  else .error .illegalFunct7

/-- R61, opcode 0010011: funct3 selects, and funct7 for the shifts. -/
def decodeOpImm (w : Word) : Except DecodeError Instr :=
  let rd := rdOf w
  let rs1 := rs1Of w
  let imm := immI w
  if funct3Of w = 0b000#3 then .ok (.addi rd rs1 imm)
  else if funct3Of w = 0b010#3 then .ok (.slti rd rs1 imm)
  else if funct3Of w = 0b011#3 then .ok (.sltiu rd rs1 imm)
  else if funct3Of w = 0b100#3 then .ok (.xori rd rs1 imm)
  else if funct3Of w = 0b110#3 then .ok (.ori rd rs1 imm)
  else if funct3Of w = 0b111#3 then .ok (.andi rd rs1 imm)
  else if funct3Of w = 0b001#3 then
    if funct7Of w = 0b0000000#7 then .ok (.slli rd rs1 imm) else .error .illegalFunct7
  else
    if funct7Of w = 0b0000000#7 then .ok (.srli rd rs1 imm)
    else if funct7Of w = 0b0100000#7 then .ok (.srai rd rs1 imm)
    else .error .illegalFunct7

/-- R62, opcode 0000011. -/
def decodeLoad (w : Word) : Except DecodeError Instr :=
  let rd := rdOf w
  let rs1 := rs1Of w
  let imm := immI w
  if funct3Of w = 0b000#3 then .ok (.lb rd rs1 imm)
  else if funct3Of w = 0b001#3 then .ok (.lh rd rs1 imm)
  else if funct3Of w = 0b010#3 then .ok (.lw rd rs1 imm)
  else if funct3Of w = 0b100#3 then .ok (.lbu rd rs1 imm)
  else if funct3Of w = 0b101#3 then .ok (.lhu rd rs1 imm)
  else .error .illegalFunct3

/-- R63, opcode 0100011. -/
def decodeStore (w : Word) : Except DecodeError Instr :=
  let rs1 := rs1Of w
  let rs2 := rs2Of w
  let imm := immS w
  if funct3Of w = 0b000#3 then .ok (.sb rs1 rs2 imm)
  else if funct3Of w = 0b001#3 then .ok (.sh rs1 rs2 imm)
  else if funct3Of w = 0b010#3 then .ok (.sw rs1 rs2 imm)
  else .error .illegalFunct3

/-- R64, opcode 1100011. -/
def decodeBranch (w : Word) : Except DecodeError Instr :=
  let rs1 := rs1Of w
  let rs2 := rs2Of w
  let imm := immB w
  if funct3Of w = 0b000#3 then .ok (.beq rs1 rs2 imm)
  else if funct3Of w = 0b001#3 then .ok (.bne rs1 rs2 imm)
  else if funct3Of w = 0b100#3 then .ok (.blt rs1 rs2 imm)
  else if funct3Of w = 0b101#3 then .ok (.bge rs1 rs2 imm)
  else if funct3Of w = 0b110#3 then .ok (.bltu rs1 rs2 imm)
  else if funct3Of w = 0b111#3 then .ok (.bgeu rs1 rs2 imm)
  else .error .illegalFunct3

/-- R67, opcode 1110011: two whole words are legal. -/
def decodeSystem (w : Word) : Except DecodeError Instr :=
  if w = ecallWord then .ok .ecall
  else if w = ebreakWord then .ok .ebreak
  else .error .illegalSystemWord

/-- R58, R59: the decoder, a pure total function of the word. Matching is strict (92_eei_decisions.md D2). -/
def decode (w : Word) : Except DecodeError Instr :=
  if opcodeOf w = opLui then .ok (.lui (rdOf w) (immU w))
  else if opcodeOf w = opAuipc then .ok (.auipc (rdOf w) (immU w))
  else if opcodeOf w = opJal then .ok (.jal (rdOf w) (immJ w))
  else if opcodeOf w = opJalr then
    if funct3Of w = 0b000#3 then .ok (.jalr (rdOf w) (rs1Of w) (immI w)) else .error .illegalFunct3
  else if opcodeOf w = opBranch then decodeBranch w
  else if opcodeOf w = opLoad then decodeLoad w
  else if opcodeOf w = opStore then decodeStore w
  else if opcodeOf w = opOpImm then decodeOpImm w
  else if opcodeOf w = opOp then decodeOp w
  else if opcodeOf w = opSystem then decodeSystem w
  else .error .illegalOpcode

/-- Four bytes, lowest address first, as a word: the lowest address holds the least significant byte (R33). -/
def wordOfBytes (b0 b1 b2 b3 : Byte) : Word := b3 ++ b2 ++ b1 ++ b0

/-- The decoder on bytes: the instruction that the first four bytes hold, and the bytes after them (R50, R33). -/
def decodeBytes : List Byte → Except DecodeError (Instr × List Byte)
  | b0 :: b1 :: b2 :: b3 :: rest =>
    match decode (wordOfBytes b0 b1 b2 b3) with
    | .ok i => .ok (i, rest)
    | .error e => .error e
  | _ => .error .truncated

/-! ## The encoder (R72) -/

/-- A register index as its 5-bit field (R51). -/
def regBits (r : Reg) : BitVec 5 := BitVec.ofFin r

/-- R72 `enc_R`. -/
def encR (f7 : BitVec 7) (f3 : BitVec 3) (rd rs1 rs2 : Reg) : Word :=
  f7 ++ regBits rs2 ++ regBits rs1 ++ f3 ++ regBits rd ++ opOp

/-- R72 `enc_I`, with m the low twelve bits of the immediate. -/
def encI (op : BitVec 7) (f3 : BitVec 3) (rd rs1 : Reg) (imm : Word) : Word :=
  imm.extractLsb' 0 12 ++ regBits rs1 ++ f3 ++ regBits rd ++ op

/-- R72 `enc_shift`, with sh the low five bits of the immediate. -/
def encShift (f7 : BitVec 7) (f3 : BitVec 3) (rd rs1 : Reg) (imm : Word) : Word :=
  f7 ++ imm.extractLsb' 0 5 ++ regBits rs1 ++ f3 ++ regBits rd ++ opOpImm

/-- R72 `enc_S`. -/
def encS (f3 : BitVec 3) (rs1 rs2 : Reg) (imm : Word) : Word :=
  imm.extractLsb' 5 7 ++ regBits rs2 ++ regBits rs1 ++ f3 ++ imm.extractLsb' 0 5
    ++ opStore

/-- R72 `enc_B`: imm[12], imm[10:5], rs2, rs1, funct3, imm[4:1], imm[11], opcode. -/
def encB (f3 : BitVec 3) (rs1 rs2 : Reg) (imm : Word) : Word :=
  imm.extractLsb' 12 1 ++ imm.extractLsb' 5 6 ++ regBits rs2 ++ regBits rs1 ++ f3
    ++ imm.extractLsb' 1 4 ++ imm.extractLsb' 11 1 ++ opBranch

/-- R72 `enc_U`: the 20-bit field is bits 31:12 of the immediate. -/
def encU (op : BitVec 7) (rd : Reg) (imm : Word) : Word :=
  imm.extractLsb' 12 20 ++ regBits rd ++ op

/-- R72 `enc_J`: imm[20], imm[10:1], imm[11], imm[19:12], rd, opcode. -/
def encJ (rd : Reg) (imm : Word) : Word :=
  imm.extractLsb' 20 1 ++ imm.extractLsb' 1 10 ++ imm.extractLsb' 11 1 ++ imm.extractLsb' 12 8
    ++ regBits rd ++ opJal

/-- R72: the word of an instruction. On an instruction that is not well-formed it keeps the bits that have a place. -/
def encode : Instr → Word
  | .add rd rs1 rs2 => encR 0b0000000#7 0b000#3 rd rs1 rs2
  | .sub rd rs1 rs2 => encR 0b0100000#7 0b000#3 rd rs1 rs2
  | .and rd rs1 rs2 => encR 0b0000000#7 0b111#3 rd rs1 rs2
  | .or rd rs1 rs2 => encR 0b0000000#7 0b110#3 rd rs1 rs2
  | .xor rd rs1 rs2 => encR 0b0000000#7 0b100#3 rd rs1 rs2
  | .sll rd rs1 rs2 => encR 0b0000000#7 0b001#3 rd rs1 rs2
  | .srl rd rs1 rs2 => encR 0b0000000#7 0b101#3 rd rs1 rs2
  | .sra rd rs1 rs2 => encR 0b0100000#7 0b101#3 rd rs1 rs2
  | .slt rd rs1 rs2 => encR 0b0000000#7 0b010#3 rd rs1 rs2
  | .sltu rd rs1 rs2 => encR 0b0000000#7 0b011#3 rd rs1 rs2
  | .addi rd rs1 imm => encI opOpImm 0b000#3 rd rs1 imm
  | .andi rd rs1 imm => encI opOpImm 0b111#3 rd rs1 imm
  | .ori rd rs1 imm => encI opOpImm 0b110#3 rd rs1 imm
  | .xori rd rs1 imm => encI opOpImm 0b100#3 rd rs1 imm
  | .slti rd rs1 imm => encI opOpImm 0b010#3 rd rs1 imm
  | .sltiu rd rs1 imm => encI opOpImm 0b011#3 rd rs1 imm
  | .slli rd rs1 imm => encShift 0b0000000#7 0b001#3 rd rs1 imm
  | .srli rd rs1 imm => encShift 0b0000000#7 0b101#3 rd rs1 imm
  | .srai rd rs1 imm => encShift 0b0100000#7 0b101#3 rd rs1 imm
  | .lb rd rs1 imm => encI opLoad 0b000#3 rd rs1 imm
  | .lh rd rs1 imm => encI opLoad 0b001#3 rd rs1 imm
  | .lw rd rs1 imm => encI opLoad 0b010#3 rd rs1 imm
  | .lbu rd rs1 imm => encI opLoad 0b100#3 rd rs1 imm
  | .lhu rd rs1 imm => encI opLoad 0b101#3 rd rs1 imm
  | .sb rs1 rs2 imm => encS 0b000#3 rs1 rs2 imm
  | .sh rs1 rs2 imm => encS 0b001#3 rs1 rs2 imm
  | .sw rs1 rs2 imm => encS 0b010#3 rs1 rs2 imm
  | .beq rs1 rs2 imm => encB 0b000#3 rs1 rs2 imm
  | .bne rs1 rs2 imm => encB 0b001#3 rs1 rs2 imm
  | .blt rs1 rs2 imm => encB 0b100#3 rs1 rs2 imm
  | .bge rs1 rs2 imm => encB 0b101#3 rs1 rs2 imm
  | .bltu rs1 rs2 imm => encB 0b110#3 rs1 rs2 imm
  | .bgeu rs1 rs2 imm => encB 0b111#3 rs1 rs2 imm
  | .jal rd imm => encJ rd imm
  | .jalr rd rs1 imm => encI opJalr 0b000#3 rd rs1 imm
  | .lui rd imm => encU opLui rd imm
  | .auipc rd imm => encU opAuipc rd imm
  | .ecall => ecallWord
  | .ebreak => ebreakWord

/-- A word's four bytes, lowest address first (R33). -/
def bytesOfWord (w : Word) : List Byte :=
  [w.extractLsb' 0 8, w.extractLsb' 8 8, w.extractLsb' 16 8, w.extractLsb' 24 8]

/-! ## Operations, their names and their rows of the opcode table -/

/-- The operation of an instruction (R58). -/
def Instr.op : Instr → Op
  | .add _ _ _ => .add
  | .sub _ _ _ => .sub
  | .and _ _ _ => .and
  | .or _ _ _ => .or
  | .xor _ _ _ => .xor
  | .sll _ _ _ => .sll
  | .srl _ _ _ => .srl
  | .sra _ _ _ => .sra
  | .slt _ _ _ => .slt
  | .sltu _ _ _ => .sltu
  | .addi _ _ _ => .addi
  | .andi _ _ _ => .andi
  | .ori _ _ _ => .ori
  | .xori _ _ _ => .xori
  | .slti _ _ _ => .slti
  | .sltiu _ _ _ => .sltiu
  | .slli _ _ _ => .slli
  | .srli _ _ _ => .srli
  | .srai _ _ _ => .srai
  | .lb _ _ _ => .lb
  | .lh _ _ _ => .lh
  | .lw _ _ _ => .lw
  | .lbu _ _ _ => .lbu
  | .lhu _ _ _ => .lhu
  | .sb _ _ _ => .sb
  | .sh _ _ _ => .sh
  | .sw _ _ _ => .sw
  | .beq _ _ _ => .beq
  | .bne _ _ _ => .bne
  | .blt _ _ _ => .blt
  | .bge _ _ _ => .bge
  | .bltu _ _ _ => .bltu
  | .bgeu _ _ _ => .bgeu
  | .jal _ _ => .jal
  | .jalr _ _ _ => .jalr
  | .lui _ _ => .lui
  | .auipc _ _ => .auipc
  | .ecall => .ecall
  | .ebreak => .ebreak

/-- The instruction of an operation and the operand fields of R58's record; a field the format lacks is ignored. -/
def Op.instr (op : Op) (rd rs1 rs2 : Reg) (imm : Word) : Instr :=
  match op with
  | .add => .add rd rs1 rs2
  | .sub => .sub rd rs1 rs2
  | .and => .and rd rs1 rs2
  | .or => .or rd rs1 rs2
  | .xor => .xor rd rs1 rs2
  | .sll => .sll rd rs1 rs2
  | .srl => .srl rd rs1 rs2
  | .sra => .sra rd rs1 rs2
  | .slt => .slt rd rs1 rs2
  | .sltu => .sltu rd rs1 rs2
  | .addi => .addi rd rs1 imm
  | .andi => .andi rd rs1 imm
  | .ori => .ori rd rs1 imm
  | .xori => .xori rd rs1 imm
  | .slti => .slti rd rs1 imm
  | .sltiu => .sltiu rd rs1 imm
  | .slli => .slli rd rs1 imm
  | .srli => .srli rd rs1 imm
  | .srai => .srai rd rs1 imm
  | .lb => .lb rd rs1 imm
  | .lh => .lh rd rs1 imm
  | .lw => .lw rd rs1 imm
  | .lbu => .lbu rd rs1 imm
  | .lhu => .lhu rd rs1 imm
  | .sb => .sb rs1 rs2 imm
  | .sh => .sh rs1 rs2 imm
  | .sw => .sw rs1 rs2 imm
  | .beq => .beq rs1 rs2 imm
  | .bne => .bne rs1 rs2 imm
  | .blt => .blt rs1 rs2 imm
  | .bge => .bge rs1 rs2 imm
  | .bltu => .bltu rs1 rs2 imm
  | .bgeu => .bgeu rs1 rs2 imm
  | .jal => .jal rd imm
  | .jalr => .jalr rd rs1 imm
  | .lui => .lui rd imm
  | .auipc => .auipc rd imm
  | .ecall => .ecall
  | .ebreak => .ebreak

/-- The 39 operations, family by family (R71). -/
def Op.all : List Op :=
  [.add, .sub, .and, .or, .xor, .sll, .srl, .sra, .slt, .sltu,
   .addi, .andi, .ori, .xori, .slti, .sltiu, .slli, .srli, .srai,
   .lb, .lh, .lw, .lbu, .lhu,
   .sb, .sh, .sw,
   .beq, .bne, .blt, .bge, .bltu, .bgeu,
   .jal, .jalr,
   .lui, .auipc,
   .ecall, .ebreak]

/-- The upper-case mnemonic of spec/opcode_table.json (R21). -/
def Op.mnemonic : Op → String
  | .add => "ADD" | .sub => "SUB" | .and => "AND" | .or => "OR" | .xor => "XOR" | .sll => "SLL" | .srl => "SRL" | .sra => "SRA" | .slt => "SLT" | .sltu => "SLTU"
  | .addi => "ADDI" | .andi => "ANDI" | .ori => "ORI" | .xori => "XORI" | .slti => "SLTI" | .sltiu => "SLTIU" | .slli => "SLLI" | .srli => "SRLI" | .srai => "SRAI"
  | .lb => "LB" | .lh => "LH" | .lw => "LW" | .lbu => "LBU" | .lhu => "LHU"
  | .sb => "SB" | .sh => "SH" | .sw => "SW"
  | .beq => "BEQ" | .bne => "BNE" | .blt => "BLT" | .bge => "BGE" | .bltu => "BLTU" | .bgeu => "BGEU"
  | .jal => "JAL" | .jalr => "JALR"
  | .lui => "LUI" | .auipc => "AUIPC"
  | .ecall => "ECALL" | .ebreak => "EBREAK"

/-- One row of spec/opcode_table.json: the words of `op` are those with `w &&& mask = pattern`. -/
structure OpcodeRow where
  op      : Op
  pattern : Word
  mask    : Word
  deriving DecidableEq, Repr

/-- The word is one of the row's words. -/
abbrev OpcodeRow.Matches (r : OpcodeRow) (w : Word) : Prop := w &&& r.mask = r.pattern

/-- spec/opcode_table.json, row by row. The decoder does not read it: that the two agree is a statement. -/
def opcodeTable : List OpcodeRow :=
  [⟨.add, 0x00000033#32, 0xFE00707F#32⟩,
   ⟨.sub, 0x40000033#32, 0xFE00707F#32⟩,
   ⟨.and, 0x00007033#32, 0xFE00707F#32⟩,
   ⟨.or, 0x00006033#32, 0xFE00707F#32⟩,
   ⟨.xor, 0x00004033#32, 0xFE00707F#32⟩,
   ⟨.sll, 0x00001033#32, 0xFE00707F#32⟩,
   ⟨.srl, 0x00005033#32, 0xFE00707F#32⟩,
   ⟨.sra, 0x40005033#32, 0xFE00707F#32⟩,
   ⟨.slt, 0x00002033#32, 0xFE00707F#32⟩,
   ⟨.sltu, 0x00003033#32, 0xFE00707F#32⟩,
   ⟨.addi, 0x00000013#32, 0x0000707F#32⟩,
   ⟨.andi, 0x00007013#32, 0x0000707F#32⟩,
   ⟨.ori, 0x00006013#32, 0x0000707F#32⟩,
   ⟨.xori, 0x00004013#32, 0x0000707F#32⟩,
   ⟨.slti, 0x00002013#32, 0x0000707F#32⟩,
   ⟨.sltiu, 0x00003013#32, 0x0000707F#32⟩,
   ⟨.slli, 0x00001013#32, 0xFE00707F#32⟩,
   ⟨.srli, 0x00005013#32, 0xFE00707F#32⟩,
   ⟨.srai, 0x40005013#32, 0xFE00707F#32⟩,
   ⟨.lb, 0x00000003#32, 0x0000707F#32⟩,
   ⟨.lh, 0x00001003#32, 0x0000707F#32⟩,
   ⟨.lw, 0x00002003#32, 0x0000707F#32⟩,
   ⟨.lbu, 0x00004003#32, 0x0000707F#32⟩,
   ⟨.lhu, 0x00005003#32, 0x0000707F#32⟩,
   ⟨.sb, 0x00000023#32, 0x0000707F#32⟩,
   ⟨.sh, 0x00001023#32, 0x0000707F#32⟩,
   ⟨.sw, 0x00002023#32, 0x0000707F#32⟩,
   ⟨.beq, 0x00000063#32, 0x0000707F#32⟩,
   ⟨.bne, 0x00001063#32, 0x0000707F#32⟩,
   ⟨.blt, 0x00004063#32, 0x0000707F#32⟩,
   ⟨.bge, 0x00005063#32, 0x0000707F#32⟩,
   ⟨.bltu, 0x00006063#32, 0x0000707F#32⟩,
   ⟨.bgeu, 0x00007063#32, 0x0000707F#32⟩,
   ⟨.jal, 0x0000006F#32, 0x0000007F#32⟩,
   ⟨.jalr, 0x00000067#32, 0x0000707F#32⟩,
   ⟨.lui, 0x00000037#32, 0x0000007F#32⟩,
   ⟨.auipc, 0x00000017#32, 0x0000007F#32⟩,
   ⟨.ecall, 0x00000073#32, 0xFFFFFFFF#32⟩,
   ⟨.ebreak, 0x00100073#32, 0xFFFFFFFF#32⟩]

/-- What the decoder reads from a word laid out as the hardware stores it, as the host's check asks: the bits above
`nbits` are zero. -/
def decodeTableWord (nbits w : Nat) : Option Instr :=
  match decodeBytes (bytesOfWord (BitVec.ofNat 32 (w % 2 ^ nbits))) with
  | .ok (i, _) => some i
  | .error _ => none

end Sys2Proof
end

