-- ==== Sys2Proof/Machine/State.lean ====
section
/-! DEFINITION. The state of one machine instance (spec/10_state.md R10 to R27), as plain data: every row of R10's
table is a field, and beside them the parameters of the instance. -/

namespace Sys2Proof.Machine

/-- The driver's state (R18). -/
inductive DState where
  | idle
  | loaded
  | running
  | halted
  | error
  deriving DecidableEq, Repr

/-- Why the machine is halted (R231). -/
inductive HaltReason where
  | environmentCall
  | breakpoint
  | pcPastProgram
  | budgetExhausted
  deriving DecidableEq, Repr

/-- The three execution errors (R220). They have names and no numeric codes. -/
inductive ErrorKind where
  | illegalInstruction
  | memoryBounds
  | memoryAlignment
  deriving DecidableEq, Repr

/-- What a fault records (R19, R227): the word is none when the fetch itself faulted. -/
structure ErrorRecord where
  kind : ErrorKind
  pc   : Word
  word : Option Word
  deriving DecidableEq, Repr

/-- One register write of a trace entry: (index, old, new) (R21). -/
structure RegWrite where
  index : Reg
  old   : Word
  new   : Word
  deriving DecidableEq, Repr

/-- One trace entry: pc before execute, encoded word, mnemonic, register writes (R21). -/
structure TraceEntry where
  pc       : Word
  word     : Word
  mnemonic : String
  writes   : List RegWrite
  deriving DecidableEq, Repr

/-- The bytes of memory as (address, byte) pairs in canonical form: addresses strictly rising, no pair holding what
an unlisted address reads as. `Memory.wf` in Ops.lean says so. -/
abbrev Memory := List Host.Cell

/-- The complete state of one machine instance (R10). `x[0]` is hardwired (R11, R12) and has no storage: `regs` holds
`x[1]` .. `x[31]`, and `State.reg` and `State.setReg` are the register file. `params` are the instance's parameters
(R3), which the spec does not count as state: nothing changes them. -/
structure State where
  params               : Params
  regs                 : Vector Word 31
  pc                   : Word
  mem                  : Memory
  halted               : Bool
  haltReason           : Option HaltReason
  dstate               : DState
  error                : Option ErrorRecord
  progEnd              : Nat
  instructionsExecuted : Nat
  trace                : List TraceEntry
  deriving DecidableEq, Repr

/-- The reasons a step stops without a next state, other than a refused command: NONE. The spec describes what each
of its three execution errors does to the state (R226), so a faulting step takes that entry and answers a next state
in driver state Error (safe: nothing is cut short). -/
inductive Fault where
  deriving DecidableEq, Repr

/-- Why a step is refused. -/
inductive Refusal where
  /-- Raised by an arm of `exec` whose instruction has no meaning yet; no arm does. Safe. -/
  | notModelled (mnemonic : String)
  /-- Raised by the `step` and `run` commands in driver state Idle: the command is refused and nothing changes
  (R101). Safe: it is the spec's own refusal. -/
  | noProgramLoaded
  /-- Raised by the `step` and `run` commands in driver state Error: the command is refused and nothing changes
  (R101, R229). Safe: it is the spec's own refusal. -/
  | machineInError
  deriving DecidableEq, Repr

/-- Construction of an instance with its parameters (R250); also what `reset` leaves (R251). Every value is R27's. -/
def State.construct (p : Params) : State where
  params               := p
  regs                 := Vector.replicate 31 0
  pc                   := 0
  mem                  := []
  halted               := false
  haltReason           := none
  dstate               := .idle
  error                := none
  progEnd              := 0
  instructionsExecuted := 0
  trace                := []

/-- The machine right after construction or reset, with the default parameters (R3, R27). -/
def State.reset : State := State.construct Params.standard

end Sys2Proof.Machine
end

