-- ==== Sys2Proof/Machine/Ops.lean ====
section
/-! DEFINITION. The named operations every meaning is written over: the register file, memory and its access
primitives, raising an execution error, halting, and completing an instruction. -/

namespace Sys2Proof.Machine

/-! ## Register file (R11, R12) -/

/-- `x[r]`: 0 for r = 0, at every moment. -/
def State.reg (s : State) (r : Reg) : Word :=
  if h : r = 0 then 0 else s.regs[r.val - 1]'(by omega)

/-- `x[r] <- v`: discarded for r = 0. -/
def State.setReg (s : State) (r : Reg) (v : Word) : State :=
  if h : r = 0 then s else { s with regs := s.regs.set (r.val - 1) v (by omega) }

/-! ## Memory as bytes (R30, R32) -/

/-- What an address that is not listed reads as: the byte of reset (R27). -/
def Memory.unlisted : Byte := 0

/-- The canonical form: addresses strictly rising, no entry equal to what an unlisted address reads as. -/
abbrev Memory.wf (m : Memory) : Prop :=
  m.Pairwise (fun c d => c.1 < d.1) ∧ ∀ c ∈ m, c.2 ≠ Memory.unlisted

/-- The byte at an address. -/
def Memory.read : Memory → Nat → Byte
  | [], _ => Memory.unlisted
  | c :: m, a => if c.1 = a then c.2 else Memory.read m a

/-- The entry of address `a` in front of `m`, left out where it would say what an unlisted address says. -/
def Memory.put (a : Nat) (b : Byte) (m : Memory) : Memory :=
  if b = Memory.unlisted then m else (a, b) :: m

/-- Writing one byte, keeping the canonical form. -/
def Memory.write : Memory → Nat → Byte → Memory
  | [], a, b => Memory.put a b []
  | c :: m, a, b =>
    if a < c.1 then Memory.put a b (c :: m)
    else if a = c.1 then Memory.put a b m
    else c :: Memory.write m a b

/-- Writing bytes at `a`, `a + 1`, … in order. -/
def Memory.writeBytes : Memory → Nat → List Byte → Memory
  | m, _, [] => m
  | m, a, b :: bs => Memory.writeBytes (Memory.write m a b) (a + 1) bs

/-- Reading `n` bytes from `a` up. -/
def Memory.readBytes (m : Memory) (a : Nat) : Nat → List Byte
  | 0 => []
  | n + 1 => Memory.read m a :: Memory.readBytes m (a + 1) n

/-! ## Access primitives (R34 to R39) -/

/-- The access widths (R40). -/
inductive Width where
  | byte
  | half
  | word
  deriving DecidableEq, Repr

/-- The width in bytes. -/
def Width.bytes : Width → Nat
  | .byte => 1
  | .half => 2
  | .word => 4

/-- The little-endian value of the bytes at `a`, zero-extended to a word (R32, R38). -/
def Memory.readLE (m : Memory) (a : Nat) : Width → Word
  | .byte => (Memory.read m a).setWidth 32
  | .half => (Memory.read m (a + 1) ++ Memory.read m a).setWidth 32
  | .word => wordOfBytes (Memory.read m a) (Memory.read m (a + 1)) (Memory.read m (a + 2)) (Memory.read m (a + 3))

/-- The bytes an access of this width stores of a word, lowest address first (R32, R39). -/
def bytesLE (n : Width) (v : Word) : List Byte := (bytesOfWord v).take n.bytes

/-- The tests of an access, alignment first, then bounds, in integers without wrap (R34, R36, R37). -/
def checkAccess (memSize : Nat) (addr : Word) (n : Width) : Option ErrorKind :=
  if addr.toNat % n.bytes ≠ 0 then some .memoryAlignment
  else if memSize < addr.toNat + n.bytes then some .memoryBounds
  else none

/-- `MemRead(addr, n)` (R38): the unsigned value, or the error raised. It changes no state (R41). -/
def State.memRead (s : State) (addr : Word) (n : Width) : Except ErrorKind Word :=
  match checkAccess s.params.memSize addr n with
  | some k => .error k
  | none => .ok (s.mem.readLE addr.toNat n)

/-- `MemWrite(addr, n, v)` (R39): memory afterwards, or the error raised. -/
def State.memWrite (s : State) (addr : Word) (n : Width) (v : Word) : Except ErrorKind Memory :=
  match checkAccess s.params.memSize addr n with
  | some k => .error k
  | none => .ok (s.mem.writeBytes addr.toNat (bytesLE n v))

/-! ## Errors and halts (R226, R230) -/

/-- Taking an execution error (R226): `error <- (K, pc, w)`, `dstate <- Error`, and nothing else. There is no handler
and no return (R229). -/
def State.raise (s : State) (k : ErrorKind) (w : Option Word) : State :=
  { s with error := some { kind := k, pc := s.pc, word := w }, dstate := .error }

/-- `halt(reason)` (R230): `halted <- 1`, `halt_reason <- reason`, `dstate <- Halted`. -/
def State.halt (s : State) (r : HaltReason) : State :=
  { s with halted := true, haltReason := some r, dstate := .halted }

/-! ## Completing an instruction (R105 to R107) -/

/-- What executing an instruction yields (R105): an optional register write, memory where it stores, the next pc, an
optional halt reason. -/
structure Effect where
  regWrite : Option (Reg × Word)
  store    : Option Memory
  next     : Word
  halt     : Option HaltReason
  deriving DecidableEq, Repr

/-- The register writes a trace entry lists: none where there is no rd or rd = 0 (R21). -/
def State.traceWrites (s : State) : Option (Reg × Word) → List RegWrite
  | none => []
  | some (r, v) => if r = 0 then [] else [{ index := r, old := s.reg r, new := v }]

/-- The register write of an effect (R106 step 4). -/
def State.writeBack (s : State) : Option (Reg × Word) → State
  | none => s
  | some (r, v) => s.setReg r v

/-- The halt of an effect, its last action (R106 step 6). -/
def State.haltWith (s : State) : Option HaltReason → State
  | none => s
  | some r => s.halt r

/-- R106 and R107: memory, then the register write, then the pc, then the counter and the trace, then the halt. The
word traced is the instruction's encoding, which is the word fetched, since decoding is strict (R73). -/
def State.commit (s : State) (i : Instr) (e : Effect) : State :=
  let entry : TraceEntry :=
    { pc := s.pc, word := encode i, mnemonic := i.op.mnemonic, writes := s.traceWrites e.regWrite }
  let t := ({ s with mem := e.store.getD s.mem } : State).writeBack e.regWrite
  State.haltWith
    { t with pc := e.next
             instructionsExecuted := s.instructionsExecuted + 1
             trace := s.trace ++ [entry] }
    e.halt

/-- The end of executing `i`: its effect committed, or the error it raised taken with its word (R106, R226). -/
def finish (i : Instr) (r : Except ErrorKind Effect) (s : State) : Host.Outcome State Fault Refusal :=
  match r with
  | .ok e => .next (s.commit i e)
  | .error k => .next (s.raise k (some (encode i)))

end Sys2Proof.Machine
end

