-- ==== Sys2Proof/Machine/Operands.lean ====
section
/-! DEFINITION. Every operand form of the instruction set: registers are read by `State.reg`, immediates stand in the
instruction already reconstructed (R53 to R57); here are the values computed from them. -/

namespace Sys2Proof.Machine

/-- The effective address of a load or store: `x[rs1] + imm`, modulo 2^32 (R31, R160, R170). -/
def State.effAddr (s : State) (rs1 : Reg) (imm : Word) : Word := s.reg rs1 + imm

/-- The shift amount of a word, a register's or an immediate's: its low five bits (R126, R140). -/
def shiftAmount (v : Word) : Nat := (v.extractLsb' 0 5).toNat

/-- The address of the next instruction in memory, the link value too: `pc + 4`, modulo 2^32 (R15, R190). -/
def State.pcNext (s : State) : Word := s.pc + 4

/-- The target of a taken branch or a JAL, and AUIPC's sum: `pc + imm`, modulo 2^32 (R180, R191, R201). -/
def State.pcRel (s : State) (imm : Word) : Word := s.pc + imm

/-- The target of JALR: `(x[rs1] + imm) & 0xFFFFFFFE` (R192). -/
def State.jalrTarget (s : State) (rs1 : Reg) (imm : Word) : Word := (s.reg rs1 + imm) &&& 0xFFFFFFFE#32

/-- The effect of writing `v` to rd and going on at `pc + 4`. -/
def State.toReg (s : State) (rd : Reg) (v : Word) : Effect :=
  { regWrite := some (rd, v), store := none, next := s.pcNext, halt := none }

/-- The effect of only going on at `t`. -/
def goTo (t : Word) : Effect := { regWrite := none, store := none, next := t, halt := none }

end Sys2Proof.Machine
end

