-- ==== Sys2Proof/Machine/Flags.lean ====
section
/-! DEFINITION. Conditions. The hardware has no condition codes (R23): a comparison writes 0 or 1 to a register or
decides a branch and is gone. The one flag is `halted`, which `State.halt` sets (R17, R230). -/

namespace Sys2Proof.Machine

/-- `a <s b`: signed less than (R6). -/
def ltSigned (a b : Word) : Bool := decide (a.toInt < b.toInt)

/-- `a <u b`: unsigned less than (R6). -/
def ltUnsigned (a b : Word) : Bool := decide (a.toNat < b.toNat)

/-- The result of a comparison that writes a register: the word 1 or 0 (R129, R130). -/
def truthWord (c : Bool) : Word := if c then 1 else 0

/-- Where a branch goes on: `pc + imm` if its condition holds, else `pc + 4` (R180). -/
def State.branchTo (s : State) (c : Bool) (imm : Word) : Word := if c then s.pcRel imm else s.pcNext

end Sys2Proof.Machine
end

