-- ==== Sys2Proof/Machine/Branches.lean ====
section
/-! DEFINITION. Conditional branches (spec/45_branches.md R180 to R187). The target is not checked (R187). -/

namespace Sys2Proof.Machine

/-- R180: compare `x[rs1]` and `x[rs2]`; go on at `pc + imm` or at `pc + 4`. No register is written. -/
def branchInstr (i : Instr) (cond : Word → Word → Bool) (rs1 rs2 : Reg) (imm : Word) (s : State) :
    Host.Outcome State Fault Refusal :=
  finish i (.ok (goTo (s.branchTo (cond (s.reg rs1) (s.reg rs2)) imm))) s

/-- R181: all 32 bits equal. -/
def execBeq (rs1 rs2 : Reg) (imm : Word) (s : State) : Host.Outcome State Fault Refusal :=
  branchInstr (.beq rs1 rs2 imm) (fun a b => decide (a = b)) rs1 rs2 imm s

/-- R182. -/
def execBne (rs1 rs2 : Reg) (imm : Word) (s : State) : Host.Outcome State Fault Refusal :=
  branchInstr (.bne rs1 rs2 imm) (fun a b => decide (a ≠ b)) rs1 rs2 imm s

/-- R183. -/
def execBlt (rs1 rs2 : Reg) (imm : Word) (s : State) : Host.Outcome State Fault Refusal :=
  branchInstr (.blt rs1 rs2 imm) (fun a b => ltSigned a b) rs1 rs2 imm s

/-- R184: not (a <s b). -/
def execBge (rs1 rs2 : Reg) (imm : Word) (s : State) : Host.Outcome State Fault Refusal :=
  branchInstr (.bge rs1 rs2 imm) (fun a b => !ltSigned a b) rs1 rs2 imm s

/-- R185. -/
def execBltu (rs1 rs2 : Reg) (imm : Word) (s : State) : Host.Outcome State Fault Refusal :=
  branchInstr (.bltu rs1 rs2 imm) (fun a b => ltUnsigned a b) rs1 rs2 imm s

/-- R186: not (a <u b). -/
def execBgeu (rs1 rs2 : Reg) (imm : Word) (s : State) : Host.Outcome State Fault Refusal :=
  branchInstr (.bgeu rs1 rs2 imm) (fun a b => !ltUnsigned a b) rs1 rs2 imm s

end Sys2Proof.Machine
end

