-- ==== Sys2Proof/Machine/Jumps.lean ====
section
/-! DEFINITION. Jumps (spec/46_jumps.md R190 to R193). The target is computed from the values before the instruction,
then rd takes the link, then the pc takes the target, which is not checked. -/

namespace Sys2Proof.Machine

/-- The effect both jumps share: the link `pc + 4` to rd, and on at `t` (R190). -/
def State.linkAndGo (s : State) (rd : Reg) (t : Word) : Effect :=
  { regWrite := some (rd, s.pcNext), store := none, next := t, halt := none }

/-- R191. -/
def execJal (rd : Reg) (imm : Word) (s : State) : Host.Outcome State Fault Refusal :=
  finish (.jal rd imm) (.ok (s.linkAndGo rd (s.pcRel imm))) s

/-- R192. -/
def execJalr (rd rs1 : Reg) (imm : Word) (s : State) : Host.Outcome State Fault Refusal :=
  finish (.jalr rd rs1 imm) (.ok (s.linkAndGo rd (s.jalrTarget rs1 imm))) s

end Sys2Proof.Machine
end

