-- ==== Sys2Proof/Machine/Loads.lean ====
section
/-! DEFINITION. Loads (spec/43_loads.md R160 to R165). -/

namespace Sys2Proof.Machine

/-- Sign extension of the low byte of a word (R161). -/
def sextByte (v : Word) : Word := (v.extractLsb' 0 8).signExtend 32

/-- Sign extension of the low halfword of a word (R162). -/
def sextHalf (v : Word) : Word := (v.extractLsb' 0 16).signExtend 32

/-- What a load writes: the extension of the value `MemRead` gives, or the error it raises (R160). -/
def State.loadValue (s : State) (n : Width) (ext : Word → Word) (rs1 : Reg) (imm : Word) : Except ErrorKind Word :=
  match s.memRead (s.effAddr rs1 imm) n with
  | .ok v => .ok (ext v)
  | .error k => .error k

/-- R160: read memory at `x[rs1] + imm`, extend, write rd, go on at `pc + 4`. With rd = 0 the access is still made. -/
def loadInstr (i : Instr) (n : Width) (ext : Word → Word) (rd rs1 : Reg) (imm : Word) (s : State) :
    Host.Outcome State Fault Refusal :=
  match s.loadValue n ext rs1 imm with
  | .ok v => finish i (.ok (s.toReg rd v)) s
  | .error k => finish i (.error k) s

/-- R161. -/
def execLb (rd rs1 : Reg) (imm : Word) (s : State) : Host.Outcome State Fault Refusal :=
  loadInstr (.lb rd rs1 imm) .byte sextByte rd rs1 imm s

/-- R162. -/
def execLh (rd rs1 : Reg) (imm : Word) (s : State) : Host.Outcome State Fault Refusal :=
  loadInstr (.lh rd rs1 imm) .half sextHalf rd rs1 imm s

/-- R163. -/
def execLw (rd rs1 : Reg) (imm : Word) (s : State) : Host.Outcome State Fault Refusal :=
  loadInstr (.lw rd rs1 imm) .word (fun v => v) rd rs1 imm s

/-- R164: `MemRead` is unsigned, so the value is already zero-extended. -/
def execLbu (rd rs1 : Reg) (imm : Word) (s : State) : Host.Outcome State Fault Refusal :=
  loadInstr (.lbu rd rs1 imm) .byte (fun v => v) rd rs1 imm s

/-- R165. -/
def execLhu (rd rs1 : Reg) (imm : Word) (s : State) : Host.Outcome State Fault Refusal :=
  loadInstr (.lhu rd rs1 imm) .half (fun v => v) rd rs1 imm s

end Sys2Proof.Machine
end

