-- ==== Sys2Proof/Machine/RegImm.lean ====
section
/-! DEFINITION. Register-immediate arithmetic and logic (spec/42_register_immediate.md R140 to R149). -/

namespace Sys2Proof.Machine

/-- R140: read rs1, compute with the immediate, write rd, go on at `pc + 4`. Nothing of this family faults. -/
def regImm (i : Instr) (f : Word → Word → Word) (rd rs1 : Reg) (imm : Word) (s : State) :
    Host.Outcome State Fault Refusal :=
  finish i (.ok (s.toReg rd (f (s.reg rs1) imm))) s

/-- R141. -/
def execAddi (rd rs1 : Reg) (imm : Word) (s : State) : Host.Outcome State Fault Refusal :=
  regImm (.addi rd rs1 imm) (fun a b => a + b) rd rs1 imm s

/-- R142. -/
def execAndi (rd rs1 : Reg) (imm : Word) (s : State) : Host.Outcome State Fault Refusal :=
  regImm (.andi rd rs1 imm) (fun a b => a &&& b) rd rs1 imm s

/-- R143. -/
def execOri (rd rs1 : Reg) (imm : Word) (s : State) : Host.Outcome State Fault Refusal :=
  regImm (.ori rd rs1 imm) (fun a b => a ||| b) rd rs1 imm s

/-- R144. -/
def execXori (rd rs1 : Reg) (imm : Word) (s : State) : Host.Outcome State Fault Refusal :=
  regImm (.xori rd rs1 imm) (fun a b => a ^^^ b) rd rs1 imm s

/-- R145. -/
def execSlti (rd rs1 : Reg) (imm : Word) (s : State) : Host.Outcome State Fault Refusal :=
  regImm (.slti rd rs1 imm) (fun a b => truthWord (ltSigned a b)) rd rs1 imm s

/-- R146: the sign-extended immediate, compared unsigned. -/
def execSltiu (rd rs1 : Reg) (imm : Word) (s : State) : Host.Outcome State Fault Refusal :=
  regImm (.sltiu rd rs1 imm) (fun a b => truthWord (ltUnsigned a b)) rd rs1 imm s

/-- R147: the amount is `imm[4:0]`. -/
def execSlli (rd rs1 : Reg) (imm : Word) (s : State) : Host.Outcome State Fault Refusal :=
  regImm (.slli rd rs1 imm) (fun a b => a <<< shiftAmount b) rd rs1 imm s

/-- R148. -/
def execSrli (rd rs1 : Reg) (imm : Word) (s : State) : Host.Outcome State Fault Refusal :=
  regImm (.srli rd rs1 imm) (fun a b => a >>> shiftAmount b) rd rs1 imm s

/-- R149. -/
def execSrai (rd rs1 : Reg) (imm : Word) (s : State) : Host.Outcome State Fault Refusal :=
  regImm (.srai rd rs1 imm) (fun a b => a.sshiftRight (shiftAmount b)) rd rs1 imm s

end Sys2Proof.Machine
end

