-- ==== Sys2Proof/Machine/RegReg.lean ====
section
/-! DEFINITION. Register-register arithmetic and logic (spec/41_register_register.md R120 to R131). -/

namespace Sys2Proof.Machine

/-- R120: read both sources, compute, write rd, go on at `pc + 4`. Nothing of this family faults. -/
def regReg (i : Instr) (f : Word → Word → Word) (rd rs1 rs2 : Reg) (s : State) : Host.Outcome State Fault Refusal :=
  finish i (.ok (s.toReg rd (f (s.reg rs1) (s.reg rs2)))) s

/-- R121. -/
def execAdd (rd rs1 rs2 : Reg) (s : State) : Host.Outcome State Fault Refusal :=
  regReg (.add rd rs1 rs2) (fun a b => a + b) rd rs1 rs2 s

/-- R122. -/
def execSub (rd rs1 rs2 : Reg) (s : State) : Host.Outcome State Fault Refusal :=
  regReg (.sub rd rs1 rs2) (fun a b => a - b) rd rs1 rs2 s

/-- R123. -/
def execAnd (rd rs1 rs2 : Reg) (s : State) : Host.Outcome State Fault Refusal :=
  regReg (.and rd rs1 rs2) (fun a b => a &&& b) rd rs1 rs2 s

/-- R124. -/
def execOr (rd rs1 rs2 : Reg) (s : State) : Host.Outcome State Fault Refusal :=
  regReg (.or rd rs1 rs2) (fun a b => a ||| b) rd rs1 rs2 s

/-- R125. -/
def execXor (rd rs1 rs2 : Reg) (s : State) : Host.Outcome State Fault Refusal :=
  regReg (.xor rd rs1 rs2) (fun a b => a ^^^ b) rd rs1 rs2 s

/-- R126: the amount is the low five bits of `x[rs2]`. -/
def execSll (rd rs1 rs2 : Reg) (s : State) : Host.Outcome State Fault Refusal :=
  regReg (.sll rd rs1 rs2) (fun a b => a <<< shiftAmount b) rd rs1 rs2 s

/-- R127. -/
def execSrl (rd rs1 rs2 : Reg) (s : State) : Host.Outcome State Fault Refusal :=
  regReg (.srl rd rs1 rs2) (fun a b => a >>> shiftAmount b) rd rs1 rs2 s

/-- R128. -/
def execSra (rd rs1 rs2 : Reg) (s : State) : Host.Outcome State Fault Refusal :=
  regReg (.sra rd rs1 rs2) (fun a b => a.sshiftRight (shiftAmount b)) rd rs1 rs2 s

/-- R129. -/
def execSlt (rd rs1 rs2 : Reg) (s : State) : Host.Outcome State Fault Refusal :=
  regReg (.slt rd rs1 rs2) (fun a b => truthWord (ltSigned a b)) rd rs1 rs2 s

/-- R130. -/
def execSltu (rd rs1 rs2 : Reg) (s : State) : Host.Outcome State Fault Refusal :=
  regReg (.sltu rd rs1 rs2) (fun a b => truthWord (ltUnsigned a b)) rd rs1 rs2 s

end Sys2Proof.Machine
end

