-- ==== Sys2Proof/Machine/Stores.lean ====
section
/-! DEFINITION. Stores (spec/44_stores.md R170 to R173). -/

namespace Sys2Proof.Machine

/-- R170: write the low bytes of `x[rs2]` at `x[rs1] + imm`, go on at `pc + 4`. No register is written. -/
def storeInstr (i : Instr) (n : Width) (rs1 rs2 : Reg) (imm : Word) (s : State) : Host.Outcome State Fault Refusal :=
  match s.memWrite (s.effAddr rs1 imm) n (s.reg rs2) with
  | .ok m => finish i (.ok { regWrite := none, store := some m, next := s.pcNext, halt := none }) s
  | .error k => finish i (.error k) s

/-- R171. -/
def execSb (rs1 rs2 : Reg) (imm : Word) (s : State) : Host.Outcome State Fault Refusal :=
  storeInstr (.sb rs1 rs2 imm) .byte rs1 rs2 imm s

/-- R172. -/
def execSh (rs1 rs2 : Reg) (imm : Word) (s : State) : Host.Outcome State Fault Refusal :=
  storeInstr (.sh rs1 rs2 imm) .half rs1 rs2 imm s

/-- R173. -/
def execSw (rs1 rs2 : Reg) (imm : Word) (s : State) : Host.Outcome State Fault Refusal :=
  storeInstr (.sw rs1 rs2 imm) .word rs1 rs2 imm s

end Sys2Proof.Machine
end

