-- ==== Sys2Proof/Machine/System.lean ====
section
/-! DEFINITION. System instructions (spec/48_system.md R205 to R207): each completes as an ordinary instruction, the
pc advanced by 4, and then halts the machine. There is no trap. -/

namespace Sys2Proof.Machine

/-- The effect both share: on at `pc + 4`, halted with a reason (R205). -/
def State.haltEffect (s : State) (r : HaltReason) : Effect :=
  { regWrite := none, store := none, next := s.pcNext, halt := some r }

/-- R206. -/
def execEcall (s : State) : Host.Outcome State Fault Refusal :=
  finish .ecall (.ok (s.haltEffect .environmentCall)) s

/-- R207. -/
def execEbreak (s : State) : Host.Outcome State Fault Refusal :=
  finish .ebreak (.ok (s.haltEffect .breakpoint)) s

end Sys2Proof.Machine
end

