-- ==== Sys2Proof/Machine/UpperImm.lean ====
section
/-! DEFINITION. Upper-immediate instructions (spec/47_upper_immediate.md R200, R201). -/

namespace Sys2Proof.Machine

/-- R200. -/
def execLui (rd : Reg) (imm : Word) (s : State) : Host.Outcome State Fault Refusal :=
  finish (.lui rd imm) (.ok (s.toReg rd imm)) s

/-- R201: `pc` is the address of the AUIPC itself. -/
def execAuipc (rd : Reg) (imm : Word) (s : State) : Host.Outcome State Fault Refusal :=
  finish (.auipc rd imm) (.ok (s.toReg rd (s.pcRel imm))) s

end Sys2Proof.Machine
end

