-- ==== Sys2Proof/Machine/Cycle.lean ====
section
/-! DEFINITION. The instruction cycle (spec/40_instruction_cycle.md R101 to R111): admission, the past-program test,
fetch, decode, execute, and the `run` loop. -/

namespace Sys2Proof.Machine

/-- R101: `step` and `run` are accepted in Loaded, Halted and Running, which makes the machine Running and clears the
halted flag and its reason; in Idle and Error they are refused and nothing changes. -/
def State.accept (s : State) : Except Refusal State :=
  match s.dstate with
  | .idle => .error .noProgramLoaded
  | .error => .error .machineInError
  | .loaded | .running | .halted => .ok { s with dstate := .running, halted := false, haltReason := none }

/-- R102: the pc points past the loaded program. -/
def State.pastProgram (s : State) : Bool := decide (s.progEnd ≤ s.pc.toNat)

/-- R103: fetch is a word load at the pc. -/
def State.fetch (s : State) : Except ErrorKind Word := s.memRead s.pc .word

/-- R104, R105: decode the fetched word and execute it, or take IllegalInstruction. -/
def runWord (w : Word) (s : State) : Host.Outcome State Fault Refusal :=
  match decode w with
  | .ok i => Sys2Proof.Machine.exec i s
  | .error _ => .next (s.raise .illegalInstruction (some w))

/-- R108 `step_once`: one step of a Running machine. -/
def stepOnce (s : State) : Host.Outcome State Fault Refusal :=
  if s.pastProgram then .next (s.halt .pcPastProgram)
  else
    match s.fetch with
    | .error k => .next (s.raise k none)
    | .ok w => runWord w s

/-- R108 `step`: the host command. -/
def stepCommand (s : State) : Host.Outcome State Fault Refusal :=
  match s.accept with
  | .error r => .refused r
  | .ok t => stepOnce t

/-- R110: the loop of `run`, with the instructions still allowed: the past-program test, then the budget test, then one
step, while the machine is Running. -/
def runLoop : Nat → State → Host.Outcome State Fault Refusal
  | 0, s =>
    if s.dstate ≠ .running then .next s
    else if s.pastProgram then .next (s.halt .pcPastProgram)
    else .next (s.halt .budgetExhausted)
  | k + 1, s =>
    if s.dstate ≠ .running then .next s
    else if s.pastProgram then .next (s.halt .pcPastProgram)
    else
      match stepOnce s with
      | .next t => runLoop k t
      | .fault r => .fault r
      | .refused r => .refused r

/-- R110 `run(max)`: the host command. -/
def runCommand (max : Nat) (s : State) : Host.Outcome State Fault Refusal :=
  match s.accept with
  | .error r => .refused r
  | .ok t => runLoop max t

/-- Where the next instruction is fetched from: the pc, or 0 where no word can be fetched at the pc. -/
def State.fetchPlace (s : State) : Word :=
  if s.pc.toNat % 4 = 0 ∧ s.pc.toNat + 4 ≤ s.params.memSize then s.pc else 0

/-- The machine with the instruction word `w` placed where it fetches next and everything that this takes: a program
that reaches past that word, and a driver state in which `step` is accepted. It stands for a `load` (R252). -/
def State.placeFetchWord (s : State) (nbits w : Nat) : State :=
  let idle := s.dstate = .idle ∨ s.dstate = .error
  { s with
    pc := s.fetchPlace
    mem := s.mem.writeBytes s.fetchPlace.toNat (bytesOfWord (BitVec.ofNat 32 (w % 2 ^ nbits)))
    progEnd := max s.progEnd (s.fetchPlace.toNat + 4)
    dstate := if idle then .loaded else s.dstate
    error := if idle then none else s.error }

end Sys2Proof.Machine
end

