-- ==== Sys2Proof/Machine/Step.lean ====
section
/-! DEFINITION. The machine's step is the host command `step` (spec/40_instruction_cycle.md R108): admission, then at
most one instruction, atomic. -/

namespace Sys2Proof.Machine

/-- One `step` command. -/
def step (s : State) : Host.Outcome State Fault Refusal := stepCommand s

/-- `s` with an instruction stored where `step` fetches next, so that the very next step runs it. -/
def State.withFetchWord (s : State) (nbits w : Nat) : State := s.placeFetchWord nbits w

end Sys2Proof.Machine
end

