-- ==== Sys2Proof/Machine/Assembler.lean ====
section
/-! DEFINITION. The assembler, component E (spec/30_encoding.md R80 to R91): two passes from text to words. A text is a
list of characters here; `assemble` takes a String. Everything recurses on its list. -/

namespace Sys2Proof.Machine

/-- A piece of assembly text. -/
abbrev Text := List Char

/-- The seven kinds of AssembleError (R89). -/
inductive AssembleErrorKind where
  | syntaxError
  | unknownMnemonic
  | unknownRegister
  | unknownLabel
  | duplicateLabel
  | immediateOutOfRange
  | operandCountMismatch
  deriving DecidableEq, Repr

/-- An AssembleError: its kind and the line it is reported at, lines counted from 1 (R89). -/
structure AssembleError where
  kind : AssembleErrorKind
  line : Nat
  deriving DecidableEq, Repr

/-- The human-readable message R89 asks for; its wording is the model's (notes/assumptions/6.md). -/
def AssembleErrorKind.message : AssembleErrorKind → String
  | .syntaxError => "syntax error"
  | .unknownMnemonic => "unknown mnemonic"
  | .unknownRegister => "unknown register"
  | .unknownLabel => "unknown label"
  | .duplicateLabel => "duplicate label"
  | .immediateOutOfRange => "immediate out of range"
  | .operandCountMismatch => "wrong number of operands"

/-! ## Characters and tokens (R80, R83) -/

/-- White space within a line: space, tab, carriage return (R80). -/
def isBlank (c : Char) : Bool := c = ' ' || c = '\t' || c = '\r'

def isDigit (c : Char) : Bool := decide ('0'.toNat ≤ c.toNat ∧ c.toNat ≤ '9'.toNat)

/-- The first character of an identifier: `[A-Za-z_]` (R80). -/
def isIdentStart (c : Char) : Bool :=
  decide ('A'.toNat ≤ c.toNat ∧ c.toNat ≤ 'Z'.toNat) || decide ('a'.toNat ≤ c.toNat ∧ c.toNat ≤ 'z'.toNat) || c = '_'

/-- A later character of an identifier: `[A-Za-z0-9_]` (R80). -/
def isIdentRest (c : Char) : Bool := isIdentStart c || isDigit c

def trimLeft (t : Text) : Text := t.dropWhile isBlank

/-- Leading and trailing white space removed (R80). -/
def trim (t : Text) : Text := (trimLeft (trimLeft t).reverse).reverse

/-- The pieces between the occurrences of `sep`: one more than there are of them. -/
def splitAtChar (sep : Char) : Text → List Text
  | [] => [[]]
  | c :: cs =>
    if c = sep then [] :: splitAtChar sep cs
    else
      match splitAtChar sep cs with
      | [] => [[c]]
      | t :: ts => (c :: t) :: ts

/-- The identifier a text starts with, as long as it goes, and what follows it. -/
def spanIdent : Text → Option (Text × Text)
  | [] => none
  | c :: cs => if isIdentStart c then some (c :: cs.takeWhile isIdentRest, cs.dropWhile isIdentRest) else none

/-- The text is an identifier and nothing else. -/
def isIdent (t : Text) : Bool :=
  match spanIdent t with
  | some (_, []) => true
  | _ => false

/-- The value of a digit, hexadecimal digits in either case included. -/
def digitValue (c : Char) : Option Nat :=
  if isDigit c then some (c.toNat - '0'.toNat)
  else if decide ('a'.toNat ≤ c.toNat ∧ c.toNat ≤ 'f'.toNat) then some (c.toNat - 'a'.toNat + 10)
  else if decide ('A'.toNat ≤ c.toNat ∧ c.toNat ≤ 'F'.toNat) then some (c.toNat - 'A'.toNat + 10)
  else none

/-- Digits of a base read on from a value. -/
def digitsFrom (base : Nat) : Nat → Text → Option Nat
  | acc, [] => some acc
  | acc, c :: cs =>
    match digitValue c with
    | some d => if d < base then digitsFrom base (acc * base + d) cs else none
    | none => none

/-- One or more digits of a base. -/
def parseDigits (base : Nat) (t : Text) : Option Nat := if t = [] then none else digitsFrom base 0 t

/-- An immediate literal (R83): `[+-]?[0-9]+`, `0x[0-9A-Fa-f]+` or `0b[01]+`, as the integer written. -/
def parseLiteral : Text → Option Int
  | '0' :: 'x' :: t => (parseDigits 16 t).map Int.ofNat
  | '0' :: 'b' :: t => (parseDigits 2 t).map Int.ofNat
  | '+' :: t => (parseDigits 10 t).map Int.ofNat
  | '-' :: t => (parseDigits 10 t).map (fun n => -Int.ofNat n)
  | t => (parseDigits 10 t).map Int.ofNat

/-! ## Registers (R82) -/

/-- The ABI names in index order; `fp` is a second name of x8 (R82). -/
def abiNames : List String :=
  ["zero", "ra", "sp", "gp", "tp", "t0", "t1", "t2", "s0", "s1", "a0", "a1", "a2", "a3", "a4", "a5",
   "a6", "a7", "s2", "s3", "s4", "s5", "s6", "s7", "s8", "s9", "s10", "s11", "t3", "t4", "t5", "t6"]

/-- A natural number as a register index, if it is one. -/
def regOfNat (n : Nat) : Option Reg := if h : n < 32 then some ⟨n, h⟩ else none

/-- A numeric register name: `x` and the decimal index without leading zeros, 0 to 31 (R82). -/
def parseNumericReg : Text → Option Reg
  | ['x', d] => if isDigit d then (parseDigits 10 [d]).bind regOfNat else none
  | ['x', d, e] => if isDigit d && d != '0' then (parseDigits 10 [d, e]).bind regOfNat else none
  | _ => none

/-- A register name, case-sensitive (R82). -/
def parseReg (t : Text) : Option Reg :=
  match parseNumericReg t with
  | some r => some r
  | none => if t = "fp".toList then some 8 else (abiNames.findIdx? (fun n => n.toList = t)).bind regOfNat

/-! ## Lines (R80) -/

/-- What one line holds: an optional label declaration and an optional instruction (mnemonic, operand texts). -/
structure Statement where
  label : Option Text
  instr : Option (Text × List Text)
  deriving DecidableEq, Repr

/-- A label declaration at the start of a trimmed text: the label, and the text after the colon, trimmed. -/
def splitLabel (t : Text) : Option (Text × Text) :=
  match spanIdent t with
  | none => none
  | some (l, rest) =>
    match trimLeft rest with
    | ':' :: r => some (l, trim r)
    | _ => none

/-- An instruction: a mnemonic, then white space, then operands separated by commas, each trimmed. -/
def parseInstr (t : Text) : Option (Text × List Text) :=
  match spanIdent t with
  | none => none
  | some (m, []) => some (m, [])
  | some (m, c :: cs) => if isBlank c then some (m, (splitAtChar ',' cs).map trim) else none

/-- One line of text, or none where it fits no statement shape (R80): comment removed, trimmed, at most one label. -/
def parseLine (line : Text) : Option Statement :=
  let t := trim (line.takeWhile (fun c => c != '#'))
  if t = [] then some { label := none, instr := none }
  else
    match splitLabel t with
    | some (l, rest) =>
      if rest = [] then some { label := some l, instr := none }
      else if (splitLabel rest).isSome then none
      else (parseInstr rest).map (fun i => { label := some l, instr := some i })
    | none => (parseInstr t).map (fun i => { label := none, instr := some i })

/-! ## Pass 1 (R81) -/

/-- Label to byte address (R81). -/
abbrev SymTab := List (Text × Nat)

def SymTab.lookup (syms : SymTab) (l : Text) : Option Nat := (syms.find? (fun p => p.1 = l)).map Prod.snd

/-- The symbol table after the label declaration of a line, if it has one; none where the label is declared already. -/
def SymTab.declare (syms : SymTab) (label : Option Text) (addr : Nat) : Option SymTab :=
  match label with
  | none => some syms
  | some l => if (syms.lookup l).isSome then none else some ((l, addr) :: syms)

/-- An instruction of the text, with its line and its address. -/
structure SourceInstr where
  line     : Nat
  addr     : Nat
  mnemonic : Text
  operands : List Text
  deriving DecidableEq, Repr

/-- Pass 1 from a line number and an address on: labels bound to the address of the next instruction, instructions at
addresses 0, 4, 8, … (R81). -/
def pass1 : List Text → Nat → Nat → SymTab → Except AssembleError (SymTab × List SourceInstr)
  | [], _, _, syms => .ok (syms, [])
  | l :: ls, line, addr, syms =>
    match parseLine l with
    | none => .error { kind := .syntaxError, line := line }
    | some st =>
      match syms.declare st.label addr with
      | none => .error { kind := .duplicateLabel, line := line }
      | some syms' =>
        match st.instr with
        | none => pass1 ls (line + 1) addr syms'
        | some (m, ops) =>
          match pass1 ls (line + 1) (addr + 4) syms' with
          | .error e => .error e
          | .ok (all, is) => .ok (all, { line := line, addr := addr, mnemonic := m, operands := ops } :: is)

/-! ## Operands (R82 to R86) -/

/-- The operand forms of R84. -/
inductive OperandForm where
  | regs        -- rd, rs1, rs2
  | regImm      -- rd, rs1, imm
  | shift       -- rd, rs1, shamt
  | load        -- rd, imm(rs1)
  | store       -- rs2, imm(rs1)
  | branch      -- rs1, rs2, target
  | jump        -- rd, target
  | upper       -- rd, imm20
  | noOperands
  deriving DecidableEq, Repr

/-- The form of each mnemonic (R84). -/
def Op.form : Op → OperandForm
  | .add | .sub | .and | .or | .xor | .sll | .srl | .sra | .slt | .sltu => .regs
  | .addi | .andi | .ori | .xori | .slti | .sltiu | .jalr => .regImm
  | .slli | .srli | .srai => .shift
  | .lb | .lh | .lw | .lbu | .lhu => .load
  | .sb | .sh | .sw => .store
  | .beq | .bne | .blt | .bge | .bltu | .bgeu => .branch
  | .jal => .jump
  | .lui | .auipc => .upper
  | .ecall | .ebreak => .noOperands

/-- The parsed operands of one instruction: register indices, and the immediate as the integer it stands for. -/
structure OperandValues where
  rd  : Reg
  rs1 : Reg
  rs2 : Reg
  imm : Int
  deriving DecidableEq, Repr

/-- A register operand (R82); a malformed one is a SyntaxError (notes/assumptions/5.md). -/
def regOperand (t : Text) : Except AssembleErrorKind Reg :=
  match parseReg t with
  | some r => .ok r
  | none => if isIdent t then .error .unknownRegister else .error .syntaxError

/-- An immediate that is not a target: a literal, or a label's absolute byte address (R85). -/
def immOperand (syms : SymTab) (t : Text) : Except AssembleErrorKind Int :=
  match parseLiteral t with
  | some v => .ok v
  | none =>
    if isIdent t then
      match syms.lookup t with
      | some a => .ok (Int.ofNat a)
      | none => .error .unknownLabel
    else .error .syntaxError

/-- A branch or JAL target: a literal byte offset, or a label's address less the instruction's (R85). -/
def targetOperand (syms : SymTab) (addr : Nat) (t : Text) : Except AssembleErrorKind Int :=
  match parseLiteral t with
  | some v => .ok v
  | none =>
    if isIdent t then
      match syms.lookup t with
      | some a => .ok (Int.ofNat a - Int.ofNat addr)
      | none => .error .unknownLabel
    else .error .syntaxError

/-- The two texts of `imm(reg)`, trimmed (R84); the imm part is required. -/
def splitMemOperand (t : Text) : Option (Text × Text) :=
  let imm := trim (t.takeWhile (fun c => c != '('))
  match t.dropWhile (fun c => c != '(') with
  | '(' :: r =>
    match r.reverse with
    | ')' :: q => if imm = [] then none else some (imm, trim q.reverse)
    | _ => none
  | _ => none

/-- A memory operand `imm(reg)` (R84): the immediate, then the register. -/
def memOperand (syms : SymTab) (t : Text) : Except AssembleErrorKind (Int × Reg) :=
  match splitMemOperand t with
  | none => .error .syntaxError
  | some (i, r) =>
    match immOperand syms i with
    | .error e => .error e
    | .ok v =>
      match regOperand r with
      | .error e => .error e
      | .ok b => .ok (v, b)

/-- The operands of a form, counted, then parsed left to right (R84, R87). -/
def parseOperands (form : OperandForm) (syms : SymTab) (addr : Nat) (ops : List Text) :
    Except AssembleErrorKind OperandValues :=
  match form, ops with
  | .regs, [a, b, c] => do
    let rd ← regOperand a
    let rs1 ← regOperand b
    let rs2 ← regOperand c
    return { rd := rd, rs1 := rs1, rs2 := rs2, imm := 0 }
  | .regImm, [a, b, c] => do
    let rd ← regOperand a
    let rs1 ← regOperand b
    let v ← immOperand syms c
    return { rd := rd, rs1 := rs1, rs2 := 0, imm := v }
  | .shift, [a, b, c] => do
    let rd ← regOperand a
    let rs1 ← regOperand b
    let v ← immOperand syms c
    return { rd := rd, rs1 := rs1, rs2 := 0, imm := v }
  | .load, [a, b] => do
    let rd ← regOperand a
    let (v, rs1) ← memOperand syms b
    return { rd := rd, rs1 := rs1, rs2 := 0, imm := v }
  | .store, [a, b] => do
    let rs2 ← regOperand a
    let (v, rs1) ← memOperand syms b
    return { rd := 0, rs1 := rs1, rs2 := rs2, imm := v }
  | .branch, [a, b, c] => do
    let rs1 ← regOperand a
    let rs2 ← regOperand b
    let v ← targetOperand syms addr c
    return { rd := 0, rs1 := rs1, rs2 := rs2, imm := v }
  | .jump, [a, b] => do
    let rd ← regOperand a
    let v ← targetOperand syms addr b
    return { rd := rd, rs1 := 0, rs2 := 0, imm := v }
  | .upper, [a, b] => do
    let rd ← regOperand a
    let v ← immOperand syms b
    return { rd := rd, rs1 := 0, rs2 := 0, imm := v }
  | .noOperands, [] => return { rd := 0, rs1 := 0, rs2 := 0, imm := 0 }
  | _, _ => .error .operandCountMismatch

/-- The range check of R86 for the operand value of a form. -/
def immInRange (acceptUnsigned : Bool) (form : OperandForm) (v : Int) : Bool :=
  match form with
  | .regs | .noOperands => true
  | .regImm | .load | .store => decide (-2048 ≤ v ∧ v ≤ 2047)
  | .shift => decide (0 ≤ v ∧ v ≤ 31)
  | .branch => decide (-4096 ≤ v ∧ v ≤ 4094 ∧ v % 2 = 0)
  | .jump => decide (-1048576 ≤ v ∧ v ≤ 1048574 ∧ v % 2 = 0)
  | .upper => decide (-524288 ≤ v ∧ v ≤ (if acceptUnsigned then 1048575 else 524287))

/-- The 32-bit immediate of the decoded record for an operand value: the value modulo 2^32, a U operand times 4096
(R72), and under SRAI's funct7 the shift amount (R61). -/
def immWord (op : Op) (v : Int) : Word :=
  match op with
  | .lui | .auipc => BitVec.ofInt 32 (v * 4096)
  | .srai => BitVec.ofInt 32 (v + 1024)
  | _ => BitVec.ofInt 32 v

/-! ## Pass 2 (R87) -/

/-- The lower-case ASCII letters as upper case, everything else as it is. -/
def upperChar (c : Char) : Char :=
  if decide ('a'.toNat ≤ c.toNat ∧ c.toNat ≤ 'z'.toNat) then Char.ofNat (c.toNat - 32) else c

/-- The operation of a mnemonic, in any letter case (R80, R84). -/
def opOfMnemonic (m : Text) : Option Op := Op.all.find? (fun op => op.mnemonic.toList = m.map upperChar)

/-- One instruction of the text (R87): mnemonic, operand count, operands left to right, range. -/
def assembleInstr (acceptUnsigned : Bool) (syms : SymTab) (si : SourceInstr) : Except AssembleErrorKind Instr :=
  match opOfMnemonic si.mnemonic with
  | none => .error .unknownMnemonic
  | some op =>
    match parseOperands (Op.form op) syms si.addr si.operands with
    | .error e => .error e
    | .ok o =>
      if immInRange acceptUnsigned (Op.form op) o.imm then
        .ok (op.instr o.rd o.rs1 o.rs2 (immWord op o.imm))
      else .error .immediateOutOfRange

/-- Pass 2: the instructions in order, or the first error with its line (R87, R89). -/
def pass2 (acceptUnsigned : Bool) (syms : SymTab) : List SourceInstr → Except AssembleError (List Instr)
  | [] => .ok []
  | si :: rest =>
    match assembleInstr acceptUnsigned syms si with
    | .error k => .error { kind := k, line := si.line }
    | .ok i =>
      match pass2 acceptUnsigned syms rest with
      | .error e => .error e
      | .ok is => .ok (i :: is)

/-- The instructions of a text: pass 1 over all of it, then pass 2. -/
def assembleInstrs (acceptUnsigned : Bool) (text : Text) : Except AssembleError (List Instr) :=
  match pass1 (splitAtChar '\n' text) 1 0 [] with
  | .error e => .error e
  | .ok (syms, is) => pass2 acceptUnsigned syms is

/-- `assemble(text)` (R87): the words of a text in program order, or the first AssembleError. -/
def assemble (acceptUnsigned : Bool) (text : String) : Except AssembleError (List Word) :=
  match assembleInstrs acceptUnsigned text.toList with
  | .error e => .error e
  | .ok is => .ok (is.map encode)

end Sys2Proof.Machine
end

