-- ==== Sys2Proof/Machine/Driver.lean ====
section
/-! DEFINITION. The host's commands (spec/70_reset_and_hazards.md R250 to R258, spec/20_memory.md R48): one at a time,
between steps, each running to completion. -/

namespace Sys2Proof.Machine

/-! ## Reset and load (R251, R252) -/

/-- `reset()`: every piece of state at R27's value; the parameters are kept (R251). -/
def State.resetCommand (s : State) : State := State.construct s.params

/-- The bytes of a program, word after word, each least significant byte first (R33, R88). -/
def programBytes (ws : List Word) : List Byte := ws.flatMap bytesOfWord

/-- The reset machine with `ws` placed at address 0, `prog_end` behind them and the driver Loaded (R252). -/
def State.loadWords (s : State) (ws : List Word) : State :=
  { s.resetCommand with
    mem := Memory.writeBytes [] 0 (programBytes ws)
    progEnd := 4 * ws.length
    dstate := .loaded }

/-- Why the host is told that a `load` did not happen. -/
inductive LoadError where
  /-- R252: an AssembleError; nothing at all changes. -/
  | assemble (e : AssembleError)
  /-- R252: the program does not fit; MemoryBounds is reported and nothing changes. -/
  | programTooLarge
  deriving DecidableEq, Repr

/-- `load(text)` (R252): accepted in every driver state. -/
def State.load (s : State) (text : String) : Except LoadError State :=
  match Sys2Proof.Machine.assemble s.params.asmUAcceptUnsigned text with
  | .error e => .error (.assemble e)
  | .ok ws => if s.params.memSize < 4 * ws.length then .error .programTooLarge else .ok (s.loadWords ws)

/-! ## Host access to memory and the snapshot (R22, R48) -/

/-- `read_memory(addr, len)`: the bytes, or none where MemoryBounds is reported to the host. -/
def State.readMemory (s : State) (addr len : Nat) : Option (List Byte) :=
  if s.params.memSize < addr + len then none else some (s.mem.readBytes addr len)

/-- `write_memory(addr, bytes)`: the machine afterwards, or none where MemoryBounds is reported and nothing changes. -/
def State.writeMemory (s : State) (addr : Nat) (bytes : List Byte) : Option State :=
  if s.params.memSize < addr + bytes.length then none else some { s with mem := s.mem.writeBytes addr bytes }

/-- What `snapshot` shows (R22): pc, registers[32], halted, instructions_executed, recent_trace. The whole trace is
kept (92_eei_decisions.md D16). -/
structure Snapshot where
  pc                   : Word
  registers            : List Word
  halted               : Bool
  instructionsExecuted : Nat
  recentTrace          : List TraceEntry
  deriving DecidableEq, Repr

/-- `snapshot()`. -/
def State.snapshot (s : State) : Snapshot :=
  { pc := s.pc
    registers := (List.finRange 32).map s.reg
    halted := s.halted
    instructionsExecuted := s.instructionsExecuted
    recentTrace := s.trace }

/-! ## Commands (R258) -/

/-- The host's commands. `run` without a budget is `run` with `Config.runBudget` (R110). -/
inductive Command where
  | assemble (text : String)
  | load (text : String)
  | reset
  | step
  | run (max : Nat)
  | snapshot
  | readMemory (addr len : Nat)
  | writeMemory (addr : Nat) (bytes : List Byte)
  deriving DecidableEq, Repr

/-- What the host is told. -/
inductive Reply where
  /-- The command was carried out and has nothing to show. -/
  | done
  /-- `assemble` gave words. -/
  | words (ws : List Word)
  /-- `assemble` or `load` gave an AssembleError (R89). -/
  | assembleError (e : AssembleError)
  /-- `load`, `read_memory` or `write_memory` reports MemoryBounds (R48, R252). -/
  | memoryBounds
  /-- `step` or `run` was refused (R101). -/
  | refused (r : Refusal)
  /-- `step` or `run` ended: the observable state, the halt reason and the error record (R108, R112). -/
  | ended (view : Snapshot) (reason : Option HaltReason) (error : Option ErrorRecord)
  /-- `snapshot`. -/
  | view (v : Snapshot)
  /-- `read_memory`. -/
  | bytes (bs : List Byte)
  deriving DecidableEq, Repr

/-- The machine and the reply after a `step` or `run` that came out as `o`. -/
def afterStepping (s : State) (o : Host.Outcome State Fault Refusal) : State × Reply :=
  match o with
  | .next t => (t, .ended t.snapshot t.haltReason t.error)
  | .fault r => nomatch r
  | .refused r => (s, .refused r)

/-- One host command (R258): the machine afterwards and the reply. -/
def command (c : Command) (s : State) : State × Reply :=
  match c with
  | .assemble text =>
    match Sys2Proof.Machine.assemble s.params.asmUAcceptUnsigned text with
    | .ok ws => (s, .words ws)
    | .error e => (s, .assembleError e)
  | .load text =>
    match s.load text with
    | .ok t => (t, .done)
    | .error (.assemble e) => (s, .assembleError e)
    | .error .programTooLarge => (s, .memoryBounds)
  | .reset => (s.resetCommand, .done)
  | .step => afterStepping s (Sys2Proof.Machine.step s)
  | .run max => afterStepping s (runCommand max s)
  | .snapshot => (s, .view s.snapshot)
  | .readMemory addr len =>
    match s.readMemory addr len with
    | some bs => (s, .bytes bs)
    | none => (s, .memoryBounds)
  | .writeMemory addr bytes =>
    match s.writeMemory addr bytes with
    | some t => (t, .done)
    | none => (s, .memoryBounds)

/-- The machine after a sequence of host commands. -/
def afterCommands : List Command → State → State
  | [], s => s
  | c :: cs, s => afterCommands cs (command c s).1

end Sys2Proof.Machine
end

