-- ==== Sys2Proof/Safety.lean ====
section
/-! DEFINITION. The terms claims are made in: what an instruction's completion and a fault leave unchanged, when the
machine is admitted to step, the invariant of the machine, and which states the host can reach. -/

namespace Sys2Proof.Machine

/-! ## What is unchanged -/

/-- Every general register reads as before. -/
def RegsKept (s t : State) : Prop := ∀ r, t.reg r = s.reg r

/-- `x[rd] <- v` and no other register: with rd = 0 the write is discarded (R11). -/
def OnlyRegWritten (s t : State) (rd : Reg) (v : Word) : Prop :=
  ∀ r, t.reg r = if r = rd ∧ r ≠ 0 then v else s.reg r

/-- Every byte of memory reads as before. -/
def MemKept (s t : State) : Prop := ∀ a, t.mem.read a = s.mem.read a

/-- Every byte outside the `n` bytes at `a` reads as before. -/
def MemKeptOutside (s t : State) (a n : Nat) : Prop := ∀ x, x < a ∨ a + n ≤ x → t.mem.read x = s.mem.read x

/-- The state that no instruction reads or writes: the parameters, `prog_end` and the error record. -/
def DriverKept (s t : State) : Prop := t.params = s.params ∧ t.progEnd = s.progEnd ∧ t.error = s.error

/-- The halted flag, its reason and the driver state are as before. -/
def NotHalted (s t : State) : Prop := t.halted = s.halted ∧ t.haltReason = s.haltReason ∧ t.dstate = s.dstate

/-- The instruction is counted, and one trace entry is appended (R107): the pc before execute, the instruction's word,
and register writes that give each register's old and new value. What the entry lists and how it spells the mnemonic
is a decision of the spec (92_eei_decisions.md D16) and stands in a statement of its own. -/
def Recorded (i : Instr) (s t : State) : Prop :=
  t.instructionsExecuted = s.instructionsExecuted + 1 ∧
  ∃ e : TraceEntry, t.trace = s.trace ++ [e] ∧ e.pc = s.pc ∧ (i.WellFormed → e.word = encode i) ∧
    ∀ x ∈ e.writes, x.old = s.reg x.index ∧ x.new = t.reg x.index

/-- `i` completes from `s` in `t`, writing `v` to rd and going on at `next`; nothing else changes. -/
def WritesReg (i : Instr) (s t : State) (rd : Reg) (v next : Word) : Prop :=
  OnlyRegWritten s t rd v ∧ t.pc = next ∧ MemKept s t ∧ DriverKept s t ∧ NotHalted s t ∧
  Recorded i s t

/-- `i` completes from `s` in `t`, only going on at `next`; nothing else changes. -/
def OnlyGoesTo (i : Instr) (s t : State) (next : Word) : Prop :=
  RegsKept s t ∧ t.pc = next ∧ MemKept s t ∧ DriverKept s t ∧ NotHalted s t ∧ Recorded i s t

/-- `i` completes from `s` in `t`, having stored the low `n` bytes of `v` at `a`, least significant byte first, and
goes on at `pc + 4`; nothing else changes. -/
def StoresBytes (i : Instr) (s t : State) (a n : Nat) (v : Word) : Prop :=
  (∀ k, k < n → t.mem.read (a + k) = v.extractLsb' (8 * k) 8) ∧ MemKeptOutside s t a n ∧
  RegsKept s t ∧ t.pc = s.pc + 4 ∧ DriverKept s t ∧ NotHalted s t ∧ Recorded i s t

/-- `i` completes from `s` in `t` and halts the machine with `reason`, the pc advanced by 4 (R205). -/
def HaltsCleanly (i : Instr) (s t : State) (reason : HaltReason) : Prop :=
  RegsKept s t ∧ t.pc = s.pc + 4 ∧ MemKept s t ∧ DriverKept s t ∧
  t.halted = true ∧ t.haltReason = some reason ∧ t.dstate = .halted ∧ Recorded i s t

/-- From `s` the error `k` is taken in `t`, recorded with the word `w`: the record and the driver state are written and
nothing else changes (R226). -/
def TakesError (s t : State) (k : ErrorKind) (w : Option Word) : Prop :=
  t.error = some { kind := k, pc := s.pc, word := w } ∧ t.dstate = .error ∧
  t.pc = s.pc ∧ RegsKept s t ∧ MemKept s t ∧ t.params = s.params ∧ t.progEnd = s.progEnd ∧
  t.halted = s.halted ∧ t.haltReason = s.haltReason ∧
  t.instructionsExecuted = s.instructionsExecuted ∧ t.trace = s.trace

/-- Executing `i` from `s` ends in `t` with the error `k`, recorded with the instruction's word. -/
def FaultsAs (i : Instr) (s t : State) (k : ErrorKind) : Prop :=
  ∃ w, TakesError s t k (some w) ∧ (i.WellFormed → w = encode i)

/-! ## Admission and fetching -/

/-- The driver states in which `step` and `run` are accepted (R101). -/
def State.Admitted (s : State) : Prop := s.dstate = .loaded ∨ s.dstate = .running ∨ s.dstate = .halted

/-- The machine as an accepted `step` or `run` makes it before anything else (R101). -/
def State.asRunning (s : State) : State := { s with dstate := .running, halted := false, haltReason := none }

/-- A word can be fetched at the pc and is the little-endian word `w` (R102, R103): the pc is inside the program, a
multiple of 4, and the four bytes are inside memory. -/
def State.FetchesWord (s : State) (w : Word) : Prop :=
  s.pc.toNat < s.progEnd ∧ s.pc.toNat % 4 = 0 ∧ s.pc.toNat + 4 ≤ s.params.memSize ∧
  w = s.mem.read (s.pc.toNat + 3) ++ s.mem.read (s.pc.toNat + 2) ++ s.mem.read (s.pc.toNat + 1) ++
    s.mem.read s.pc.toNat

/-- The state without the trace and the counter, which nothing of the machine reads (R21, R22). -/
def State.forgetHistory (s : State) : State := { s with instructionsExecuted := 0, trace := [] }

/-- An outcome without the trace and the counter of its state. -/
def forgetHistoryOf (o : Host.Outcome State Fault Refusal) : Host.Outcome State Fault Refusal :=
  match o with
  | .next t => .next t.forgetHistory
  | .fault r => .fault r
  | .refused r => .refused r

/-! ## Words as R52 lays them out -/

/-- Format R: funct7, rs2, rs1, funct3, rd, opcode. -/
def wordR (f7 : BitVec 7) (rs2 rs1 : Reg) (f3 : BitVec 3) (rd : Reg) (op : BitVec 7) : Word :=
  f7 ++ regBits rs2 ++ regBits rs1 ++ f3 ++ regBits rd ++ op

/-- Format I: imm[11:0], rs1, funct3, rd, opcode. -/
def wordI (m : BitVec 12) (rs1 : Reg) (f3 : BitVec 3) (rd : Reg) (op : BitVec 7) : Word :=
  m ++ regBits rs1 ++ f3 ++ regBits rd ++ op

/-- Format I of a shift: funct7, shamt, rs1, funct3, rd, opcode. -/
def wordShift (f7 : BitVec 7) (shamt : BitVec 5) (rs1 : Reg) (f3 : BitVec 3) (rd : Reg) (op : BitVec 7) : Word :=
  f7 ++ shamt ++ regBits rs1 ++ f3 ++ regBits rd ++ op

/-- Format S: imm[11:5], rs2, rs1, funct3, imm[4:0], opcode. -/
def wordS (m : BitVec 12) (rs2 rs1 : Reg) (f3 : BitVec 3) (op : BitVec 7) : Word :=
  m.extractLsb' 5 7 ++ regBits rs2 ++ regBits rs1 ++ f3 ++ m.extractLsb' 0 5 ++ op

/-- Format B: imm[12], imm[10:5], rs2, rs1, funct3, imm[4:1], imm[11], opcode. -/
def wordB (m : BitVec 13) (rs2 rs1 : Reg) (f3 : BitVec 3) (op : BitVec 7) : Word :=
  m.extractLsb' 12 1 ++ m.extractLsb' 5 6 ++ regBits rs2 ++ regBits rs1 ++ f3 ++ m.extractLsb' 1 4
    ++ m.extractLsb' 11 1 ++ op

/-- Format U: imm[31:12], rd, opcode. -/
def wordU (m : BitVec 20) (rd : Reg) (op : BitVec 7) : Word := m ++ regBits rd ++ op

/-- Format J: imm[20], imm[10:1], imm[11], imm[19:12], rd, opcode. -/
def wordJ (m : BitVec 21) (rd : Reg) (op : BitVec 7) : Word :=
  m.extractLsb' 20 1 ++ m.extractLsb' 1 10 ++ m.extractLsb' 11 1 ++ m.extractLsb' 12 8 ++ regBits rd ++ op

/-! ## The rule of each family, with what an instruction of it computes left open

The numbers of the encodings are R60 to R67's, which the spec marks as general knowledge (notes/assumptions/1.md). -/

/-- A register-register instruction (R120): its encoding in every operand, and that from every state it completes,
writing a value that `res` relates to the two sources. -/
def RegRegRule (mk : Reg → Reg → Reg → Instr) (f7 : BitVec 7) (f3 : BitVec 3) (res : Word → Word → Word → Prop) :
    Prop :=
  ∀ (rd rs1 rs2 : Reg) (s : State),
    decode (wordR f7 rs2 rs1 f3 rd 0b0110011#7) = .ok (mk rd rs1 rs2) ∧
    ∃ t v, exec (mk rd rs1 rs2) s = .next t ∧ res (s.reg rs1) (s.reg rs2) v ∧
      WritesReg (mk rd rs1 rs2) s t rd v (s.pc + 4)

/-- A register-immediate instruction other than a shift (R140): its encoding in every operand, and that from every
state it completes, writing a value that `res` relates to the source and the immediate. -/
def RegImmRule (mk : Reg → Reg → Word → Instr) (f3 : BitVec 3) (res : Word → Word → Word → Prop) : Prop :=
  (∀ (rd rs1 : Reg) (m : BitVec 12),
    decode (wordI m rs1 f3 rd 0b0010011#7) = .ok (mk rd rs1 (m.signExtend 32))) ∧
  ∀ (rd rs1 : Reg) (imm : Word) (s : State), ∃ t v, exec (mk rd rs1 imm) s = .next t ∧
    res (s.reg rs1) imm v ∧ WritesReg (mk rd rs1 imm) s t rd v (s.pc + 4)

/-- A shift by an immediate (R140): the record's immediate is `imm_I`, of which only bits 4:0 count. -/
def ShiftImmRule (mk : Reg → Reg → Word → Instr) (f7 : BitVec 7) (f3 : BitVec 3) (res : Word → Nat → Word → Prop) :
    Prop :=
  (∀ (rd rs1 : Reg) (sh : BitVec 5),
    decode (wordShift f7 sh rs1 f3 rd 0b0010011#7) = .ok (mk rd rs1 ((f7 ++ sh : BitVec 12).signExtend 32))) ∧
  ∀ (rd rs1 : Reg) (imm : Word) (s : State), ∃ t v, exec (mk rd rs1 imm) s = .next t ∧
    res (s.reg rs1) (imm.toNat % 32) v ∧ WritesReg (mk rd rs1 imm) s t rd v (s.pc + 4)

/-- What an access of `n` bytes at `a` that does not pass its tests ends in, for the instruction `i` that makes it: out
of range but aligned, MemoryBounds; misaligned but in range, MemoryAlignment; both, one of the two (which one is the
spec's decision D5 and is stated of the access primitives). -/
def FaultingAccess (i : Instr) (s : State) (a n : Nat) : Prop :=
  (a % n = 0 → s.params.memSize < a + n → ∃ t, exec i s = .next t ∧ FaultsAs i s t .memoryBounds) ∧
  (a % n ≠ 0 → a + n ≤ s.params.memSize → ∃ t, exec i s = .next t ∧ FaultsAs i s t .memoryAlignment) ∧
  (a % n ≠ 0 → s.params.memSize < a + n →
    ∃ t, exec i s = .next t ∧ (FaultsAs i s t .memoryAlignment ∨ FaultsAs i s t .memoryBounds))

/-- A load of `n` bytes (R160): its encoding; where the access is aligned and in range it completes, writing a value
that `res` relates to memory and the address; where it is not, it faults. -/
def LoadRule (mk : Reg → Reg → Word → Instr) (f3 : BitVec 3) (n : Nat) (res : Memory → Nat → Word → Prop) : Prop :=
  (∀ (rd rs1 : Reg) (m : BitVec 12),
    decode (wordI m rs1 f3 rd 0b0000011#7) = .ok (mk rd rs1 (m.signExtend 32))) ∧
  ∀ (rd rs1 : Reg) (imm : Word) (s : State),
    ((s.reg rs1 + imm).toNat % n = 0 → (s.reg rs1 + imm).toNat + n ≤ s.params.memSize →
      ∃ t v, exec (mk rd rs1 imm) s = .next t ∧ res s.mem (s.reg rs1 + imm).toNat v ∧
        WritesReg (mk rd rs1 imm) s t rd v (s.pc + 4)) ∧
    FaultingAccess (mk rd rs1 imm) s (s.reg rs1 + imm).toNat n

/-- A store of `n` bytes (R170), on a memory in canonical form: its encoding; where the access is aligned and in range
it completes, storing the low bytes of `x[rs2]`; where it is not, it faults. -/
def StoreRule (mk : Reg → Reg → Word → Instr) (f3 : BitVec 3) (n : Nat) : Prop :=
  (∀ (rs1 rs2 : Reg) (m : BitVec 12),
    decode (wordS m rs2 rs1 f3 0b0100011#7) = .ok (mk rs1 rs2 (m.signExtend 32))) ∧
  ∀ (rs1 rs2 : Reg) (imm : Word) (s : State), s.mem.wf →
    ((s.reg rs1 + imm).toNat % n = 0 → (s.reg rs1 + imm).toNat + n ≤ s.params.memSize →
      ∃ t, exec (mk rs1 rs2 imm) s = .next t ∧
        StoresBytes (mk rs1 rs2 imm) s t (s.reg rs1 + imm).toNat n (s.reg rs2)) ∧
    FaultingAccess (mk rs1 rs2 imm) s (s.reg rs1 + imm).toNat n

/-- A branch (R180): its encoding in every operand, and that from every state it completes, going on at `pc + imm`
where the condition holds and at `pc + 4` where it does not. -/
def BranchRule (mk : Reg → Reg → Word → Instr) (f3 : BitVec 3) (cond : Word → Word → Prop) : Prop :=
  (∀ (rs1 rs2 : Reg) (m : BitVec 12),
    decode (wordB (m ++ 0#1) rs2 rs1 f3 0b1100011#7) = .ok (mk rs1 rs2 ((m ++ 0#1 : BitVec 13).signExtend 32))) ∧
  ∀ (rs1 rs2 : Reg) (imm : Word) (s : State),
    ∃ t next, exec (mk rs1 rs2 imm) s = .next t ∧ OnlyGoesTo (mk rs1 rs2 imm) s t next ∧
      (cond (s.reg rs1) (s.reg rs2) → next = s.pc + imm) ∧ (¬ cond (s.reg rs1) (s.reg rs2) → next = s.pc + 4)

/-- The destination register of an instruction, where its format has one (R52). -/
def rdField : Instr → Option Reg
  | .add rd _ _ | .sub rd _ _ | .and rd _ _ | .or rd _ _ | .xor rd _ _ => some rd
  | .sll rd _ _ | .srl rd _ _ | .sra rd _ _ | .slt rd _ _ | .sltu rd _ _ => some rd
  | .addi rd _ _ | .andi rd _ _ | .ori rd _ _ | .xori rd _ _ | .slti rd _ _ | .sltiu rd _ _ => some rd
  | .slli rd _ _ | .srli rd _ _ | .srai rd _ _ => some rd
  | .lb rd _ _ | .lh rd _ _ | .lw rd _ _ | .lbu rd _ _ | .lhu rd _ _ => some rd
  | .sb _ _ _ | .sh _ _ _ | .sw _ _ _ => none
  | .beq _ _ _ | .bne _ _ _ | .blt _ _ _ | .bge _ _ _ | .bltu _ _ _ | .bgeu _ _ _ => none
  | .jal rd _ | .jalr rd _ _ | .lui rd _ | .auipc rd _ => some rd
  | .ecall | .ebreak => none

/-- The operations that store to memory. -/
def storeOps : List Op := [.sb, .sh, .sw]

/-- The operations that can set the pc to something other than `pc + 4` (R15). -/
def controlOps : List Op := [.beq, .bne, .blt, .bge, .bltu, .bgeu, .jal, .jalr]

/-! ## Lines of assembly text -/

/-- The label a line declares, if it has one (R80). -/
def labelOf (line : Text) : Option Text := (parseLine line).bind Statement.label

/-- Digits as a text spells them: each value with whether a letter stands for it in upper case (R83). -/
abbrev Digits := List (Fin 16 × Bool)

/-- The character of a digit. -/
def digitChar (d : Fin 16 × Bool) : Char :=
  (if d.2 then "0123456789ABCDEF" else "0123456789abcdef").toList.getD d.1.val '0'

/-- The text of digits. -/
def digitsText (ds : Digits) : Text := ds.map digitChar

/-- The integer that digits denote in a base, most significant digit first. -/
def digitsValue (base : Nat) (ds : Digits) : Int := ds.foldl (fun acc d => acc * base + d.1.val) 0

/-- How many instructions the lines before line `k` hold (R81). -/
def instrsBefore (lines : List Text) (k : Nat) : Nat :=
  ((lines.take k).filter (fun l => ((parseLine l).bind Statement.instr).isSome)).length

/-! ## The invariant and the reachable states -/

/-- The invariant of the machine: what is true of every state the host can reach. -/
structure State.Inv (s : State) : Prop where
  /-- R4. -/
  legal : s.params.Legal
  /-- Memory keeps its canonical form. -/
  memWf : s.mem.wf
  /-- No byte outside [0, MEM_SIZE) exists (R42). -/
  memInside : ∀ c ∈ s.mem, c.1 < s.params.memSize
  /-- R17: `halted` = 1 if and only if `dstate` = Halted. -/
  haltedIff : s.halted = true ↔ s.dstate = .halted
  /-- R17, 92_eei_decisions.md D19: the reason is None when not halted, and named when halted. -/
  reasonIff : s.haltReason ≠ none ↔ s.halted = true
  /-- R19: `error` is not None if and only if `dstate` = Error. -/
  errorIff : s.error ≠ none ↔ s.dstate = .error
  /-- R227: the record's pc equals the pc register. -/
  errorPc : ∀ e, s.error = some e → e.pc = s.pc
  /-- R20: `prog_end` is a multiple of 4 … -/
  progEndAligned : s.progEnd % 4 = 0
  /-- … and at most MEM_SIZE. -/
  progEndInside : s.progEnd ≤ s.params.memSize
  /-- R16: bit 0 of the pc is 0. -/
  pcEven : s.pc.toNat % 2 = 0
  /-- R107: one trace entry for every instruction counted. -/
  traceCounts : s.trace.length = s.instructionsExecuted
  /-- R27, R251: in Idle no program is loaded. -/
  idleEmpty : s.dstate = .idle → s.progEnd = 0

/-- The states a host reaches from a machine it constructed with legal parameters (R250, R258). -/
def State.Reachable (s : State) : Prop :=
  ∃ (p : Params) (cs : List Command), p.Legal ∧ s = afterCommands cs (State.construct p)

/-- The run ended in a clean halt (R112). -/
def State.EndedCleanly (s : State) : Prop := s.dstate = .halted

/-- The run ended in a fault (R112). -/
def State.EndedInError (s : State) : Prop := s.dstate = .error

end Sys2Proof.Machine
end

