-- ==== Sys2Proof/Certificates/Slice0/Obligations.lean ====
section
/-! DEFINITION. The statements for the provers, each from the numbered rules of spec/. -/

open Sys2Proof Sys2Proof.Machine

/-! ## Encoding -/

/-- The words of 95_test_vectors.md and of the instruction rules' examples, written out, decode to the instructions they
stand for. (The numbers are the spec's decision D1, 92_eei_decisions.md; notes/assumptions/1.md.) -/
def Obligations.WrittenOutWordsDecode : Prop :=
  decode 0x00A00093#32 = .ok (.addi 1 0 10#32) ∧ decode 0x002081B3#32 = .ok (.add 3 1 2) ∧
  decode 0x4000D013#32 = .ok (.srai 0 1 0x400#32) ∧ decode 0x00102083#32 = .ok (.lw 1 0 1#32) ∧
  decode 0xFFFFAFA3#32 = .ok (.sw 31 31 0xFFFFFFFF#32) ∧ decode 0xFE209CE3#32 = .ok (.bne 1 2 0xFFFFFFF8#32) ∧
  decode 0x002080E3#32 = .ok (.beq 1 2 2048#32) ∧ decode 0x001000EF#32 = .ok (.jal 1 2048#32) ∧
  decode 0x007100E7#32 = .ok (.jalr 1 2 7#32) ∧ decode 0x123450B7#32 = .ok (.lui 1 0x12345000#32) ∧
  decode 0xFFFFF117#32 = .ok (.auipc 2 0xFFFFF000#32) ∧ decode 0x00000073#32 = .ok .ecall ∧
  decode 0x00100073#32 = .ok .ebreak

/-- What the spec derives in 30_encoding.md R73, its three sentences: decoding an encoded well-formed instruction gives it
back; every word that decodes decodes to a well-formed instruction whose encoding is the word (decoding is strict by the
spec's decision D2); and every word of an assembled text is such a word. -/
def Obligations.DecodeAndEncodeAgree : Prop :=
  (∀ i : Instr, i.WellFormed → decode (encode i) = .ok i) ∧
  (∀ (w : Word) (i : Instr), decode w = .ok i → i.WellFormed ∧ encode i = w) ∧
  (∀ (acceptUnsigned : Bool) (text : String) (ws : List Word), assemble acceptUnsigned text = .ok ws →
    ∀ w ∈ ws, ∃ i, decode w = .ok i ∧ encode i = w)

/-- R53 to R57, bit by bit: which bit of the word each bit of each immediate is, the sign bit w[31] above them, and
the zero bits below them. -/
def Obligations.ImmediatesAreTheirScatteredBits : Prop :=
  ∀ (w : Word) (k : Nat), k < 32 →
    ((immI w).getLsbD k = if k < 11 then w.getLsbD (k + 20) else w.getLsbD 31) ∧
    ((immS w).getLsbD k = if k < 5 then w.getLsbD (k + 7) else if k < 11 then w.getLsbD (k + 20) else w.getLsbD 31) ∧
    ((immB w).getLsbD k =
      if k = 0 then false else if k < 5 then w.getLsbD (k + 7) else if k < 11 then w.getLsbD (k + 20)
      else if k = 11 then w.getLsbD 7 else w.getLsbD 31) ∧
    ((immU w).getLsbD k = if k < 12 then false else w.getLsbD k) ∧
    ((immJ w).getLsbD k =
      if k = 0 then false else if k < 11 then w.getLsbD (k + 20) else if k = 11 then w.getLsbD 20
      else if k < 20 then w.getLsbD k else w.getLsbD 31) ∧
    (-2048 ≤ (immI w).toInt ∧ (immI w).toInt ≤ 2047) ∧ (-2048 ≤ (immS w).toInt ∧ (immS w).toInt ≤ 2047) ∧
    (-4096 ≤ (immB w).toInt ∧ (immB w).toInt ≤ 4094) ∧ (-1048576 ≤ (immJ w).toInt ∧ (immJ w).toInt ≤ 1048574)

/-- What the spec derives in 30_encoding.md R71: the opcode table has one row for each of the 39 operations, its patterns
are pairwise disjoint, and a word decodes to an operation exactly when it is one of the words of that operation's row. -/
def Obligations.DecoderFollowsTheOpcodeTable : Prop :=
  opcodeTable.map OpcodeRow.op = Op.all ∧ Op.all.length = 39 ∧ (∀ op : Op, op ∈ Op.all) ∧
  (∀ r ∈ opcodeTable, ∀ r' ∈ opcodeTable, ∀ w : Word, r.Matches w → r'.Matches w → r = r') ∧
  (∀ r ∈ opcodeTable, ∀ w : Word, r.Matches w ↔ ∃ i, decode w = .ok i ∧ i.op = r.op)

/-- R60 to R64: inside the opcodes OP, OP-IMM, LOAD, STORE and BRANCH, the selectors that name an operation, each with
its operation; every other selector is illegal. (The spec marks the numbers as general knowledge;
notes/assumptions/1.md.) -/
def Obligations.SelectorsDecideTheOperation : Prop :=
  ∀ w : Word,
    (opcodeOf w = 0b0110011#7 → (decode w).toOption.map Instr.op =
      ([((0b0000000#7, 0b000#3), Op.add), ((0b0100000#7, 0b000#3), .sub), ((0b0000000#7, 0b001#3), .sll),
        ((0b0000000#7, 0b010#3), .slt), ((0b0000000#7, 0b011#3), .sltu), ((0b0000000#7, 0b100#3), .xor),
        ((0b0000000#7, 0b101#3), .srl), ((0b0100000#7, 0b101#3), .sra), ((0b0000000#7, 0b110#3), .or),
        ((0b0000000#7, 0b111#3), .and)].lookup (funct7Of w, funct3Of w))) ∧
    (opcodeOf w = 0b0010011#7 → (decode w).toOption.map Instr.op =
      if funct3Of w = 0b001#3 ∨ funct3Of w = 0b101#3 then
        [((0b0000000#7, 0b001#3), Op.slli), ((0b0000000#7, 0b101#3), .srli), ((0b0100000#7, 0b101#3), .srai)].lookup
          (funct7Of w, funct3Of w)
      else
        [(0b000#3, Op.addi), (0b010#3, .slti), (0b011#3, .sltiu), (0b100#3, .xori), (0b110#3, .ori),
          (0b111#3, .andi)].lookup (funct3Of w)) ∧
    (opcodeOf w = 0b0000011#7 → (decode w).toOption.map Instr.op =
      [(0b000#3, Op.lb), (0b001#3, .lh), (0b010#3, .lw), (0b100#3, .lbu), (0b101#3, .lhu)].lookup (funct3Of w)) ∧
    (opcodeOf w = 0b0100011#7 → (decode w).toOption.map Instr.op =
      [(0b000#3, Op.sb), (0b001#3, .sh), (0b010#3, .sw)].lookup (funct3Of w)) ∧
    (opcodeOf w = 0b1100011#7 → (decode w).toOption.map Instr.op =
      [(0b000#3, Op.beq), (0b001#3, .bne), (0b100#3, .blt), (0b101#3, .bge), (0b110#3, .bltu),
        (0b111#3, .bgeu)].lookup (funct3Of w))

/-- The spec's decisions D2 and D3 (30_encoding.md R67, R69 and the opcode part of R68): under SYSTEM two whole words are
legal; every opcode but the ten of R59 is illegal whatever the other bits, so the all-zero and the all-ones word are. -/
def Obligations.SystemAndForeignWordsAreIllegal : Prop :=
  (∀ w : Word, opcodeOf w = 0b1110011#7 → w ≠ 0x00000073#32 → w ≠ 0x00100073#32 → ∃ e, decode w = .error e) ∧
  decode 0x00000073#32 = .ok .ecall ∧ decode 0x00100073#32 = .ok .ebreak ∧
  (∀ w : Word, opcodeOf w ∉ [0b0110111#7, 0b0010111#7, 0b1101111#7, 0b1100111#7, 0b1100011#7, 0b0000011#7,
      0b0100011#7, 0b0010011#7, 0b0110011#7, 0b1110011#7] → ∃ e, decode w = .error e) ∧
  (∃ e, decode 0x00000000#32 = .error e) ∧ (∃ e, decode 0xFFFFFFFF#32 = .error e)

/-! ## Registers, memory and reset -/

/-- R11: x0 reads as 0 in every state and a write of it changes nothing; any other register reads as what was last
written to it, and a write of one register leaves every other as it was; right after construction every one reads 0. -/
def Obligations.RegisterFileReadsWhatWasWritten : Prop :=
  ∀ (s : State) (r q : Reg) (v : Word),
    s.reg 0 = 0 ∧ s.setReg 0 v = s ∧ (r ≠ 0 → (s.setReg r v).reg r = v) ∧
    (q ≠ r → (s.setReg r v).reg q = s.reg q) ∧ ∀ p : Params, (State.construct p).reg r = 0

/-- After construction with any parameters, and so at `State.reset`, every piece of state has the value the table of
10_state.md section 8 gives it (the last six rows of the table rest on the spec's decision D13), and every register and
every byte reads as 0. -/
def Obligations.ResetLeavesTheStatedValues : Prop :=
  State.reset = State.construct { memSize := 2 ^ 20, asmUAcceptUnsigned := false } ∧
  ∀ (p : Params) (r : Reg) (a : Nat),
    (State.construct p).reg r = 0 ∧ (State.construct p).pc = 0 ∧ (State.construct p).mem.read a = 0 ∧
    (State.construct p).halted = false ∧ (State.construct p).haltReason = none ∧ (State.construct p).dstate = .idle ∧
    (State.construct p).error = none ∧ (State.construct p).progEnd = 0 ∧
    (State.construct p).instructionsExecuted = 0 ∧ (State.construct p).trace = [] ∧ (State.construct p).params = p

/-- The `reset` command in any state leaves the state of construction with the same parameters (the spec's decision D13),
and after it `step` and `run` are refused and change nothing (its decision D12). -/
def Obligations.ResetCommandReturnsToIdle : Prop :=
  ∀ (s : State) (max : Nat),
    (command .reset s).1 = State.construct s.params ∧
    command .step (command .reset s).1 = ((command .reset s).1, .refused .noProgramLoaded) ∧
    command (.run max) (command .reset s).1 = ((command .reset s).1, .refused .noProgramLoaded)

/-- What `MemRead` (20_memory.md section 5) answers for 1, 2 and 4 bytes: alignment first (the spec's decision D5), then
bounds without wrap (its decision D6), then the word whose bits 8k+7 .. 8k are byte k of the access and whose bits above
the access are 0. -/
def Obligations.MemReadIsAlignedBoundedLittleEndian : Prop :=
  ∀ (s : State) (addr : Word) (n : Width),
    (addr.toNat % n.bytes ≠ 0 → s.memRead addr n = .error .memoryAlignment) ∧
    (addr.toNat % n.bytes = 0 → s.params.memSize < addr.toNat + n.bytes → s.memRead addr n = .error .memoryBounds) ∧
    (addr.toNat % n.bytes = 0 → addr.toNat + n.bytes ≤ s.params.memSize →
      ∃ v, s.memRead addr n = .ok v ∧
        (∀ k, k < n.bytes → v.extractLsb' (8 * k) 8 = s.mem.read (addr.toNat + k)) ∧
        (∀ j, 8 * n.bytes ≤ j → v.getLsbD j = false))

/-- What `MemWrite` (20_memory.md section 5) answers for 1, 2 and 4 bytes: the tests of `MemRead` (the spec's decisions
D5 and D6), and then a memory in canonical form in which byte k of the access is bits 8k+7 .. 8k of the value and every
other byte is as before. -/
def Obligations.MemWriteSetsExactlyItsBytes : Prop :=
  ∀ (s : State) (addr : Word) (n : Width) (v : Word), s.mem.wf →
    (addr.toNat % n.bytes ≠ 0 → s.memWrite addr n v = .error .memoryAlignment) ∧
    (addr.toNat % n.bytes = 0 → s.params.memSize < addr.toNat + n.bytes → s.memWrite addr n v = .error .memoryBounds) ∧
    (addr.toNat % n.bytes = 0 → addr.toNat + n.bytes ≤ s.params.memSize →
      ∃ m : Memory, s.memWrite addr n v = .ok m ∧ m.wf ∧
        (∀ k, k < n.bytes → m.read (addr.toNat + k) = v.extractLsb' (8 * k) 8) ∧
        (∀ a, a < addr.toNat ∨ addr.toNat + n.bytes ≤ a → m.read a = s.mem.read a))

/-- What the spec derives in 20_memory.md R49: after a word store of v at a, a byte read at a + k gives v[8k+7:8k] and a
halfword read at a + 2 gives v[31:16]; after four byte stores a word read gives their concatenation, highest address in
the high bits. -/
def Obligations.MixedWidthAccessesAgree : Prop :=
  ∀ (s : State) (a v : Word) (m : Memory), s.mem.wf → s.memWrite a .word v = .ok m →
    (∀ k : Nat, k < 4 →
      State.memRead { s with mem := m } (a + BitVec.ofNat 32 k) .byte = .ok ((v.extractLsb' (8 * k) 8).setWidth 32)) ∧
    State.memRead { s with mem := m } (a + 2) .half = .ok ((v.extractLsb' 16 16).setWidth 32) ∧
    ∀ (b0 b1 b2 b3 : Byte),
      State.memRead
        { s with mem := (((s.mem.write a.toNat b0).write (a.toNat + 1) b1).write (a.toNat + 2) b2).write (a.toNat + 3) b3 }
        a .word = .ok (b3 ++ b2 ++ b1 ++ b0)

/-- The model's canonical form of memory: two memories in it that read alike at every address are the same data. -/
def Obligations.CanonicalMemoriesThatReadAlikeAreEqual : Prop :=
  ∀ m m' : Memory, m.wf → m'.wf → (∀ a, m.read a = m'.read a) → m = m'

/-- The spec's decision D21 (20_memory.md section 8): `read_memory` gives the bytes and changes nothing; `write_memory` sets
exactly its bytes and nothing else; either, out of bounds, reports MemoryBounds and changes nothing. -/
def Obligations.HostMemoryAccessIsAllOrNothing : Prop :=
  ∀ (s : State) (addr len : Nat) (bytes : List Byte), s.mem.wf →
    (s.params.memSize < addr + len → command (.readMemory addr len) s = (s, .memoryBounds)) ∧
    (addr + len ≤ s.params.memSize → ∃ bs : List Byte, command (.readMemory addr len) s = (s, .bytes bs) ∧
      bs.length = len ∧ ∀ k (h : k < bs.length), bs[k] = s.mem.read (addr + k)) ∧
    (s.params.memSize < addr + bytes.length → command (.writeMemory addr bytes) s = (s, .memoryBounds)) ∧
    (addr + bytes.length ≤ s.params.memSize → ∃ m : Memory,
      command (.writeMemory addr bytes) s = ({ s with mem := m }, .done) ∧ m.wf ∧
      (∀ k (h : k < bytes.length), m.read (addr + k) = bytes[k]) ∧
      (∀ a, a < addr ∨ addr + bytes.length ≤ a → m.read a = s.mem.read a))

/-! ## Instructions -/

/-- R121, R122: ADD and SUB, modulo 2^32. -/
def Obligations.AddAndSubWrapModulo : Prop :=
  RegRegRule .add 0b0000000#7 0b000#3 (fun a b v => v.toNat = (a.toNat + b.toNat) % 2 ^ 32) ∧
  RegRegRule .sub 0b0100000#7 0b000#3 (fun a b v => (v.toNat : Int) = ((a.toNat : Int) - (b.toNat : Int)) % 2 ^ 32)

/-- R123, R124, R125: AND, OR and XOR, bit by bit. -/
def Obligations.BitwiseRegisterOperations : Prop :=
  RegRegRule .and 0b0000000#7 0b111#3 (fun a b v => ∀ k, v.getLsbD k = (a.getLsbD k && b.getLsbD k)) ∧
  RegRegRule .or 0b0000000#7 0b110#3 (fun a b v => ∀ k, v.getLsbD k = (a.getLsbD k || b.getLsbD k)) ∧
  RegRegRule .xor 0b0000000#7 0b100#3 (fun a b v => ∀ k, v.getLsbD k = (a.getLsbD k != b.getLsbD k))

/-- R126, R127, R128: SLL, SRL and SRA by the low five bits of x[rs2]; SRA rounds toward minus infinity. -/
def Obligations.RegisterShiftsUseFiveBits : Prop :=
  RegRegRule .sll 0b0000000#7 0b001#3 (fun a b v => v.toNat = a.toNat * 2 ^ (b.toNat % 32) % 2 ^ 32) ∧
  RegRegRule .srl 0b0000000#7 0b101#3 (fun a b v => v.toNat = a.toNat / 2 ^ (b.toNat % 32)) ∧
  RegRegRule .sra 0b0100000#7 0b101#3 (fun a b v => v.toInt = a.toInt / 2 ^ (b.toNat % 32))

/-- R129, R130: SLT and SLTU write 1 or 0. -/
def Obligations.RegisterComparisonsWriteOneOrZero : Prop :=
  RegRegRule .slt 0b0000000#7 0b010#3 (fun a b v => v.toNat = if a.toInt < b.toInt then 1 else 0) ∧
  RegRegRule .sltu 0b0000000#7 0b011#3 (fun a b v => v.toNat = if a.toNat < b.toNat then 1 else 0)

/-- R141 to R144: ADDI, ANDI, ORI and XORI with the sign-extended immediate. -/
def Obligations.ImmediateArithmeticAndLogic : Prop :=
  RegImmRule .addi 0b000#3 (fun a b v => v.toNat = (a.toNat + b.toNat) % 2 ^ 32) ∧
  RegImmRule .andi 0b111#3 (fun a b v => ∀ k, v.getLsbD k = (a.getLsbD k && b.getLsbD k)) ∧
  RegImmRule .ori 0b110#3 (fun a b v => ∀ k, v.getLsbD k = (a.getLsbD k || b.getLsbD k)) ∧
  RegImmRule .xori 0b100#3 (fun a b v => ∀ k, v.getLsbD k = (a.getLsbD k != b.getLsbD k))

/-- R145, R146: SLTI signed, SLTIU unsigned, both against the sign-extended immediate. -/
def Obligations.ImmediateComparisons : Prop :=
  RegImmRule .slti 0b010#3 (fun a b v => v.toNat = if a.toInt < b.toInt then 1 else 0) ∧
  RegImmRule .sltiu 0b011#3 (fun a b v => v.toNat = if a.toNat < b.toNat then 1 else 0)

/-- R147, R148, R149: SLLI, SRLI and SRAI. -/
def Obligations.ImmediateShifts : Prop :=
  ShiftImmRule .slli 0b0000000#7 0b001#3 (fun a k v => v.toNat = a.toNat * 2 ^ k % 2 ^ 32) ∧
  ShiftImmRule .srli 0b0000000#7 0b101#3 (fun a k v => v.toNat = a.toNat / 2 ^ k) ∧
  ShiftImmRule .srai 0b0100000#7 0b101#3 (fun a k v => v.toInt = a.toInt / 2 ^ k)

/-- R161, R164: LB sign-extends the byte, LBU zero-extends it. -/
def Obligations.ByteLoadsExtend : Prop :=
  LoadRule .lb 0b000#3 1 (fun m a v => v.toInt = (m.read a).toInt) ∧
  LoadRule .lbu 0b100#3 1 (fun m a v => v.toNat = (m.read a).toNat)

/-- R162, R165, R163: LH sign-extends the halfword, LHU zero-extends it, LW loads the word. -/
def Obligations.HalfAndWordLoadsExtend : Prop :=
  LoadRule .lh 0b001#3 2 (fun m a v => v.toInt = (m.read (a + 1) ++ m.read a).toInt) ∧
  LoadRule .lhu 0b101#3 2 (fun m a v => v.toNat = (m.read a).toNat + 256 * (m.read (a + 1)).toNat) ∧
  LoadRule .lw 0b010#3 4 (fun m a v => v.toNat = (m.read a).toNat + 256 * (m.read (a + 1)).toNat
    + 65536 * (m.read (a + 2)).toNat + 16777216 * (m.read (a + 3)).toNat)

/-- R171, R172, R173: SB, SH and SW. -/
def Obligations.StoresWriteTheLowBytes : Prop :=
  StoreRule .sb 0b000#3 1 ∧ StoreRule .sh 0b001#3 2 ∧ StoreRule .sw 0b010#3 4

/-- R181 to R186: the six branches. -/
def Obligations.BranchesGoByTheirCondition : Prop :=
  BranchRule .beq 0b000#3 (fun a b => ∀ k, a.getLsbD k = b.getLsbD k) ∧
  BranchRule .bne 0b001#3 (fun a b => ∃ k, a.getLsbD k ≠ b.getLsbD k) ∧
  BranchRule .blt 0b100#3 (fun a b => a.toInt < b.toInt) ∧
  BranchRule .bge 0b101#3 (fun a b => b.toInt ≤ a.toInt) ∧
  BranchRule .bltu 0b110#3 (fun a b => a.toNat < b.toNat) ∧
  BranchRule .bgeu 0b111#3 (fun a b => b.toNat ≤ a.toNat)

/-- JAL and JALR (46_jumps.md sections 1 and 2), with their encodings (notes/assumptions/1.md): the target (for JALR with
bit 0 cleared), the link `pc + 4` in whatever rd is named, and nothing else. That JALR with rd = rs1 goes by the old value
of the register is the spec's decision D8 (notes/assumptions/9.md). -/
def Obligations.JumpsLinkAndGo : Prop :=
  (∀ (rd : Reg) (m : BitVec 20),
    decode (wordJ (m ++ 0#1) rd 0b1101111#7) = .ok (.jal rd ((m ++ 0#1 : BitVec 21).signExtend 32))) ∧
  (∀ (rd rs1 : Reg) (m : BitVec 12),
    decode (wordI m rs1 0b000#3 rd 0b1100111#7) = .ok (.jalr rd rs1 (m.signExtend 32))) ∧
  (∀ (rd : Reg) (imm : Word) (s : State), ∃ t, exec (.jal rd imm) s = .next t ∧
    WritesReg (.jal rd imm) s t rd (s.pc + 4) (s.pc + imm)) ∧
  (∀ (rd rs1 : Reg) (imm : Word) (s : State), ∃ t target, exec (.jalr rd rs1 imm) s = .next t ∧
    target.toNat = (s.reg rs1 + imm).toNat - (s.reg rs1 + imm).toNat % 2 ∧
    WritesReg (.jalr rd rs1 imm) s t rd (s.pc + 4) target)

/-- R200, R201: LUI and AUIPC: the encodings, in which every 20-bit field is legal, and the results. -/
def Obligations.UpperImmediatesWriteRd : Prop :=
  (∀ (rd : Reg) (m : BitVec 20), decode (wordU m rd 0b0110111#7) = .ok (.lui rd (m ++ 0#12))) ∧
  (∀ (rd : Reg) (m : BitVec 20), decode (wordU m rd 0b0010111#7) = .ok (.auipc rd (m ++ 0#12))) ∧
  (∀ (rd : Reg) (imm : Word) (s : State), ∃ t, exec (.lui rd imm) s = .next t ∧
    WritesReg (.lui rd imm) s t rd imm (s.pc + 4)) ∧
  (∀ (rd : Reg) (imm : Word) (s : State), ∃ t, exec (.auipc rd imm) s = .next t ∧
    WritesReg (.auipc rd imm) s t rd (BitVec.ofNat 32 (s.pc.toNat + imm.toNat)) (s.pc + 4))

/-- R205, R206, R207: ECALL and EBREAK: one word each, one mnemonic each, and a clean halt with the pc advanced. -/
def Obligations.EcallAndEbreakHaltCleanly : Prop :=
  decode 0x00000073#32 = .ok .ecall ∧ decode 0x00100073#32 = .ok .ebreak ∧
  (∀ u, assemble u "ecall" = .ok [0x00000073#32] ∧ assemble u "ebreak" = .ok [0x00100073#32]) ∧
  ∀ s : State,
    (∃ t, exec .ecall s = .next t ∧ HaltsCleanly .ecall s t .environmentCall) ∧
    (∃ t, exec .ebreak s = .next t ∧ HaltsCleanly .ebreak s t .breakpoint)

/-! ## Rules about every instruction -/

/-- 10_state.md section 3 (the wrap of `pc + 4` is the spec's derivation): an instruction that completes sets the pc to
`pc + 4`, unless it is a branch, a JAL or a JALR; one that faults leaves the pc as it was. -/
def Obligations.OnlyControlTransfersLeaveTheNextAddress : Prop :=
  ∀ (i : Instr) (s : State), ∃ t, exec i s = .next t ∧
    ((t.instructionsExecuted = s.instructionsExecuted + 1 ∧ (i.op ∉ controlOps → t.pc = s.pc + 4)) ∨
     (t.instructionsExecuted = s.instructionsExecuted ∧ t.pc = s.pc ∧ t.dstate = .error))

/-- No instruction touches what is not its own: in every state, after any instruction, the parameters and `prog_end`
are as before, every register but rd is, memory is unless it is a store and then outside the bytes of its width at its
effective address, the halted flag and its reason are unless it is ECALL or EBREAK, the driver state is unless it is one
of these or faulted, and the error record is unless it faulted. -/
def Obligations.InstructionsChangeOnlyTheirOwnState : Prop :=
  ∀ (i : Instr) (s t : State), exec i s = .next t →
    t.params = s.params ∧ t.progEnd = s.progEnd ∧ (∀ r, rdField i ≠ some r → t.reg r = s.reg r) ∧
    (i.op ∉ storeOps → MemKept s t) ∧
    (∀ rs1 rs2 imm, i = .sb rs1 rs2 imm → MemKeptOutside s t (s.effAddr rs1 imm).toNat Width.byte.bytes) ∧
    (∀ rs1 rs2 imm, i = .sh rs1 rs2 imm → MemKeptOutside s t (s.effAddr rs1 imm).toNat Width.half.bytes) ∧
    (∀ rs1 rs2 imm, i = .sw rs1 rs2 imm → MemKeptOutside s t (s.effAddr rs1 imm).toNat Width.word.bytes) ∧
    (t.dstate = s.dstate ∨ ((i = .ecall ∨ i = .ebreak) ∧ t.dstate = .halted) ∨
      (t.dstate = .error ∧ t.instructionsExecuted = s.instructionsExecuted)) ∧
    (i ≠ .ecall → i ≠ .ebreak → t.halted = s.halted ∧ t.haltReason = s.haltReason) ∧
    (t.error ≠ s.error → t.dstate = .error ∧ t.instructionsExecuted = s.instructionsExecuted)

/-- R12: an instruction whose rd is 0 is executed in full: it reaches the same pc, memory, counter, driver state and
error kind as with any other rd, and every register keeps its value. -/
def Obligations.ZeroDestinationOnlyDropsTheWrite : Prop :=
  ∀ (op : Op) (rd rs1 rs2 : Reg) (imm : Word) (s t : State), (rdField (op.instr rd rs1 rs2 imm)).isSome →
    exec (op.instr rd rs1 rs2 imm) s = .next t →
    ∃ u, exec (op.instr 0 rs1 rs2 imm) s = .next u ∧ RegsKept s u ∧ u.pc = t.pc ∧ u.mem = t.mem ∧
      u.instructionsExecuted = t.instructionsExecuted ∧ u.dstate = t.dstate ∧
      u.error.map ErrorRecord.kind = t.error.map ErrorRecord.kind

/-! ## The instruction cycle -/

/-- When the bytes at the pc of an admitted machine decode to an instruction, the step is that instruction's execution
on the machine made Running: the counter, the trace and the pc are part of the execution. -/
def Obligations.StepRunsTheDecodedInstruction : Prop :=
  ∀ (s : State) (w : Word) (i : Instr), s.Admitted → s.FetchesWord w → decode w = .ok i →
    step s = exec i s.asRunning

/-- 40_instruction_cycle.md R101: in Idle and Error `step` and `run` are refused and nothing changes (the spec's decision
D12); in Loaded, Running and Halted they go on from the same machine made Running, with the halted flag and its reason
cleared (its decision D11). -/
def Obligations.AdmissionFollowsTheDriverState : Prop :=
  ∀ (s : State) (max : Nat),
    (s.dstate = .idle → step s = .refused .noProgramLoaded ∧ runCommand max s = .refused .noProgramLoaded ∧
      (command .step s).1 = s ∧ (command (.run max) s).1 = s) ∧
    (s.dstate = .error → step s = .refused .machineInError ∧ runCommand max s = .refused .machineInError ∧
      (command .step s).1 = s ∧ (command (.run max) s).1 = s) ∧
    (s.Admitted → step s = stepOnce s.asRunning ∧ runCommand max s = runLoop max s.asRunning)

/-- The spec's decision D9 (40_instruction_cycle.md R102): when the pc is at or past `prog_end`, aligned or not, the step
halts with PcPastProgram and changes nothing else. -/
def Obligations.PastTheProgramTheStepHalts : Prop :=
  ∀ s : State, s.Admitted → s.progEnd ≤ s.pc.toNat →
    ∃ t, step s = .next t ∧ t.halted = true ∧ t.haltReason = some .pcPastProgram ∧ t.dstate = .halted ∧
      t.pc = s.pc ∧ RegsKept s t ∧ t.mem = s.mem ∧ t.error = s.error ∧ t.progEnd = s.progEnd ∧
      t.params = s.params ∧ t.instructionsExecuted = s.instructionsExecuted ∧ t.trace = s.trace

/-- 40_instruction_cycle.md R103: in a state that meets the invariant, a pc inside the program is fetched from when it is a
multiple of 4, and otherwise the step takes MemoryAlignment with no word (the spec's decisions D7 and D22): a fetch is
never out of bounds, as the spec derives. -/
def Obligations.FetchIsAlignedAndNeverOutOfBounds : Prop :=
  ∀ s : State, s.Inv → s.Admitted → s.pc.toNat < s.progEnd →
    (s.pc.toNat % 4 = 0 → ∃ w, s.FetchesWord w) ∧
    (s.pc.toNat % 4 ≠ 0 → ∃ t, step s = .next t ∧ TakesError s.asRunning t .memoryAlignment none)

/-- 40_instruction_cycle.md R104 with the error entry of 60_exceptions.md R226 (the spec's decision D20): a fetched word
that the decoder rejects makes the step take IllegalInstruction with the word, and change nothing else. -/
def Obligations.IllegalWordsTakeIllegalInstruction : Prop :=
  ∀ (s : State) (w : Word) (e : DecodeError), s.Admitted → s.FetchesWord w → decode w = .error e →
    ∃ t, step s = .next t ∧ TakesError s.asRunning t .illegalInstruction (some w)

/-- 60_exceptions.md section 3 (the spec's decisions D20 and D22): a step that ends in Error has changed nothing but the
error record and the driver state (of the machine made Running), and the record holds the pc, and the fetched word or
none where the fetch itself faulted. -/
def Obligations.FaultsArePreciseAndRecorded : Prop :=
  ∀ s t : State, s.Inv → step s = .next t → t.dstate = .error →
    ∃ k w, TakesError s.asRunning t k w ∧ t.error = some { kind := k, pc := t.pc, word := w } ∧
      (w = none → k = .memoryAlignment ∧ s.pc.toNat % 4 ≠ 0) ∧ (∀ x, w = some x → s.FetchesWord x)

/-- 10_state.md section 6 (the spec's decisions D15 and D16): a step that completes an instruction counts it and appends
one trace entry with the pc before, the word fetched, its mnemonic and the register writes, which list every register
changed, with old and new value, and never x0; a step that faults or halts past the program does neither. -/
def Obligations.StepsCountAndTraceWhatTheyExecute : Prop :=
  ∀ s t : State, s.Inv → step s = .next t →
    (∃ w i ws, s.FetchesWord w ∧ decode w = .ok i ∧ t.dstate ≠ .error ∧
      t.instructionsExecuted = s.instructionsExecuted + 1 ∧
      t.trace = s.trace ++ [{ pc := s.pc, word := w, mnemonic := i.op.mnemonic, writes := ws }] ∧
      ws.map RegWrite.index = (rdField i).toList.filter (fun r => r ≠ 0) ∧
      (∀ x ∈ ws, x.old = s.reg x.index ∧ x.new = t.reg x.index)) ∨
    (t.instructionsExecuted = s.instructionsExecuted ∧ t.trace = s.trace ∧
      (t.dstate = .error ∨ s.progEnd ≤ s.pc.toNat))

/-- The spec's decision D7 (45_branches.md R187, 46_jumps.md R193): no branch and no jump checks its target: it completes,
and it is the next step that halts, when the target is past the program, or takes MemoryAlignment with the target as the
error's pc and no word. -/
def Obligations.BadTargetsStopTheNextStep : Prop :=
  ∀ (i : Instr) (s : State), i.op ∈ controlOps →
    ∃ t, exec i s = .next t ∧ t.instructionsExecuted = s.instructionsExecuted + 1 ∧ t.error = s.error ∧
      t.dstate = s.dstate ∧ t.progEnd = s.progEnd ∧
      (s.Admitted → t.progEnd ≤ t.pc.toNat → ∃ u, step t = .next u ∧ u.dstate = .halted ∧
        u.haltReason = some .pcPastProgram ∧ u.pc = t.pc) ∧
      (s.Admitted → t.pc.toNat < t.progEnd → t.pc.toNat % 4 ≠ 0 → ∃ u, step t = .next u ∧
        TakesError t.asRunning u .memoryAlignment none)

/-- 20_memory.md section 7 (fetch is coherent with stores at once): the word that a SW puts at the address of the very next
instruction is the instruction the next step runs. -/
def Obligations.StoredInstructionRunsNext : Prop :=
  ∀ (s t : State) (rs1 rs2 : Reg) (imm : Word) (j : Instr), s.mem.wf → s.Admitted → j.WellFormed →
    s.reg rs2 = encode j → s.reg rs1 + imm = s.pc + 4 → exec (.sw rs1 rs2 imm) s = .next t →
    t.dstate ≠ .error → t.pc.toNat < t.progEnd →
    step t = exec j t.asRunning

/-- The spec's decision D11 (60_exceptions.md R232): a Halted machine resumes: after ECALL or EBREAK with the next
instruction, after PcPastProgram by halting again at once in the same state, after BudgetExhausted with the instruction
the run stopped before. -/
def Obligations.HaltedMachinesResume : Prop :=
  ∀ s : State, s.Inv → s.dstate = .halted →
    (s.haltReason = some .pcPastProgram → s.progEnd ≤ s.pc.toNat → step s = .next s) ∧
    (∀ w i, s.FetchesWord w → decode w = .ok i → step s = exec i s.asRunning) ∧
    (∀ k, runCommand k s = runCommand k { s with dstate := .loaded, halted := false, haltReason := none }) ∧
    (∀ (q u : State), (exec .ecall q = .next u ∨ exec .ebreak q = .next u) → u.pc = q.pc + 4 ∧ u.dstate = .halted)

/-- 60_exceptions.md section 4, with the spec's decisions D12, D14 and D21: in Error `step` and `run` are refused,
`snapshot` and `read_memory` still answer without changing anything, `write_memory` does not leave Error, and `reset` and
a `load` that succeeds are the ways out. -/
def Obligations.ErrorIsLeftOnlyByResetOrLoad : Prop :=
  ∀ (s : State) (c : Command), s.dstate = .error →
    (command .step s = (s, .refused .machineInError)) ∧ (∀ k, command (.run k) s = (s, .refused .machineInError)) ∧
    (command .snapshot s = (s, .view s.snapshot)) ∧ (command .reset s).1.dstate = .idle ∧
    (∀ a n, (command (.readMemory a n) s).1 = s) ∧
    ((command c s).1.dstate ≠ .error → c = .reset ∨ ∃ text, c = .load text ∧ (command c s).1.dstate = .loaded)

/-! ## Run -/

/-- The spec's decision D10 (40_instruction_cycle.md R110): `run` iterates `step`: past the program it is a step, that halts;
with no instruction allowed and the pc inside the program it halts with BudgetExhausted and changes nothing else; with
k + 1 allowed it is a step and then, if the machine is still Running, a run with k. -/
def Obligations.RunIteratesStep : Prop :=
  ∀ s : State, s.Admitted →
    (∀ k, s.progEnd ≤ s.pc.toNat → runCommand k s = step s) ∧
    (s.pc.toNat < s.progEnd → runCommand 0 s =
      .next { s with dstate := .halted, halted := true, haltReason := some .budgetExhausted }) ∧
    (∀ k, s.pc.toNat < s.progEnd → ∃ t, step s = .next t ∧
      runCommand (k + 1) s = if t.dstate = .running then runCommand k t else .next t)

/-- 40_instruction_cycle.md sections 3 and 4: every admitted `run` ends, Halted or in Error, having executed at most `max`
instructions; it is BudgetExhausted only when it executed exactly `max` of them and an instruction remained to run (the
spec's decision D10). -/
def Obligations.EveryRunEndsWithinItsBudget : Prop :=
  ∀ (max : Nat) (s : State), s.Admitted → s.error = none →
    ∃ t, runCommand max s = .next t ∧ (t.EndedCleanly ∨ t.EndedInError) ∧
      s.instructionsExecuted ≤ t.instructionsExecuted ∧
      t.instructionsExecuted ≤ s.instructionsExecuted + max ∧
      (t.haltReason = some .budgetExhausted →
        t.instructionsExecuted = s.instructionsExecuted + max ∧ t.pc.toNat < t.progEnd) ∧
      (t.EndedCleanly → t.error = none ∧ t.haltReason ≠ none)

/-! ## Load, assembler and host -/

/-- 70_reset_and_hazards.md section 2 (the spec's decision D14): `load`: an AssembleError or a program that does not fit
changes nothing; otherwise the machine is the reset one with word i of the program at bytes 4i .. 4i+3, little-endian,
every other byte 0, `prog_end` behind the program and the driver Loaded. -/
def Obligations.LoadResetsAndPlacesTheProgram : Prop :=
  ∀ (s : State) (text : String),
    (∀ e, assemble s.params.asmUAcceptUnsigned text = .error e → command (.load text) s = (s, .assembleError e)) ∧
    (∀ ws, assemble s.params.asmUAcceptUnsigned text = .ok ws →
      (s.params.memSize < 4 * ws.length → command (.load text) s = (s, .memoryBounds)) ∧
      (4 * ws.length ≤ s.params.memSize → ∃ t : State, command (.load text) s = (t, .done) ∧
        t.params = s.params ∧ (∀ r, t.reg r = 0) ∧ t.pc = 0 ∧ t.halted = false ∧ t.haltReason = none ∧
        t.error = none ∧ t.instructionsExecuted = 0 ∧ t.trace = [] ∧ t.dstate = .loaded ∧
        t.progEnd = 4 * ws.length ∧ t.mem.wf ∧
        (∀ i (h : i < ws.length) k, k < 4 → t.mem.read (4 * i + k) = ws[i].extractLsb' (8 * k) 8) ∧
        (∀ a, 4 * ws.length ≤ a → t.mem.read a = 0)))

/-- R81: where pass 1 succeeds, its instructions have the addresses 0, 4, 8, … in order, and a label declared on line k
is bound to the address of the next instruction, 4 times the number of instructions on the lines before k, which after
the last instruction is one past the program; no label is declared twice, and nothing else is bound. Where every line
fits a statement shape and two lines declare one label, pass 1 reports DuplicateLabel. -/
def Obligations.LabelsAreBoundToInstructionAddresses : Prop :=
  ∀ lines : List Text,
    (∀ (syms : SymTab) (is : List SourceInstr), pass1 lines 1 0 [] = .ok (syms, is) →
      is.length = instrsBefore lines lines.length ∧ (∀ k (h : k < is.length), is[k].addr = 4 * k) ∧
      (∀ k (h : k < lines.length) l, labelOf lines[k] = some l → syms.lookup l = some (4 * instrsBefore lines k)) ∧
      (∀ l a, syms.lookup l = some a → ∃ k, ∃ h : k < lines.length, labelOf lines[k] = some l) ∧
      (∀ j k (hj : j < lines.length) (hk : k < lines.length) l,
        labelOf lines[j] = some l → labelOf lines[k] = some l → j = k)) ∧
    ((∀ t ∈ lines, (parseLine t).isSome) →
      (∃ j k, ∃ (hj : j < lines.length) (hk : k < lines.length), j ≠ k ∧ (labelOf lines[j]).isSome ∧
        labelOf lines[j] = labelOf lines[k]) →
      ∃ line, pass1 lines 1 0 [] = .error { kind := .duplicateLabel, line := line })

/-- 30_encoding.md R86 (the shift and U ranges are the spec's decisions D25 and D26): when the operands parse, an instruction
is refused with ImmediateOutOfRange exactly when the operand value is outside the range of its position. -/
def Obligations.RangeChecksAreTheStatedRanges : Prop :=
  ∀ (u : Bool) (syms : SymTab) (si : SourceInstr) (op : Op) (o : OperandValues),
    opOfMnemonic si.mnemonic = some op → parseOperands (Op.form op) syms si.addr si.operands = .ok o →
    (assembleInstr u syms si = .error .immediateOutOfRange ↔
      (op ∈ [.addi, .slti, .sltiu, .xori, .ori, .andi, .lb, .lh, .lw, .lbu, .lhu, .jalr, .sb, .sh, .sw] ∧
        ¬ (-2048 ≤ o.imm ∧ o.imm ≤ 2047)) ∨
      (op ∈ [.slli, .srli, .srai] ∧ ¬ (0 ≤ o.imm ∧ o.imm ≤ 31)) ∨
      (op ∈ [.beq, .bne, .blt, .bge, .bltu, .bgeu] ∧ ¬ (-4096 ≤ o.imm ∧ o.imm ≤ 4094 ∧ o.imm % 2 = 0)) ∨
      (op = .jal ∧ ¬ (-1048576 ≤ o.imm ∧ o.imm ≤ 1048574 ∧ o.imm % 2 = 0)) ∨
      (op ∈ [.lui, .auipc] ∧ ¬ (-524288 ≤ o.imm ∧ o.imm ≤ 524287) ∧
        ¬ (u = true ∧ 524288 ≤ o.imm ∧ o.imm ≤ 1048575)))

/-- An operand value that passes the range check (the spec's decisions D25 and D26) is encoded without loss: the decoded
record of the word holds the value, sign-extended, or shifted left by twelve for U, or with SRAI's funct7 above it. -/
def Obligations.AcceptedOperandsSurviveEncoding : Prop :=
  ∀ (u : Bool) (op : Op) (rd rs1 rs2 : Reg) (v : Int), immInRange u (Op.form op) v = true →
    decode (encode (op.instr rd rs1 rs2 (immWord op v))) = .ok (op.instr rd rs1 rs2 (immWord op v)) ∧
    (op ∉ [.lui, .auipc, .srai, .add, .sub, .and, .or, .xor, .sll, .srl, .sra, .slt, .sltu, .ecall, .ebreak] →
      (immWord op v).toInt = v) ∧
    (op = .srai → (immWord op v).toNat % 32 = v) ∧
    (op ∈ [.lui, .auipc] → ((immWord op v).toNat : Int) = v * 4096 % 2 ^ 32)

/-- 30_encoding.md R82 (the spec's decisions D29 and D33): the register names: `x` and the index in decimal, the ABI name of
each index, and `fp` for x8; no other text is a register name, and an identifier that is none is unknown, as are these
samples in another letter case, out of range or with a leading zero. -/
def Obligations.RegisterNamesAreTheStatedOnes : Prop :=
  let names : List String :=
    ["zero", "ra", "sp", "gp", "tp", "t0", "t1", "t2", "s0", "s1", "a0", "a1", "a2", "a3", "a4", "a5", "a6", "a7", "s2",
      "s3", "s4", "s5", "s6", "s7", "s8", "s9", "s10", "s11", "t3", "t4", "t5", "t6"]
  (∀ r : Reg, parseReg ('x' :: (toString r.val).toList) = some r) ∧
  (names.map (fun n => parseReg n.toList) = (List.finRange 32).map some) ∧
  parseReg "fp".toList = some 8 ∧
  (∀ (t : Text) (r : Reg), parseReg t = some r →
    t = 'x' :: (toString r.val).toList ∨ t = (names.getD r.val "").toList ∨ (t = "fp".toList ∧ r = 8)) ∧
  (∀ t : Text, isIdent t = true → parseReg t = none → regOperand t = .error .unknownRegister) ∧
  (∀ n ∈ ["X1", "SP", "x32", "x01", "y2", "s12", "a8", "t7", "x", "Zero"], regOperand n.toList = .error .unknownRegister)

/-- 30_encoding.md R83 (the spec's decision D29): a literal of decimal, hexadecimal (letters in either case, or mixed) or
binary digits stands for the integer written, of any size; a decimal one takes a sign, plus or minus; a signed hexadecimal
or binary one is no literal; and every literal is one of these. -/
def Obligations.LiteralsDenoteTheWrittenInteger : Prop :=
  (∀ ds : Digits, ds ≠ [] →
    parseLiteral ('0' :: 'x' :: digitsText ds) = some (digitsValue 16 ds) ∧
    ((∀ d ∈ ds, d.1.val < 10) →
      parseLiteral (digitsText ds) = some (digitsValue 10 ds) ∧
      parseLiteral ('+' :: digitsText ds) = some (digitsValue 10 ds) ∧
      parseLiteral ('-' :: digitsText ds) = some (-digitsValue 10 ds)) ∧
    ((∀ d ∈ ds, d.1.val < 2) → parseLiteral ('0' :: 'b' :: digitsText ds) = some (digitsValue 2 ds)) ∧
    parseLiteral ('+' :: '0' :: 'x' :: digitsText ds) = none ∧ parseLiteral ('-' :: '0' :: 'x' :: digitsText ds) = none ∧
    parseLiteral ('+' :: '0' :: 'b' :: digitsText ds) = none ∧ parseLiteral ('-' :: '0' :: 'b' :: digitsText ds) = none) ∧
  (∀ (t : Text) (v : Int), parseLiteral t = some v → ∃ ds : Digits, ds ≠ [] ∧
    ((t = '0' :: 'x' :: digitsText ds ∧ v = digitsValue 16 ds) ∨
     ((∀ d ∈ ds, d.1.val < 10) ∧ (t = digitsText ds ∨ t = '+' :: digitsText ds) ∧ v = digitsValue 10 ds) ∨
     ((∀ d ∈ ds, d.1.val < 10) ∧ t = '-' :: digitsText ds ∧ v = -digitsValue 10 ds) ∨
     ((∀ d ∈ ds, d.1.val < 2) ∧ t = '0' :: 'b' :: digitsText ds ∧ v = digitsValue 2 ds)))

/-- The worked encodings that the spec derives in 30_encoding.md R91, assembled from their texts. -/
def Obligations.WorkedEncodingsAssemble : Prop :=
  assemble false "addi x1, x0, 10\naddi x2, x0, 20\nadd x3, x1, x2\necall" =
    .ok [0x00A00093#32, 0x01400113#32, 0x002081B3#32, 0x00000073#32] ∧
  assemble false "addi x1, x0, -1\nsw x1, 0(x0)\nlb x2, 0(x0)\nlbu x3, 0(x0)" =
    .ok [0xFFF00093#32, 0x00102023#32, 0x00000103#32, 0x00004183#32] ∧
  assemble false "jal x1, target\necall\necall\ntarget: lw x1, 1(x0)" =
    .ok [0x00C000EF#32, 0x00000073#32, 0x00000073#32, 0x00102083#32]

/-- The spec's decision D30 (30_encoding.md R90): there are no pseudo-instructions and no directives: each line is refused,
with UnknownMnemonic or, where it starts with a dot, SyntaxError. -/
def Obligations.PseudoInstructionsAndDirectivesAreRefused : Prop :=
  (∀ text ∈ ["nop", "li x1, 5", "mv x1, x2", "j 8", "ret", "call f", "la x1, f", "not x1, x2", "neg x1, x2",
      "beqz x1, 8", "bnez x1, 8"],
    ∀ u, assemble u text = .error { kind := .unknownMnemonic, line := 1 }) ∧
  (∀ text ∈ [".word 5", ".data", ".text", ".globl f"],
    ∀ u, assemble u text = .error { kind := .syntaxError, line := 1 })

/-! ## Whole-machine statements -/

/-- The invariant holds right after construction with legal parameters, so at reset. (The model's statement: it gathers what
10_state.md sections 3 to 6 say of the state.) -/
def Obligations.ConstructionMeetsTheInvariant : Prop := ∀ p : Params, p.Legal → (State.construct p).Inv

/-- From every state that meets the invariant, a step gives a state that meets it, in driver state Running, Halted or
Error. -/
def Obligations.StepKeepsTheInvariant : Prop :=
  ∀ s t : State, s.Inv → step s = .next t →
    t.Inv ∧ (t.dstate = .running ∨ t.dstate = .halted ∨ t.dstate = .error)

/-- Every host command, in every state that meets the invariant, leaves a state that meets it; so every state a host can
reach by any sequence of its commands, from construction with legal parameters, meets it. -/
def Obligations.ReachableStatesMeetTheInvariant : Prop :=
  (∀ (c : Command) (s : State), s.Inv → (command c s).1.Inv) ∧ ∀ s : State, s.Reachable → s.Inv

/-- The spec's decisions D15 and D16 (10_state.md section 6): nothing reads the trace or the counter: two states that differ
only in them step to outcomes that differ only in them, and so do their runs. -/
def Obligations.HistoryIsObservationalOnly : Prop :=
  ∀ (s s' : State) (max : Nat), s.forgetHistory = s'.forgetHistory →
    forgetHistoryOf (step s) = forgetHistoryOf (step s') ∧
    forgetHistoryOf (runCommand max s) = forgetHistoryOf (runCommand max s')

/-- The model's own `withFetchWord` (notes/assumptions/7.md) does what the host asks of it: on a machine with legal
parameters and memory in canonical form, the very next step runs exactly the instruction whose encoding was placed. -/
def Obligations.PlacedWordRunsNext : Prop :=
  ∀ (s : State) (i : Instr), s.params.Legal → s.mem.wf → i.WellFormed →
    step (s.withFetchWord 32 (encode i).toNat) = exec i (s.withFetchWord 32 (encode i).toNat).asRunning
end

