-- ==== Sys2Proof/Laws/State.lean ====
section
/-! SUPPORT. One lemma per field per update of the state, so that no later proof unfolds a record update. -/

namespace Sys2Proof.Machine

/-! ## Construction -/

@[simp] theorem State.construct_params (p : Params) : (State.construct p).params = p := rfl
@[simp] theorem State.construct_regs (p : Params) : (State.construct p).regs = Vector.replicate 31 0 := rfl
@[simp] theorem State.construct_pc (p : Params) : (State.construct p).pc = 0 := rfl
@[simp] theorem State.construct_mem (p : Params) : (State.construct p).mem = [] := rfl
@[simp] theorem State.construct_halted (p : Params) : (State.construct p).halted = false := rfl
@[simp] theorem State.construct_haltReason (p : Params) : (State.construct p).haltReason = none := rfl
@[simp] theorem State.construct_dstate (p : Params) : (State.construct p).dstate = .idle := rfl
@[simp] theorem State.construct_error (p : Params) : (State.construct p).error = none := rfl
@[simp] theorem State.construct_progEnd (p : Params) : (State.construct p).progEnd = 0 := rfl
@[simp] theorem State.construct_instructionsExecuted (p : Params) : (State.construct p).instructionsExecuted = 0 := rfl
@[simp] theorem State.construct_trace (p : Params) : (State.construct p).trace = [] := rfl

/-! ## Register write -/

@[simp] theorem State.setReg_params (s : State) (r : Reg) (v : Word) : (s.setReg r v).params = s.params := by unfold State.setReg; split <;> rfl
@[simp] theorem State.setReg_pc (s : State) (r : Reg) (v : Word) : (s.setReg r v).pc = s.pc := by unfold State.setReg; split <;> rfl
@[simp] theorem State.setReg_mem (s : State) (r : Reg) (v : Word) : (s.setReg r v).mem = s.mem := by unfold State.setReg; split <;> rfl
@[simp] theorem State.setReg_halted (s : State) (r : Reg) (v : Word) : (s.setReg r v).halted = s.halted := by unfold State.setReg; split <;> rfl
@[simp] theorem State.setReg_haltReason (s : State) (r : Reg) (v : Word) : (s.setReg r v).haltReason = s.haltReason := by unfold State.setReg; split <;> rfl
@[simp] theorem State.setReg_dstate (s : State) (r : Reg) (v : Word) : (s.setReg r v).dstate = s.dstate := by unfold State.setReg; split <;> rfl
@[simp] theorem State.setReg_error (s : State) (r : Reg) (v : Word) : (s.setReg r v).error = s.error := by unfold State.setReg; split <;> rfl
@[simp] theorem State.setReg_progEnd (s : State) (r : Reg) (v : Word) : (s.setReg r v).progEnd = s.progEnd := by unfold State.setReg; split <;> rfl
@[simp] theorem State.setReg_instructionsExecuted (s : State) (r : Reg) (v : Word) : (s.setReg r v).instructionsExecuted = s.instructionsExecuted := by unfold State.setReg; split <;> rfl
@[simp] theorem State.setReg_trace (s : State) (r : Reg) (v : Word) : (s.setReg r v).trace = s.trace := by unfold State.setReg; split <;> rfl

/-! ## Taking an error -/

@[simp] theorem State.raise_params (s : State) (k : ErrorKind) (w : Option Word) : (s.raise k w).params = s.params := rfl
@[simp] theorem State.raise_regs (s : State) (k : ErrorKind) (w : Option Word) : (s.raise k w).regs = s.regs := rfl
@[simp] theorem State.raise_pc (s : State) (k : ErrorKind) (w : Option Word) : (s.raise k w).pc = s.pc := rfl
@[simp] theorem State.raise_mem (s : State) (k : ErrorKind) (w : Option Word) : (s.raise k w).mem = s.mem := rfl
@[simp] theorem State.raise_halted (s : State) (k : ErrorKind) (w : Option Word) : (s.raise k w).halted = s.halted := rfl
@[simp] theorem State.raise_haltReason (s : State) (k : ErrorKind) (w : Option Word) : (s.raise k w).haltReason = s.haltReason := rfl
@[simp] theorem State.raise_dstate (s : State) (k : ErrorKind) (w : Option Word) : (s.raise k w).dstate = .error := rfl
@[simp] theorem State.raise_error (s : State) (k : ErrorKind) (w : Option Word) : (s.raise k w).error = some { kind := k, pc := s.pc, word := w } := rfl
@[simp] theorem State.raise_progEnd (s : State) (k : ErrorKind) (w : Option Word) : (s.raise k w).progEnd = s.progEnd := rfl
@[simp] theorem State.raise_instructionsExecuted (s : State) (k : ErrorKind) (w : Option Word) : (s.raise k w).instructionsExecuted = s.instructionsExecuted := rfl
@[simp] theorem State.raise_trace (s : State) (k : ErrorKind) (w : Option Word) : (s.raise k w).trace = s.trace := rfl

/-! ## Halting -/

@[simp] theorem State.halt_params (s : State) (r : HaltReason) : (s.halt r).params = s.params := rfl
@[simp] theorem State.halt_regs (s : State) (r : HaltReason) : (s.halt r).regs = s.regs := rfl
@[simp] theorem State.halt_pc (s : State) (r : HaltReason) : (s.halt r).pc = s.pc := rfl
@[simp] theorem State.halt_mem (s : State) (r : HaltReason) : (s.halt r).mem = s.mem := rfl
@[simp] theorem State.halt_halted (s : State) (r : HaltReason) : (s.halt r).halted = true := rfl
@[simp] theorem State.halt_haltReason (s : State) (r : HaltReason) : (s.halt r).haltReason = some r := rfl
@[simp] theorem State.halt_dstate (s : State) (r : HaltReason) : (s.halt r).dstate = .halted := rfl
@[simp] theorem State.halt_error (s : State) (r : HaltReason) : (s.halt r).error = s.error := rfl
@[simp] theorem State.halt_progEnd (s : State) (r : HaltReason) : (s.halt r).progEnd = s.progEnd := rfl
@[simp] theorem State.halt_instructionsExecuted (s : State) (r : HaltReason) : (s.halt r).instructionsExecuted = s.instructionsExecuted := rfl
@[simp] theorem State.halt_trace (s : State) (r : HaltReason) : (s.halt r).trace = s.trace := rfl

/-! ## Becoming Running (R101) -/

/-- Admission changes the driver state, the flag and the reason, and nothing else. -/
theorem State.admit_cases (s : State) :
    (s.dstate = .idle ∧ s.accept = .error .noProgramLoaded) ∨ (s.dstate = .error ∧ s.accept = .error .machineInError) ∨
    (s.dstate ≠ .idle ∧ s.dstate ≠ .error ∧
      s.accept = .ok { s with dstate := .running, halted := false, haltReason := none }) := by
  unfold State.accept
  cases s.dstate <;> simp

/-! ## Write-back and the halt of an effect -/

@[simp] theorem State.writeBack_params (s : State) (w : Option (Reg × Word)) : (s.writeBack w).params = s.params := by cases w <;> simp [State.writeBack]
@[simp] theorem State.writeBack_pc (s : State) (w : Option (Reg × Word)) : (s.writeBack w).pc = s.pc := by cases w <;> simp [State.writeBack]
@[simp] theorem State.writeBack_mem (s : State) (w : Option (Reg × Word)) : (s.writeBack w).mem = s.mem := by cases w <;> simp [State.writeBack]
@[simp] theorem State.writeBack_halted (s : State) (w : Option (Reg × Word)) : (s.writeBack w).halted = s.halted := by cases w <;> simp [State.writeBack]
@[simp] theorem State.writeBack_haltReason (s : State) (w : Option (Reg × Word)) : (s.writeBack w).haltReason = s.haltReason := by cases w <;> simp [State.writeBack]
@[simp] theorem State.writeBack_dstate (s : State) (w : Option (Reg × Word)) : (s.writeBack w).dstate = s.dstate := by cases w <;> simp [State.writeBack]
@[simp] theorem State.writeBack_error (s : State) (w : Option (Reg × Word)) : (s.writeBack w).error = s.error := by cases w <;> simp [State.writeBack]
@[simp] theorem State.writeBack_progEnd (s : State) (w : Option (Reg × Word)) : (s.writeBack w).progEnd = s.progEnd := by cases w <;> simp [State.writeBack]
@[simp] theorem State.writeBack_instructionsExecuted (s : State) (w : Option (Reg × Word)) : (s.writeBack w).instructionsExecuted = s.instructionsExecuted := by cases w <;> simp [State.writeBack]
@[simp] theorem State.writeBack_trace (s : State) (w : Option (Reg × Word)) : (s.writeBack w).trace = s.trace := by cases w <;> simp [State.writeBack]
@[simp] theorem State.haltWith_params (s : State) (h : Option HaltReason) : (s.haltWith h).params = s.params := by cases h <;> rfl
@[simp] theorem State.haltWith_regs (s : State) (h : Option HaltReason) : (s.haltWith h).regs = s.regs := by cases h <;> rfl
@[simp] theorem State.haltWith_pc (s : State) (h : Option HaltReason) : (s.haltWith h).pc = s.pc := by cases h <;> rfl
@[simp] theorem State.haltWith_mem (s : State) (h : Option HaltReason) : (s.haltWith h).mem = s.mem := by cases h <;> rfl
@[simp] theorem State.haltWith_error (s : State) (h : Option HaltReason) : (s.haltWith h).error = s.error := by cases h <;> rfl
@[simp] theorem State.haltWith_progEnd (s : State) (h : Option HaltReason) : (s.haltWith h).progEnd = s.progEnd := by cases h <;> rfl
@[simp] theorem State.haltWith_instructionsExecuted (s : State) (h : Option HaltReason) : (s.haltWith h).instructionsExecuted = s.instructionsExecuted := by cases h <;> rfl
@[simp] theorem State.haltWith_trace (s : State) (h : Option HaltReason) : (s.haltWith h).trace = s.trace := by cases h <;> rfl
@[simp] theorem State.haltWith_none_halted (s : State) : (s.haltWith none).halted = s.halted := rfl
@[simp] theorem State.haltWith_some_halted (s : State) (r : HaltReason) : (s.haltWith (some r)).halted = true := rfl
@[simp] theorem State.haltWith_none_haltReason (s : State) : (s.haltWith none).haltReason = s.haltReason := rfl
@[simp] theorem State.haltWith_some_haltReason (s : State) (r : HaltReason) : (s.haltWith (some r)).haltReason = some r := rfl
@[simp] theorem State.haltWith_none_dstate (s : State) : (s.haltWith none).dstate = s.dstate := rfl
@[simp] theorem State.haltWith_some_dstate (s : State) (r : HaltReason) : (s.haltWith (some r)).dstate = .halted := rfl

/-! ## Completing an instruction -/

@[simp] theorem State.commit_params (s : State) (i : Instr) (e : Effect) : (s.commit i e).params = s.params := by simp [State.commit]
/-- The registers after completing an instruction are those after its write-back. -/
@[simp] theorem State.commit_regs (s : State) (i : Instr) (e : Effect) : (s.commit i e).regs = (s.writeBack e.regWrite).regs := by
  rcases e with ⟨w, st, nx, h⟩
  rcases w with _ | ⟨r, v⟩ <;> cases h <;> simp only [State.commit, State.writeBack, State.haltWith, State.halt, State.setReg] <;>
    (try split) <;> rfl
@[simp] theorem State.commit_pc (s : State) (i : Instr) (e : Effect) : (s.commit i e).pc = e.next := by simp [State.commit]
@[simp] theorem State.commit_mem (s : State) (i : Instr) (e : Effect) : (s.commit i e).mem = e.store.getD s.mem := by simp [State.commit]
@[simp] theorem State.commit_error (s : State) (i : Instr) (e : Effect) : (s.commit i e).error = s.error := by simp [State.commit]
@[simp] theorem State.commit_progEnd (s : State) (i : Instr) (e : Effect) : (s.commit i e).progEnd = s.progEnd := by simp [State.commit]
@[simp] theorem State.commit_instructionsExecuted (s : State) (i : Instr) (e : Effect) : (s.commit i e).instructionsExecuted = s.instructionsExecuted + 1 := by simp [State.commit]
@[simp] theorem State.commit_trace (s : State) (i : Instr) (e : Effect) : (s.commit i e).trace = s.trace ++ [{ pc := s.pc, word := encode i, mnemonic := i.op.mnemonic, writes := s.traceWrites e.regWrite }] := by simp [State.commit]
theorem State.commit_halted_none (s : State) (i : Instr) (e : Effect) (h : e.halt = none) : (s.commit i e).halted = s.halted := by simp [State.commit, h]
theorem State.commit_halted_some (s : State) (i : Instr) (e : Effect) (r : HaltReason) (h : e.halt = some r) : (s.commit i e).halted = true := by simp [State.commit, h]
theorem State.commit_haltReason_none (s : State) (i : Instr) (e : Effect) (h : e.halt = none) : (s.commit i e).haltReason = s.haltReason := by simp [State.commit, h]
theorem State.commit_haltReason_some (s : State) (i : Instr) (e : Effect) (r : HaltReason) (h : e.halt = some r) : (s.commit i e).haltReason = some r := by simp [State.commit, h]
theorem State.commit_dstate_none (s : State) (i : Instr) (e : Effect) (h : e.halt = none) : (s.commit i e).dstate = s.dstate := by simp [State.commit, h]
theorem State.commit_dstate_some (s : State) (i : Instr) (e : Effect) (r : HaltReason) (h : e.halt = some r) : (s.commit i e).dstate = .halted := by simp [State.commit, h]

end Sys2Proof.Machine
end

