-- ==== Sys2Proof/Laws/Memory.lean ====
section
/-! SUPPORT. Memory as bytes (spec/20_memory.md): every operation keeps the canonical form, and what a read gives after
a write. -/

namespace Sys2Proof.Machine

theorem Memory.read_put (a x : Nat) (b : Byte) (m : Memory) (h : b = Memory.unlisted → a ≠ x ∨ m.read x = b) :
    Memory.read (Memory.put a b m) x = if a = x then b else m.read x := by
  unfold Memory.put
  split
  · next hb => split
               · next e => rcases h hb with h | h
                           · exact absurd e h
                           · exact h
               · rfl
  · rfl

/-- Below every listed address a memory reads as unlisted. -/
theorem Memory.read_below (m : Memory) (x : Nat) (h : ∀ c ∈ m, x < c.1) : m.read x = Memory.unlisted := by
  induction m with
  | nil => rfl
  | cons c m ih =>
    have hc : c.1 ≠ x := Nat.ne_of_gt (h c List.mem_cons_self)
    simp [Memory.read, hc, ih (fun d hd => h d (List.mem_cons_of_mem _ hd))]

/-- A read after a write: the byte written at its address, and every other byte as before. -/
theorem Memory.read_write (m : Memory) (hm : m.Pairwise (fun c d => c.1 < d.1)) (a x : Nat) (b : Byte) :
    (m.write a b).read x = if a = x then b else m.read x := by
  induction m with
  | nil =>
    exact Memory.read_put a x b [] (fun hb => .inr hb.symm)
  | cons c m ih =>
    rw [List.pairwise_cons] at hm
    unfold Memory.write
    split
    · next hlt =>
      refine Memory.read_put a x b (c :: m) (fun hb => ?_)
      by_cases e : a = x
      · right
        subst e
        rw [hb]
        refine Memory.read_below _ _ (fun d hd => ?_)
        rcases List.mem_cons.1 hd with rfl | hd
        · exact hlt
        · exact Nat.lt_trans hlt (hm.1 d hd)
      · exact .inl e
    · split
      · next hge heq =>
        rw [Memory.read_put a x b m (fun hb => ?_)]
        · split
          · rfl
          · next e => simp [Memory.read, ← heq, e]
        · by_cases e : a = x
          · right
            subst e
            rw [hb]
            exact Memory.read_below _ _ (fun d hd => heq ▸ hm.1 d hd)
          · exact .inl e
      · next hge hne =>
        simp only [Memory.read, ih hm.2]
        split
        · next e => simp [show a ≠ x by omega]
        · rfl

/-- The addresses a write can list: the one written and those listed before. -/
theorem Memory.mem_write {m : Memory} {a : Nat} {b : Byte} {c : Host.Cell} (h : c ∈ m.write a b) :
    c = (a, b) ∨ c ∈ m := by
  induction m with
  | nil =>
    unfold Memory.write Memory.put at h
    split at h <;> simp_all
  | cons d m ih =>
    unfold Memory.write Memory.put at h
    split at h
    · split at h <;> simp_all
    · split at h
      · split at h <;> simp_all
        rcases h with h | h <;> simp [h]
      · rcases List.mem_cons.1 h with h | h
        · simp [h]
        · rcases ih h with h | h <;> simp [h]

theorem Memory.wf_put {a : Nat} {b : Byte} {m : Memory} (hm : m.wf) (h : ∀ c ∈ m, a < c.1) :
    Memory.wf (Memory.put a b m) := by
  unfold Memory.put
  split
  · exact hm
  · next hb =>
    refine ⟨List.pairwise_cons.2 ⟨h, hm.1⟩, fun c hc => ?_⟩
    rcases List.mem_cons.1 hc with rfl | hc
    · exact hb
    · exact hm.2 c hc

/-- Writing a byte keeps the canonical form. -/
theorem Memory.wf_write {m : Memory} (hm : m.wf) (a : Nat) (b : Byte) : (m.write a b).wf := by
  induction m with
  | nil => exact Memory.wf_put hm (by simp)
  | cons c m ih =>
    obtain ⟨hlt, hp⟩ := List.pairwise_cons.1 hm.1
    have hrest : Memory.wf m := ⟨hp, fun d hd => hm.2 d (List.mem_cons_of_mem _ hd)⟩
    unfold Memory.write
    split
    · next h =>
      refine Memory.wf_put hm (fun d hd => ?_)
      rcases List.mem_cons.1 hd with rfl | hd
      · exact h
      · exact Nat.lt_trans h (hlt d hd)
    · split
      · next h => exact Memory.wf_put hrest (fun d hd => h ▸ hlt d hd)
      · next hge hne =>
        refine ⟨List.pairwise_cons.2 ⟨fun d hd => ?_, (ih hrest).1⟩, fun d hd => ?_⟩
        · rcases Memory.mem_write hd with rfl | hd
          · show c.1 < a
            omega
          · exact hlt d hd
        · rcases List.mem_cons.1 hd with rfl | hd
          · exact hm.2 _ List.mem_cons_self
          · exact (ih hrest).2 d hd

/-- Writing bytes keeps the canonical form. -/
theorem Memory.wf_writeBytes {m : Memory} (hm : m.wf) (a : Nat) (bs : List Byte) : (m.writeBytes a bs).wf := by
  induction bs generalizing m a with
  | nil => exact hm
  | cons b bs ih => exact ih (Memory.wf_write hm a b) (a + 1)

/-- The addresses written bytes can list: those written and those listed before. -/
theorem Memory.mem_writeBytes {m : Memory} {a : Nat} {bs : List Byte} {c : Host.Cell} (h : c ∈ m.writeBytes a bs) :
    (a ≤ c.1 ∧ c.1 < a + bs.length) ∨ c ∈ m := by
  induction bs generalizing m a with
  | nil => exact .inr h
  | cons b bs ih =>
    have hl : (b :: bs).length = bs.length + 1 := rfl
    rcases ih h with ⟨h1, h2⟩ | h
    · exact .inl ⟨by omega, by omega⟩
    · rcases Memory.mem_write h with rfl | h
      · exact .inl ⟨Nat.le_refl _, by simp⟩
      · exact .inr h

/-- Every byte after writing bytes: the written one inside, as before outside. -/
theorem Memory.read_writeBytes (m : Memory) (hm : m.wf) (a x : Nat) (bs : List Byte) :
    (m.writeBytes a bs).read x =
      if h : a ≤ x ∧ x < a + bs.length then bs[x - a]'(by omega) else m.read x := by
  induction bs generalizing m a with
  | nil =>
    simp [Memory.writeBytes]
  | cons b bs ih =>
    have hl : (b :: bs).length = bs.length + 1 := rfl
    simp only [Memory.writeBytes, ih (m.write a b) (Memory.wf_write hm a b), Memory.read_write m hm.1]
    by_cases h1 : a + 1 ≤ x ∧ x < a + 1 + bs.length
    · rw [dif_pos h1, dif_pos (by omega)]
      have : x - a = x - (a + 1) + 1 := by omega
      simp [this]
    · rw [dif_neg h1]
      by_cases h2 : a = x
      · subst h2
        simp
      · rw [if_neg h2, dif_neg (by omega)]

/-- A write leaves every other byte as it was, on any list, canonical or not. -/
theorem Memory.read_write_of_ne (m : Memory) (a x : Nat) (b : Byte) (h : a ≠ x) : (m.write a b).read x = m.read x := by
  have put : ∀ m' : Memory, (Memory.put a b m').read x = m'.read x := fun m' => by
    rw [Memory.read_put a x b m' (fun _ => .inl h), if_neg h]
  induction m with
  | nil => exact put []
  | cons c m ih =>
    unfold Memory.write
    split
    · exact put _
    · split
      · next he => rw [put]; simp [Memory.read, ← he, h]
      · simp only [Memory.read, ih]

/-- Writing bytes leaves every byte outside them as it was, on any list, canonical or not. -/
theorem Memory.read_writeBytes_outside (m : Memory) (a x : Nat) (bs : List Byte) (h : x < a ∨ a + bs.length ≤ x) :
    (m.writeBytes a bs).read x = m.read x := by
  induction bs generalizing m a with
  | nil => rfl
  | cons b bs ih =>
    have hl : (b :: bs).length = bs.length + 1 := rfl
    rw [Memory.writeBytes, ih _ _ (by omega), Memory.read_write_of_ne _ _ _ _ (by omega)]

theorem Memory.length_readBytes (m : Memory) (a n : Nat) : (m.readBytes a n).length = n := by
  induction n generalizing a with
  | zero => rfl
  | succ n ih => simp [Memory.readBytes, ih]

theorem Memory.getElem_readBytes (m : Memory) (a n k : Nat) (h : k < (m.readBytes a n).length) :
    (m.readBytes a n)[k] = m.read (a + k) := by
  induction n generalizing a k with
  | zero => simp [Memory.readBytes] at h
  | succ n ih =>
    cases k with
    | zero => simp [Memory.readBytes]
    | succ k =>
      simp only [Memory.readBytes, List.getElem_cons_succ, ih]
      rw [show a + 1 + k = a + (k + 1) by omega]

end Sys2Proof.Machine
end

