-- ==== Sys2Proof/Laws/Access.lean ====
section
/-! SUPPORT. The access primitives (spec/20_memory.md R34 to R39): when each outcome happens, and what it is. -/

namespace Sys2Proof.Machine

theorem Width.bytes_pos (n : Width) : 0 < n.bytes := by cases n <;> decide

/-- The low bytes of a word an access stores are as many as its width. -/
theorem length_bytesLE (n : Width) (v : Word) : (bytesLE n v).length = n.bytes := by cases n <;> rfl

theorem length_bytesOfWord (w : Word) : (bytesOfWord w).length = 4 := rfl

/-- An access passes its tests exactly when it is aligned and in range (R34, R36). -/
theorem checkAccess_eq_none {M : Nat} {addr : Word} {n : Width} :
    checkAccess M addr n = none ↔ addr.toNat % n.bytes = 0 ∧ addr.toNat + n.bytes ≤ M := by
  unfold checkAccess
  split
  · next h => simp [h]
  · next h =>
    have h : addr.toNat % n.bytes = 0 := by omega
    split
    · next hb => simp; omega
    · next hb => simp [h]; omega

/-- A misaligned access is an alignment error, in range or not (R35, R37). -/
theorem checkAccess_misaligned {M : Nat} {addr : Word} {n : Width} (h : addr.toNat % n.bytes ≠ 0) :
    checkAccess M addr n = some .memoryAlignment := by
  simp [checkAccess, h]

/-- An aligned access that is not wholly in range is a bounds error (R36). -/
theorem checkAccess_outside {M : Nat} {addr : Word} {n : Width} (h : addr.toNat % n.bytes = 0)
    (hb : M < addr.toNat + n.bytes) : checkAccess M addr n = some .memoryBounds := by
  simp [checkAccess, h, hb]

/-- What `MemRead` answers: the value where the tests pass, the error of the tests otherwise. -/
theorem State.memRead_cases (s : State) (addr : Word) (n : Width) :
    (checkAccess s.params.memSize addr n = none ∧ s.memRead addr n = .ok (s.mem.readLE addr.toNat n)) ∨
    (∃ k, checkAccess s.params.memSize addr n = some k ∧ s.memRead addr n = .error k) := by
  unfold State.memRead
  cases h : checkAccess s.params.memSize addr n with
  | none => exact .inl ⟨rfl, rfl⟩
  | some k => exact .inr ⟨k, rfl, rfl⟩

/-- What `MemWrite` answers: memory with the bytes written where the tests pass, the error of the tests otherwise. -/
theorem State.memWrite_cases (s : State) (addr : Word) (n : Width) (v : Word) :
    (checkAccess s.params.memSize addr n = none ∧
      s.memWrite addr n v = .ok (s.mem.writeBytes addr.toNat (bytesLE n v))) ∨
    (∃ k, checkAccess s.params.memSize addr n = some k ∧ s.memWrite addr n v = .error k) := by
  unfold State.memWrite
  cases h : checkAccess s.params.memSize addr n with
  | none => exact .inl ⟨rfl, rfl⟩
  | some k => exact .inr ⟨k, rfl, rfl⟩

/-- Byte k of what an access stores is bits 8k+7 .. 8k of the word (R32). -/
theorem getElem_bytesLE (n : Width) (v : Word) (k : Nat) (h : k < (bytesLE n v).length) :
    (bytesLE n v)[k] = v.extractLsb' (8 * k) 8 := by
  have hk : k < 4 := by
    have := length_bytesLE n v
    cases n <;> simp [Width.bytes] at this <;> omega
  simp only [bytesLE, List.getElem_take]
  match k, hk with
  | 0, _ => rfl
  | 1, _ => rfl
  | 2, _ => rfl
  | 3, _ => rfl

end Sys2Proof.Machine
end

