-- ==== Sys2Proof/Laws/Assembler.lean ====
section
/-! SUPPORT. The assembler's digits and literals (spec/30_encoding.md R83): what a digit is, and what digits read as. -/

namespace Sys2Proof.Machine

/-- A digit's character has the digit's value, in either letter case. -/
@[simp] theorem digitValue_digitChar (d : Fin 16 × Bool) : digitValue (digitChar d) = some d.1.val := by
  revert d; decide

/-- The codes below 128 whose characters have a digit's value, and the digit each is. -/
theorem digit_codes : ∀ k : Fin 128, (digitValue (Char.ofNat k.val)).all
    (fun n => decide (∃ d : Fin 16 × Bool, d.1.val = n ∧ Char.ofNat k.val = digitChar d)) = true := by decide

/-- Every character that has a digit's value is that digit's character, in one of the letter cases. -/
theorem digitChar_of_digitValue {c : Char} {n : Nat} (h : digitValue c = some n) :
    ∃ d : Fin 16 × Bool, d.1.val = n ∧ c = digitChar d := by
  have hc : c.toNat < 128 := by
    by_contra hk
    have h1 : ¬ c.toNat ≤ 57 := by omega
    have h2 : ¬ c.toNat ≤ 102 := by omega
    have h3 : ¬ c.toNat ≤ 70 := by omega
    simp [digitValue, isDigit, h1, h2, h3] at h
  simpa [h] using digit_codes ⟨c.toNat, hc⟩

/-- What a text reads as from a value, in a base: digits below the base, each multiplied in; nothing else is read. -/
theorem digitsFrom_eq_some {base : Nat} {t : Text} {acc n : Nat} :
    digitsFrom base acc t = some n ↔ ∃ ds : Digits, t = digitsText ds ∧ (∀ d ∈ ds, d.1.val < base) ∧
      n = ds.foldl (fun a d => a * base + d.1.val) acc := by
  induction t generalizing acc with
  | nil =>
    constructor
    · intro h
      exact ⟨[], rfl, by simp, by simpa [digitsFrom] using h.symm⟩
    · rintro ⟨ds, h, -, rfl⟩
      cases ds with
      | nil => rfl
      | cons d ds => cases h
  | cons c t ih =>
    constructor
    · intro h
      unfold digitsFrom at h
      split at h
      · next k hk =>
        split at h
        · next hb =>
          obtain ⟨ds, rfl, h1, h2⟩ := ih.1 h
          obtain ⟨d, rfl, rfl⟩ := digitChar_of_digitValue hk
          exact ⟨d :: ds, rfl, List.forall_mem_cons.2 ⟨hb, h1⟩, h2⟩
        · cases h
      · cases h
    · rintro ⟨ds, h, hb, rfl⟩
      cases ds with
      | nil => cases h
      | cons d ds =>
        obtain ⟨rfl, rfl⟩ := List.cons.inj h
        simp only [digitsFrom, digitValue_digitChar, if_pos (hb d List.mem_cons_self)]
        exact ih.2 ⟨ds, rfl, fun e he => hb e (List.mem_cons_of_mem _ he), rfl⟩

end Sys2Proof.Machine
end

