-- ==== Sys2Proof/Laws/Registers.lean ====
section
/-! SUPPORT. The register file (spec/10_state.md R11, R12): what a read gives after a write. -/

namespace Sys2Proof.Machine

/-- A register read depends on the register file alone. -/
theorem State.reg_congr {s t : State} (h : t.regs = s.regs) (r : Reg) : t.reg r = s.reg r := by
  unfold State.reg; simp only [h]

@[simp] theorem State.reg_zero (s : State) : s.reg 0 = 0 := rfl

/-- The register file after a write: the one register written, and x0 never. -/
theorem State.reg_setReg (s : State) (r q : Reg) (v : Word) :
    (s.setReg r v).reg q = if q = r ∧ q ≠ 0 then v else s.reg q := by
  by_cases hq : q = 0
  · subst hq; simp
  · by_cases hr : r = 0
    · subst hr; simp [State.setReg, hq]
    · have hq' : q.val ≠ 0 := fun h => hq (Fin.ext h)
      have hr' : r.val ≠ 0 := fun h => hr (Fin.ext h)
      by_cases e : q = r
      · subst e; simp [State.setReg, State.reg, hq]
      · have : r.val - 1 ≠ q.val - 1 := fun h => e (Fin.ext (by omega))
        simp [State.setReg, State.reg, hq, hr, e, this]

/-- The registers after completing an instruction that writes `v` to rd. -/
theorem State.reg_commit_some (s : State) (i : Instr) (e : Effect) (rd : Reg) (v : Word)
    (h : e.regWrite = some (rd, v)) (q : Reg) :
    (s.commit i e).reg q = if q = rd ∧ q ≠ 0 then v else s.reg q := by
  rw [State.reg_congr (State.commit_regs s i e), h]
  exact State.reg_setReg s rd q v

/-- The registers after completing an instruction that writes none. -/
theorem State.reg_commit_none (s : State) (i : Instr) (e : Effect) (h : e.regWrite = none) (q : Reg) :
    (s.commit i e).reg q = s.reg q := by
  rw [State.reg_congr (State.commit_regs s i e), h]; rfl

@[simp] theorem State.reg_raise (s : State) (k : ErrorKind) (w : Option Word) (r : Reg) :
    (s.raise k w).reg r = s.reg r := rfl

@[simp] theorem State.reg_halt (s : State) (h : HaltReason) (r : Reg) : (s.halt h).reg r = s.reg r := rfl

/-- Every register is 0 after construction (R27). -/
theorem State.reg_construct (p : Params) (r : Reg) : (State.construct p).reg r = 0 := by
  unfold State.reg; split <;> simp

end Sys2Proof.Machine
end

