-- ==== Sys2Proof/Laws/Exec.lean ====
section
/-! SUPPORT. What executing an instruction can do, said once (spec/40_instruction_cycle.md R105, R106;
spec/60_exceptions.md R226). -/

namespace Sys2Proof.Machine

/-- An effect stores nothing, or one access's bytes at an address that passes the access's tests. -/
def Effect.StoresSafely (e : Effect) (s : State) : Prop :=
  e.store = none ∨ ∃ (a : Word) (n : Width) (v : Word),
    checkAccess s.params.memSize a n = none ∧ e.store = some (s.mem.writeBytes a.toNat (bytesLE n v))

/-- Executing an instruction commits an effect or takes an error with the instruction's word. -/
def Executes (i : Instr) (s : State) (o : Host.Outcome State Fault Refusal) : Prop :=
  (∃ e : Effect, o = .next (s.commit i e) ∧ e.StoresSafely s) ∨
  (∃ k : ErrorKind, o = .next (s.raise k (some (encode i))))

theorem executes_ok (i : Instr) (s : State) (e : Effect) (h : e.store = none) :
    Executes i s (finish i (.ok e) s) :=
  .inl ⟨e, rfl, .inl h⟩

theorem executes_load (i : Instr) (n : Width) (ext : Word → Word) (rd rs1 : Reg) (imm : Word) (s : State) :
    Executes i s (loadInstr i n ext rd rs1 imm s) := by
  unfold loadInstr
  cases s.loadValue n ext rs1 imm with
  | ok v => exact executes_ok i s _ rfl
  | error k => exact .inr ⟨k, rfl⟩

theorem executes_store (i : Instr) (n : Width) (rs1 rs2 : Reg) (imm : Word) (s : State) :
    Executes i s (storeInstr i n rs1 rs2 imm s) := by
  unfold storeInstr
  rcases s.memWrite_cases (s.effAddr rs1 imm) n (s.reg rs2) with ⟨hc, h⟩ | ⟨k, -, h⟩
  · rw [h]; exact .inl ⟨_, rfl, .inr ⟨_, _, _, hc, rfl⟩⟩
  · rw [h]; exact .inr ⟨k, rfl⟩

/-- Executing any instruction in any state commits an effect or takes an error: it is never refused and never stops
in a fault of the model's own. -/
theorem exec_executes (i : Instr) (s : State) : Executes i s (exec i s) := by
  cases i
  case lb => exact executes_load _ _ _ _ _ _ s
  case lh => exact executes_load _ _ _ _ _ _ s
  case lw => exact executes_load _ _ _ _ _ _ s
  case lbu => exact executes_load _ _ _ _ _ _ s
  case lhu => exact executes_load _ _ _ _ _ _ s
  case sb => exact executes_store _ _ _ _ _ s
  case sh => exact executes_store _ _ _ _ _ s
  case sw => exact executes_store _ _ _ _ _ s
  all_goals exact executes_ok _ _ _ rfl

/-- What a load answers, by the outcome of its access. -/
theorem loadInstr_cases (i : Instr) (n : Width) (ext : Word → Word) (rd rs1 : Reg) (imm : Word) (s : State) :
    (checkAccess s.params.memSize (s.effAddr rs1 imm) n = none ∧ loadInstr i n ext rd rs1 imm s =
      .next (s.commit i (s.toReg rd (ext (s.mem.readLE (s.effAddr rs1 imm).toNat n))))) ∨
    (∃ k, checkAccess s.params.memSize (s.effAddr rs1 imm) n = some k ∧
      loadInstr i n ext rd rs1 imm s = .next (s.raise k (some (encode i)))) := by
  unfold loadInstr State.loadValue
  rcases s.memRead_cases (s.effAddr rs1 imm) n with ⟨hc, h⟩ | ⟨k, hc, h⟩
  · rw [h]; exact .inl ⟨hc, rfl⟩
  · rw [h]; exact .inr ⟨k, hc, rfl⟩

/-- What a store answers, by the outcome of its access. -/
theorem storeInstr_cases (i : Instr) (n : Width) (rs1 rs2 : Reg) (imm : Word) (s : State) :
    (checkAccess s.params.memSize (s.effAddr rs1 imm) n = none ∧ storeInstr i n rs1 rs2 imm s =
      .next (s.commit i { regWrite := none
                          store := some (s.mem.writeBytes (s.effAddr rs1 imm).toNat (bytesLE n (s.reg rs2)))
                          next := s.pcNext, halt := none })) ∨
    (∃ k, checkAccess s.params.memSize (s.effAddr rs1 imm) n = some k ∧
      storeInstr i n rs1 rs2 imm s = .next (s.raise k (some (encode i)))) := by
  unfold storeInstr
  rcases s.memWrite_cases (s.effAddr rs1 imm) n (s.reg rs2) with ⟨hc, h⟩ | ⟨k, hc, h⟩
  · rw [h]; exact .inl ⟨hc, rfl⟩
  · rw [h]; exact .inr ⟨k, hc, rfl⟩

end Sys2Proof.Machine
end

