-- ==== Sys2Proof/Laws/Cycle.lean ====
section
/-! SUPPORT. What one step can do, said once (spec/40_instruction_cycle.md R101 to R108). -/

namespace Sys2Proof.Machine

/-- One step of a Running machine: it halts past the program, or takes a fetch error, or takes IllegalInstruction with
the fetched word, or executes the instruction the fetched word decodes to. -/
theorem stepOnce_cases (s : State) :
    (s.pastProgram = true ∧ stepOnce s = .next (s.halt .pcPastProgram)) ∨
    (s.pastProgram = false ∧ ∃ k, s.fetch = .error k ∧ stepOnce s = .next (s.raise k none)) ∨
    (s.pastProgram = false ∧ ∃ w e, s.fetch = .ok w ∧ decode w = .error e ∧
      stepOnce s = .next (s.raise .illegalInstruction (some w))) ∨
    (s.pastProgram = false ∧ ∃ w i, s.fetch = .ok w ∧ decode w = .ok i ∧
      stepOnce s = Sys2Proof.Machine.exec i s) := by
  unfold stepOnce
  cases hp : s.pastProgram with
  | true => exact .inl ⟨rfl, by simp⟩
  | false =>
    cases hf : s.fetch with
    | error k => exact .inr (.inl ⟨rfl, k, rfl, by simp⟩)
    | ok w =>
      cases hd : decode w with
      | error e => exact .inr (.inr (.inl ⟨rfl, w, e, rfl, hd, by simp [runWord, hd]⟩))
      | ok i => exact .inr (.inr (.inr ⟨rfl, w, i, rfl, hd, by simp [runWord, hd]⟩))

/-- One step of a Running machine always answers a next state. -/
theorem stepOnce_next (s : State) : ∃ t, stepOnce s = .next t := by
  rcases stepOnce_cases s with ⟨-, h⟩ | ⟨-, k, -, h⟩ | ⟨-, w, e, -, -, h⟩ | ⟨-, w, i, -, -, h⟩
  · exact ⟨_, h⟩
  · exact ⟨_, h⟩
  · exact ⟨_, h⟩
  · rcases exec_executes i s with ⟨e, he, -⟩ | ⟨k, hk⟩
    · exact ⟨_, h.trans he⟩
    · exact ⟨_, h.trans hk⟩

/-- The `step` command: refused in Idle and Error, otherwise one step of the machine made Running (R101). -/
theorem step_cases (s : State) :
    (s.dstate = .idle ∧ step s = .refused .noProgramLoaded) ∨
    (s.dstate = .error ∧ step s = .refused .machineInError) ∨
    (s.dstate ≠ .idle ∧ s.dstate ≠ .error ∧
      step s = stepOnce { s with dstate := .running, halted := false, haltReason := none }) := by
  unfold step stepCommand
  rcases s.admit_cases with ⟨h, ha⟩ | ⟨h, ha⟩ | ⟨h, h', ha⟩
  · exact .inl ⟨h, by rw [ha]⟩
  · exact .inr (.inl ⟨h, by rw [ha]⟩)
  · exact .inr (.inr ⟨h, h', by rw [ha]⟩)

end Sys2Proof.Machine
end

