-- ==== Sys2Proof/Laws/Decode.lean ====
section
/-! SUPPORT. The fields of an encoded word (spec/30_encoding.md R51 to R57, R72): what each selector and immediate of the
decoder reads from what each form of the encoder writes. -/

namespace Sys2Proof

/-- A register index survives its 5-bit field. -/
theorem toFin_regBits (r : Reg) : (regBits r).toFin = r := rfl

/-- A word is the concatenation of its six fields (R51, R52). -/
theorem word_eq_fields (w : Word) :
    (funct7Of w ++ w.extractLsb' 20 5 ++ w.extractLsb' 15 5 ++ funct3Of w ++ w.extractLsb' 7 5 ++ opcodeOf w : Word)
      = w := by
  refine BitVec.eq_of_getLsbD_eq (fun i hi => ?_)
  simp only [funct7Of, funct3Of, opcodeOf, BitVec.getLsbD_append, BitVec.getLsbD_extractLsb']
  interval_cases i <;> simp

/-! ## `encR` -/

theorem opcodeOf_encR (f7 : BitVec 7) (f3 : BitVec 3) (rd rs1 rs2 : Reg) : opcodeOf (encR f7 f3 rd rs1 rs2) = opOp := by
  refine BitVec.eq_of_getLsbD_eq (fun i hi => ?_)
  simp only [opcodeOf, encR, BitVec.getLsbD_append, BitVec.getLsbD_extractLsb']
  interval_cases i <;> simp

theorem funct3Of_encR (f7 : BitVec 7) (f3 : BitVec 3) (rd rs1 rs2 : Reg) : funct3Of (encR f7 f3 rd rs1 rs2) = f3 := by
  refine BitVec.eq_of_getLsbD_eq (fun i hi => ?_)
  simp only [funct3Of, encR, BitVec.getLsbD_append, BitVec.getLsbD_extractLsb']
  interval_cases i <;> simp

theorem funct7Of_encR (f7 : BitVec 7) (f3 : BitVec 3) (rd rs1 rs2 : Reg) : funct7Of (encR f7 f3 rd rs1 rs2) = f7 := by
  refine BitVec.eq_of_getLsbD_eq (fun i hi => ?_)
  simp only [funct7Of, encR, BitVec.getLsbD_append, BitVec.getLsbD_extractLsb']
  interval_cases i <;> simp

theorem rdOf_encR (f7 : BitVec 7) (f3 : BitVec 3) (rd rs1 rs2 : Reg) : rdOf (encR f7 f3 rd rs1 rs2) = rd := by
  refine congrArg BitVec.toFin (a₂ := regBits rd) (BitVec.eq_of_getLsbD_eq (fun i hi => ?_))
  simp only [encR, BitVec.getLsbD_append, BitVec.getLsbD_extractLsb']
  interval_cases i <;> simp

theorem rs1Of_encR (f7 : BitVec 7) (f3 : BitVec 3) (rd rs1 rs2 : Reg) : rs1Of (encR f7 f3 rd rs1 rs2) = rs1 := by
  refine congrArg BitVec.toFin (a₂ := regBits rs1) (BitVec.eq_of_getLsbD_eq (fun i hi => ?_))
  simp only [encR, BitVec.getLsbD_append, BitVec.getLsbD_extractLsb']
  interval_cases i <;> simp

theorem rs2Of_encR (f7 : BitVec 7) (f3 : BitVec 3) (rd rs1 rs2 : Reg) : rs2Of (encR f7 f3 rd rs1 rs2) = rs2 := by
  refine congrArg BitVec.toFin (a₂ := regBits rs2) (BitVec.eq_of_getLsbD_eq (fun i hi => ?_))
  simp only [encR, BitVec.getLsbD_append, BitVec.getLsbD_extractLsb']
  interval_cases i <;> simp

/-! ## `encI` -/

theorem opcodeOf_encI (op : BitVec 7) (f3 : BitVec 3) (rd rs1 : Reg) (imm : Word) : opcodeOf (encI op f3 rd rs1 imm) = op := by
  refine BitVec.eq_of_getLsbD_eq (fun i hi => ?_)
  simp only [opcodeOf, encI, BitVec.getLsbD_append, BitVec.getLsbD_extractLsb']
  interval_cases i <;> simp

theorem funct3Of_encI (op : BitVec 7) (f3 : BitVec 3) (rd rs1 : Reg) (imm : Word) : funct3Of (encI op f3 rd rs1 imm) = f3 := by
  refine BitVec.eq_of_getLsbD_eq (fun i hi => ?_)
  simp only [funct3Of, encI, BitVec.getLsbD_append, BitVec.getLsbD_extractLsb']
  interval_cases i <;> simp

theorem rdOf_encI (op : BitVec 7) (f3 : BitVec 3) (rd rs1 : Reg) (imm : Word) : rdOf (encI op f3 rd rs1 imm) = rd := by
  refine congrArg BitVec.toFin (a₂ := regBits rd) (BitVec.eq_of_getLsbD_eq (fun i hi => ?_))
  simp only [encI, BitVec.getLsbD_append, BitVec.getLsbD_extractLsb']
  interval_cases i <;> simp

theorem rs1Of_encI (op : BitVec 7) (f3 : BitVec 3) (rd rs1 : Reg) (imm : Word) : rs1Of (encI op f3 rd rs1 imm) = rs1 := by
  refine congrArg BitVec.toFin (a₂ := regBits rs1) (BitVec.eq_of_getLsbD_eq (fun i hi => ?_))
  simp only [encI, BitVec.getLsbD_append, BitVec.getLsbD_extractLsb']
  interval_cases i <;> simp

theorem immI_encI (op : BitVec 7) (f3 : BitVec 3) (rd rs1 : Reg) (imm : Word) :
    immI (encI op f3 rd rs1 imm) = (imm.extractLsb' 0 12).signExtend 32 := by
  refine congrArg (BitVec.signExtend 32) (BitVec.eq_of_getLsbD_eq (fun i hi => ?_))
  simp only [encI, BitVec.getLsbD_append, BitVec.getLsbD_extractLsb']
  interval_cases i <;> simp

/-! ## `encShift` -/

theorem opcodeOf_encShift (f7 : BitVec 7) (f3 : BitVec 3) (rd rs1 : Reg) (imm : Word) : opcodeOf (encShift f7 f3 rd rs1 imm) = opOpImm := by
  refine BitVec.eq_of_getLsbD_eq (fun i hi => ?_)
  simp only [opcodeOf, encShift, BitVec.getLsbD_append, BitVec.getLsbD_extractLsb']
  interval_cases i <;> simp

theorem funct3Of_encShift (f7 : BitVec 7) (f3 : BitVec 3) (rd rs1 : Reg) (imm : Word) : funct3Of (encShift f7 f3 rd rs1 imm) = f3 := by
  refine BitVec.eq_of_getLsbD_eq (fun i hi => ?_)
  simp only [funct3Of, encShift, BitVec.getLsbD_append, BitVec.getLsbD_extractLsb']
  interval_cases i <;> simp

theorem funct7Of_encShift (f7 : BitVec 7) (f3 : BitVec 3) (rd rs1 : Reg) (imm : Word) : funct7Of (encShift f7 f3 rd rs1 imm) = f7 := by
  refine BitVec.eq_of_getLsbD_eq (fun i hi => ?_)
  simp only [funct7Of, encShift, BitVec.getLsbD_append, BitVec.getLsbD_extractLsb']
  interval_cases i <;> simp

theorem rdOf_encShift (f7 : BitVec 7) (f3 : BitVec 3) (rd rs1 : Reg) (imm : Word) : rdOf (encShift f7 f3 rd rs1 imm) = rd := by
  refine congrArg BitVec.toFin (a₂ := regBits rd) (BitVec.eq_of_getLsbD_eq (fun i hi => ?_))
  simp only [encShift, BitVec.getLsbD_append, BitVec.getLsbD_extractLsb']
  interval_cases i <;> simp

theorem rs1Of_encShift (f7 : BitVec 7) (f3 : BitVec 3) (rd rs1 : Reg) (imm : Word) : rs1Of (encShift f7 f3 rd rs1 imm) = rs1 := by
  refine congrArg BitVec.toFin (a₂ := regBits rs1) (BitVec.eq_of_getLsbD_eq (fun i hi => ?_))
  simp only [encShift, BitVec.getLsbD_append, BitVec.getLsbD_extractLsb']
  interval_cases i <;> simp

theorem immI_encShift (f7 : BitVec 7) (f3 : BitVec 3) (rd rs1 : Reg) (imm : Word) :
    immI (encShift f7 f3 rd rs1 imm) = (f7 ++ imm.extractLsb' 0 5 : BitVec 12).signExtend 32 := by
  refine congrArg (BitVec.signExtend 32) (BitVec.eq_of_getLsbD_eq (fun i hi => ?_))
  simp only [encShift, BitVec.getLsbD_append, BitVec.getLsbD_extractLsb']
  interval_cases i <;> simp

/-! ## `encS` -/

theorem opcodeOf_encS (f3 : BitVec 3) (rs1 rs2 : Reg) (imm : Word) : opcodeOf (encS f3 rs1 rs2 imm) = opStore := by
  refine BitVec.eq_of_getLsbD_eq (fun i hi => ?_)
  simp only [opcodeOf, encS, BitVec.getLsbD_append, BitVec.getLsbD_extractLsb']
  interval_cases i <;> simp

theorem funct3Of_encS (f3 : BitVec 3) (rs1 rs2 : Reg) (imm : Word) : funct3Of (encS f3 rs1 rs2 imm) = f3 := by
  refine BitVec.eq_of_getLsbD_eq (fun i hi => ?_)
  simp only [funct3Of, encS, BitVec.getLsbD_append, BitVec.getLsbD_extractLsb']
  interval_cases i <;> simp

theorem rs1Of_encS (f3 : BitVec 3) (rs1 rs2 : Reg) (imm : Word) : rs1Of (encS f3 rs1 rs2 imm) = rs1 := by
  refine congrArg BitVec.toFin (a₂ := regBits rs1) (BitVec.eq_of_getLsbD_eq (fun i hi => ?_))
  simp only [encS, BitVec.getLsbD_append, BitVec.getLsbD_extractLsb']
  interval_cases i <;> simp

theorem rs2Of_encS (f3 : BitVec 3) (rs1 rs2 : Reg) (imm : Word) : rs2Of (encS f3 rs1 rs2 imm) = rs2 := by
  refine congrArg BitVec.toFin (a₂ := regBits rs2) (BitVec.eq_of_getLsbD_eq (fun i hi => ?_))
  simp only [encS, BitVec.getLsbD_append, BitVec.getLsbD_extractLsb']
  interval_cases i <;> simp

theorem immS_encS (f3 : BitVec 3) (rs1 rs2 : Reg) (imm : Word) :
    immS (encS f3 rs1 rs2 imm) = (imm.extractLsb' 0 12).signExtend 32 := by
  refine congrArg (BitVec.signExtend 32) (BitVec.eq_of_getLsbD_eq (fun i hi => ?_))
  simp only [encS, BitVec.getLsbD_append, BitVec.getLsbD_extractLsb']
  interval_cases i <;> simp

/-! ## `encB` -/

theorem opcodeOf_encB (f3 : BitVec 3) (rs1 rs2 : Reg) (imm : Word) : opcodeOf (encB f3 rs1 rs2 imm) = opBranch := by
  refine BitVec.eq_of_getLsbD_eq (fun i hi => ?_)
  simp only [opcodeOf, encB, BitVec.getLsbD_append, BitVec.getLsbD_extractLsb']
  interval_cases i <;> simp

theorem funct3Of_encB (f3 : BitVec 3) (rs1 rs2 : Reg) (imm : Word) : funct3Of (encB f3 rs1 rs2 imm) = f3 := by
  refine BitVec.eq_of_getLsbD_eq (fun i hi => ?_)
  simp only [funct3Of, encB, BitVec.getLsbD_append, BitVec.getLsbD_extractLsb']
  interval_cases i <;> simp

theorem rs1Of_encB (f3 : BitVec 3) (rs1 rs2 : Reg) (imm : Word) : rs1Of (encB f3 rs1 rs2 imm) = rs1 := by
  refine congrArg BitVec.toFin (a₂ := regBits rs1) (BitVec.eq_of_getLsbD_eq (fun i hi => ?_))
  simp only [encB, BitVec.getLsbD_append, BitVec.getLsbD_extractLsb']
  interval_cases i <;> simp

theorem rs2Of_encB (f3 : BitVec 3) (rs1 rs2 : Reg) (imm : Word) : rs2Of (encB f3 rs1 rs2 imm) = rs2 := by
  refine congrArg BitVec.toFin (a₂ := regBits rs2) (BitVec.eq_of_getLsbD_eq (fun i hi => ?_))
  simp only [encB, BitVec.getLsbD_append, BitVec.getLsbD_extractLsb']
  interval_cases i <;> simp

theorem immB_encB (f3 : BitVec 3) (rs1 rs2 : Reg) (imm : Word) :
    immB (encB f3 rs1 rs2 imm) = (imm.extractLsb' 1 12 ++ 0#1 : BitVec 13).signExtend 32 := by
  refine congrArg (BitVec.signExtend 32) (BitVec.eq_of_getLsbD_eq (fun i hi => ?_))
  simp only [encB, BitVec.getLsbD_append, BitVec.getLsbD_extractLsb']
  interval_cases i <;> simp

/-! ## `encU` -/

theorem opcodeOf_encU (op : BitVec 7) (rd : Reg) (imm : Word) : opcodeOf (encU op rd imm) = op := by
  refine BitVec.eq_of_getLsbD_eq (fun i hi => ?_)
  simp only [opcodeOf, encU, BitVec.getLsbD_append, BitVec.getLsbD_extractLsb']
  interval_cases i <;> simp

theorem rdOf_encU (op : BitVec 7) (rd : Reg) (imm : Word) : rdOf (encU op rd imm) = rd := by
  refine congrArg BitVec.toFin (a₂ := regBits rd) (BitVec.eq_of_getLsbD_eq (fun i hi => ?_))
  simp only [encU, BitVec.getLsbD_append, BitVec.getLsbD_extractLsb']
  interval_cases i <;> simp

theorem immU_encU (op : BitVec 7) (rd : Reg) (imm : Word) : immU (encU op rd imm) = imm.extractLsb' 12 20 ++ 0#12 := by
  refine BitVec.eq_of_getLsbD_eq (fun i hi => ?_)
  simp only [immU, encU, BitVec.getLsbD_append, BitVec.getLsbD_extractLsb']
  interval_cases i <;> simp

/-! ## `encJ` -/

theorem opcodeOf_encJ (rd : Reg) (imm : Word) : opcodeOf (encJ rd imm) = opJal := by
  refine BitVec.eq_of_getLsbD_eq (fun i hi => ?_)
  simp only [opcodeOf, encJ, BitVec.getLsbD_append, BitVec.getLsbD_extractLsb']
  interval_cases i <;> simp

theorem rdOf_encJ (rd : Reg) (imm : Word) : rdOf (encJ rd imm) = rd := by
  refine congrArg BitVec.toFin (a₂ := regBits rd) (BitVec.eq_of_getLsbD_eq (fun i hi => ?_))
  simp only [encJ, BitVec.getLsbD_append, BitVec.getLsbD_extractLsb']
  interval_cases i <;> simp

theorem immJ_encJ (rd : Reg) (imm : Word) :
    immJ (encJ rd imm) = (imm.extractLsb' 1 20 ++ 0#1 : BitVec 21).signExtend 32 := by
  refine congrArg (BitVec.signExtend 32) (BitVec.eq_of_getLsbD_eq (fun i hi => ?_))
  simp only [encJ, BitVec.getLsbD_append, BitVec.getLsbD_extractLsb']
  interval_cases i <;> simp

/-! ## Selector bits under a row's mask -/

/-- The selector bits of a word whose row fixes funct7, funct3 and the opcode. -/
theorem mask_funct7 (f7 : BitVec 7) (a b : BitVec 5) (f3 : BitVec 3) (c : BitVec 5) (op : BitVec 7) :
    ((f7 ++ a ++ b ++ f3 ++ c ++ op : Word) &&& 0xFE00707F#32) = (f7 ++ 0#5 ++ 0#5 ++ f3 ++ 0#5 ++ op : Word) := by
  have h : 0xFE00707F#32 = (0x7F#7 ++ 0#5 ++ 0#5 ++ 0x7#3 ++ 0#5 ++ 0x7F#7 : Word) := by decide
  rw [h]
  refine BitVec.and_append.trans (congrArg₂ _ (BitVec.and_append.trans (congrArg₂ _ (BitVec.and_append.trans
    (congrArg₂ _ (BitVec.and_append.trans (congrArg₂ _ (BitVec.and_append.trans (congrArg₂ _ ?_ ?_)) ?_)) ?_)) ?_)) ?_)
  · exact BitVec.and_allOnes
  · exact BitVec.and_zero
  · exact BitVec.and_zero
  · exact BitVec.and_allOnes
  · exact BitVec.and_zero
  · exact BitVec.and_allOnes

/-- The selector bits of a word whose row fixes funct3 and the opcode. -/
theorem mask_funct3 (f7 : BitVec 7) (a b : BitVec 5) (f3 : BitVec 3) (c : BitVec 5) (op : BitVec 7) :
    ((f7 ++ a ++ b ++ f3 ++ c ++ op : Word) &&& 0x0000707F#32) = (0#7 ++ 0#5 ++ 0#5 ++ f3 ++ 0#5 ++ op : Word) := by
  have h : 0x0000707F#32 = (0#7 ++ 0#5 ++ 0#5 ++ 0x7#3 ++ 0#5 ++ 0x7F#7 : Word) := by decide
  rw [h]
  refine BitVec.and_append.trans (congrArg₂ _ (BitVec.and_append.trans (congrArg₂ _ (BitVec.and_append.trans
    (congrArg₂ _ (BitVec.and_append.trans (congrArg₂ _ (BitVec.and_append.trans (congrArg₂ _ ?_ ?_)) ?_)) ?_)) ?_)) ?_)
  · exact BitVec.and_zero
  · exact BitVec.and_zero
  · exact BitVec.and_zero
  · exact BitVec.and_allOnes
  · exact BitVec.and_zero
  · exact BitVec.and_allOnes

/-- The selector bits of a word whose row fixes the opcode alone. -/
theorem mask_opcode (f7 : BitVec 7) (a b : BitVec 5) (f3 : BitVec 3) (c : BitVec 5) (op : BitVec 7) :
    ((f7 ++ a ++ b ++ f3 ++ c ++ op : Word) &&& 0x0000007F#32) = (0#7 ++ 0#5 ++ 0#5 ++ 0#3 ++ 0#5 ++ op : Word) := by
  have h : 0x0000007F#32 = (0#7 ++ 0#5 ++ 0#5 ++ 0#3 ++ 0#5 ++ 0x7F#7 : Word) := by decide
  rw [h]
  refine BitVec.and_append.trans (congrArg₂ _ (BitVec.and_append.trans (congrArg₂ _ (BitVec.and_append.trans
    (congrArg₂ _ (BitVec.and_append.trans (congrArg₂ _ (BitVec.and_append.trans (congrArg₂ _ ?_ ?_)) ?_)) ?_)) ?_)) ?_)
  · exact BitVec.and_zero
  · exact BitVec.and_zero
  · exact BitVec.and_zero
  · exact BitVec.and_zero
  · exact BitVec.and_zero
  · exact BitVec.and_allOnes

/-- A word under the three row masks, by its fields. -/
theorem and_mask_funct7 (w : Word) :
    w &&& 0xFE00707F#32 = (funct7Of w ++ 0#5 ++ 0#5 ++ funct3Of w ++ 0#5 ++ opcodeOf w : Word) := by
  conv_lhs => rw [← word_eq_fields w]
  exact mask_funct7 _ _ _ _ _ _

theorem and_mask_funct3 (w : Word) :
    w &&& 0x0000707F#32 = (0#7 ++ 0#5 ++ 0#5 ++ funct3Of w ++ 0#5 ++ opcodeOf w : Word) := by
  conv_lhs => rw [← word_eq_fields w]
  exact mask_funct3 _ _ _ _ _ _

theorem and_mask_opcode (w : Word) :
    w &&& 0x0000007F#32 = (0#7 ++ 0#5 ++ 0#5 ++ 0#3 ++ 0#5 ++ opcodeOf w : Word) := by
  conv_lhs => rw [← word_eq_fields w]
  exact mask_opcode _ _ _ _ _ _

end Sys2Proof
end

