-- ==== Sys2Proof/Laws/PerInstr.lean ====
section
/-! SUPPORT. What is true of every instruction as syntax, one lemma per constructor. -/

namespace Sys2Proof.Laws

/-! ## Every encoding is a word of the instruction's own row of spec/opcode_table.json -/

/-- The row's selector bits of each form of the encoder. -/
theorem row_encR (f7 : BitVec 7) (f3 : BitVec 3) (rd rs1 rs2 : Reg) :
    encR f7 f3 rd rs1 rs2 &&& 0xFE00707F#32 = (f7 ++ 0#5 ++ 0#5 ++ f3 ++ 0#5 ++ opOp : Word) :=
  mask_funct7 _ _ _ _ _ _

theorem row_encShift (f7 : BitVec 7) (f3 : BitVec 3) (rd rs1 : Reg) (imm : Word) :
    encShift f7 f3 rd rs1 imm &&& 0xFE00707F#32 = (f7 ++ 0#5 ++ 0#5 ++ f3 ++ 0#5 ++ opOpImm : Word) :=
  mask_funct7 _ _ _ _ _ _

theorem row_encI (op : BitVec 7) (f3 : BitVec 3) (rd rs1 : Reg) (imm : Word) :
    encI op f3 rd rs1 imm &&& 0x0000707F#32 = (0#7 ++ 0#5 ++ 0#5 ++ f3 ++ 0#5 ++ op : Word) := by
  rw [and_mask_funct3, funct3Of_encI, opcodeOf_encI]

theorem row_encS (f3 : BitVec 3) (rs1 rs2 : Reg) (imm : Word) :
    encS f3 rs1 rs2 imm &&& 0x0000707F#32 = (0#7 ++ 0#5 ++ 0#5 ++ f3 ++ 0#5 ++ opStore : Word) := by
  rw [and_mask_funct3, funct3Of_encS, opcodeOf_encS]

theorem row_encB (f3 : BitVec 3) (rs1 rs2 : Reg) (imm : Word) :
    encB f3 rs1 rs2 imm &&& 0x0000707F#32 = (0#7 ++ 0#5 ++ 0#5 ++ f3 ++ 0#5 ++ opBranch : Word) := by
  rw [and_mask_funct3, funct3Of_encB, opcodeOf_encB]

theorem row_encU (op : BitVec 7) (rd : Reg) (imm : Word) :
    encU op rd imm &&& 0x0000007F#32 = (0#7 ++ 0#5 ++ 0#5 ++ 0#3 ++ 0#5 ++ op : Word) := by
  rw [and_mask_opcode, opcodeOf_encU]

theorem row_encJ (rd : Reg) (imm : Word) :
    encJ rd imm &&& 0x0000007F#32 = (0#7 ++ 0#5 ++ 0#5 ++ 0#3 ++ 0#5 ++ opJal : Word) := by
  rw [and_mask_opcode, opcodeOf_encJ]

/-- The encoding of an instruction is one of the words of its operation's row. -/
def EncodesItsRow.Statement (i : Instr) : Prop := ∃ r ∈ opcodeTable, r.op = i.op ∧ r.Matches (encode i)

namespace EncodesItsRow

theorem add (rd rs1 rs2 : Reg) : Statement (.add rd rs1 rs2) :=
  ⟨⟨.add, 0x00000033#32, 0xFE00707F#32⟩, by decide, rfl, (row_encR _ _ rd rs1 rs2).trans (by decide)⟩

theorem sub (rd rs1 rs2 : Reg) : Statement (.sub rd rs1 rs2) :=
  ⟨⟨.sub, 0x40000033#32, 0xFE00707F#32⟩, by decide, rfl, (row_encR _ _ rd rs1 rs2).trans (by decide)⟩

theorem and (rd rs1 rs2 : Reg) : Statement (.and rd rs1 rs2) :=
  ⟨⟨.and, 0x00007033#32, 0xFE00707F#32⟩, by decide, rfl, (row_encR _ _ rd rs1 rs2).trans (by decide)⟩

theorem or (rd rs1 rs2 : Reg) : Statement (.or rd rs1 rs2) :=
  ⟨⟨.or, 0x00006033#32, 0xFE00707F#32⟩, by decide, rfl, (row_encR _ _ rd rs1 rs2).trans (by decide)⟩

theorem xor (rd rs1 rs2 : Reg) : Statement (.xor rd rs1 rs2) :=
  ⟨⟨.xor, 0x00004033#32, 0xFE00707F#32⟩, by decide, rfl, (row_encR _ _ rd rs1 rs2).trans (by decide)⟩

theorem sll (rd rs1 rs2 : Reg) : Statement (.sll rd rs1 rs2) :=
  ⟨⟨.sll, 0x00001033#32, 0xFE00707F#32⟩, by decide, rfl, (row_encR _ _ rd rs1 rs2).trans (by decide)⟩

theorem srl (rd rs1 rs2 : Reg) : Statement (.srl rd rs1 rs2) :=
  ⟨⟨.srl, 0x00005033#32, 0xFE00707F#32⟩, by decide, rfl, (row_encR _ _ rd rs1 rs2).trans (by decide)⟩

theorem sra (rd rs1 rs2 : Reg) : Statement (.sra rd rs1 rs2) :=
  ⟨⟨.sra, 0x40005033#32, 0xFE00707F#32⟩, by decide, rfl, (row_encR _ _ rd rs1 rs2).trans (by decide)⟩

theorem slt (rd rs1 rs2 : Reg) : Statement (.slt rd rs1 rs2) :=
  ⟨⟨.slt, 0x00002033#32, 0xFE00707F#32⟩, by decide, rfl, (row_encR _ _ rd rs1 rs2).trans (by decide)⟩

theorem sltu (rd rs1 rs2 : Reg) : Statement (.sltu rd rs1 rs2) :=
  ⟨⟨.sltu, 0x00003033#32, 0xFE00707F#32⟩, by decide, rfl, (row_encR _ _ rd rs1 rs2).trans (by decide)⟩

theorem addi (rd rs1 : Reg) (imm : Word) : Statement (.addi rd rs1 imm) :=
  ⟨⟨.addi, 0x00000013#32, 0x0000707F#32⟩, by decide, rfl, (row_encI _ _ rd rs1 imm).trans (by decide)⟩

theorem andi (rd rs1 : Reg) (imm : Word) : Statement (.andi rd rs1 imm) :=
  ⟨⟨.andi, 0x00007013#32, 0x0000707F#32⟩, by decide, rfl, (row_encI _ _ rd rs1 imm).trans (by decide)⟩

theorem ori (rd rs1 : Reg) (imm : Word) : Statement (.ori rd rs1 imm) :=
  ⟨⟨.ori, 0x00006013#32, 0x0000707F#32⟩, by decide, rfl, (row_encI _ _ rd rs1 imm).trans (by decide)⟩

theorem xori (rd rs1 : Reg) (imm : Word) : Statement (.xori rd rs1 imm) :=
  ⟨⟨.xori, 0x00004013#32, 0x0000707F#32⟩, by decide, rfl, (row_encI _ _ rd rs1 imm).trans (by decide)⟩

theorem slti (rd rs1 : Reg) (imm : Word) : Statement (.slti rd rs1 imm) :=
  ⟨⟨.slti, 0x00002013#32, 0x0000707F#32⟩, by decide, rfl, (row_encI _ _ rd rs1 imm).trans (by decide)⟩

theorem sltiu (rd rs1 : Reg) (imm : Word) : Statement (.sltiu rd rs1 imm) :=
  ⟨⟨.sltiu, 0x00003013#32, 0x0000707F#32⟩, by decide, rfl, (row_encI _ _ rd rs1 imm).trans (by decide)⟩

theorem slli (rd rs1 : Reg) (imm : Word) : Statement (.slli rd rs1 imm) :=
  ⟨⟨.slli, 0x00001013#32, 0xFE00707F#32⟩, by decide, rfl, (row_encShift _ _ rd rs1 imm).trans (by decide)⟩

theorem srli (rd rs1 : Reg) (imm : Word) : Statement (.srli rd rs1 imm) :=
  ⟨⟨.srli, 0x00005013#32, 0xFE00707F#32⟩, by decide, rfl, (row_encShift _ _ rd rs1 imm).trans (by decide)⟩

theorem srai (rd rs1 : Reg) (imm : Word) : Statement (.srai rd rs1 imm) :=
  ⟨⟨.srai, 0x40005013#32, 0xFE00707F#32⟩, by decide, rfl, (row_encShift _ _ rd rs1 imm).trans (by decide)⟩

theorem lb (rd rs1 : Reg) (imm : Word) : Statement (.lb rd rs1 imm) :=
  ⟨⟨.lb, 0x00000003#32, 0x0000707F#32⟩, by decide, rfl, (row_encI _ _ rd rs1 imm).trans (by decide)⟩

theorem lh (rd rs1 : Reg) (imm : Word) : Statement (.lh rd rs1 imm) :=
  ⟨⟨.lh, 0x00001003#32, 0x0000707F#32⟩, by decide, rfl, (row_encI _ _ rd rs1 imm).trans (by decide)⟩

theorem lw (rd rs1 : Reg) (imm : Word) : Statement (.lw rd rs1 imm) :=
  ⟨⟨.lw, 0x00002003#32, 0x0000707F#32⟩, by decide, rfl, (row_encI _ _ rd rs1 imm).trans (by decide)⟩

theorem lbu (rd rs1 : Reg) (imm : Word) : Statement (.lbu rd rs1 imm) :=
  ⟨⟨.lbu, 0x00004003#32, 0x0000707F#32⟩, by decide, rfl, (row_encI _ _ rd rs1 imm).trans (by decide)⟩

theorem lhu (rd rs1 : Reg) (imm : Word) : Statement (.lhu rd rs1 imm) :=
  ⟨⟨.lhu, 0x00005003#32, 0x0000707F#32⟩, by decide, rfl, (row_encI _ _ rd rs1 imm).trans (by decide)⟩

theorem sb (rs1 rs2 : Reg) (imm : Word) : Statement (.sb rs1 rs2 imm) :=
  ⟨⟨.sb, 0x00000023#32, 0x0000707F#32⟩, by decide, rfl, (row_encS _ rs1 rs2 imm).trans (by decide)⟩

theorem sh (rs1 rs2 : Reg) (imm : Word) : Statement (.sh rs1 rs2 imm) :=
  ⟨⟨.sh, 0x00001023#32, 0x0000707F#32⟩, by decide, rfl, (row_encS _ rs1 rs2 imm).trans (by decide)⟩

theorem sw (rs1 rs2 : Reg) (imm : Word) : Statement (.sw rs1 rs2 imm) :=
  ⟨⟨.sw, 0x00002023#32, 0x0000707F#32⟩, by decide, rfl, (row_encS _ rs1 rs2 imm).trans (by decide)⟩

theorem beq (rs1 rs2 : Reg) (imm : Word) : Statement (.beq rs1 rs2 imm) :=
  ⟨⟨.beq, 0x00000063#32, 0x0000707F#32⟩, by decide, rfl, (row_encB _ rs1 rs2 imm).trans (by decide)⟩

theorem bne (rs1 rs2 : Reg) (imm : Word) : Statement (.bne rs1 rs2 imm) :=
  ⟨⟨.bne, 0x00001063#32, 0x0000707F#32⟩, by decide, rfl, (row_encB _ rs1 rs2 imm).trans (by decide)⟩

theorem blt (rs1 rs2 : Reg) (imm : Word) : Statement (.blt rs1 rs2 imm) :=
  ⟨⟨.blt, 0x00004063#32, 0x0000707F#32⟩, by decide, rfl, (row_encB _ rs1 rs2 imm).trans (by decide)⟩

theorem bge (rs1 rs2 : Reg) (imm : Word) : Statement (.bge rs1 rs2 imm) :=
  ⟨⟨.bge, 0x00005063#32, 0x0000707F#32⟩, by decide, rfl, (row_encB _ rs1 rs2 imm).trans (by decide)⟩

theorem bltu (rs1 rs2 : Reg) (imm : Word) : Statement (.bltu rs1 rs2 imm) :=
  ⟨⟨.bltu, 0x00006063#32, 0x0000707F#32⟩, by decide, rfl, (row_encB _ rs1 rs2 imm).trans (by decide)⟩

theorem bgeu (rs1 rs2 : Reg) (imm : Word) : Statement (.bgeu rs1 rs2 imm) :=
  ⟨⟨.bgeu, 0x00007063#32, 0x0000707F#32⟩, by decide, rfl, (row_encB _ rs1 rs2 imm).trans (by decide)⟩

theorem jal (rd : Reg) (imm : Word) : Statement (.jal rd imm) :=
  ⟨⟨.jal, 0x0000006F#32, 0x0000007F#32⟩, by decide, rfl, (row_encJ rd imm).trans (by decide)⟩

theorem jalr (rd rs1 : Reg) (imm : Word) : Statement (.jalr rd rs1 imm) :=
  ⟨⟨.jalr, 0x00000067#32, 0x0000707F#32⟩, by decide, rfl, (row_encI _ _ rd rs1 imm).trans (by decide)⟩

theorem lui (rd : Reg) (imm : Word) : Statement (.lui rd imm) :=
  ⟨⟨.lui, 0x00000037#32, 0x0000007F#32⟩, by decide, rfl, (row_encU _ rd imm).trans (by decide)⟩

theorem auipc (rd : Reg) (imm : Word) : Statement (.auipc rd imm) :=
  ⟨⟨.auipc, 0x00000017#32, 0x0000007F#32⟩, by decide, rfl, (row_encU _ rd imm).trans (by decide)⟩

theorem ecall : Statement .ecall :=
  ⟨⟨.ecall, 0x00000073#32, 0xFFFFFFFF#32⟩, by decide, rfl, by decide⟩

theorem ebreak : Statement .ebreak :=
  ⟨⟨.ebreak, 0x00100073#32, 0xFFFFFFFF#32⟩, by decide, rfl, by decide⟩

end EncodesItsRow

/-! ## Every instruction is its operation with the operand fields of R58's record -/

/-- The instruction is the one its operation makes of some operand fields. -/
def OfItsOperands.Statement (i : Instr) : Prop := ∃ rd rs1 rs2 imm, i.op.instr rd rs1 rs2 imm = i

namespace OfItsOperands

theorem add (rd rs1 rs2 : Reg) : Statement (.add rd rs1 rs2) := ⟨rd, rs1, rs2, 0, rfl⟩
theorem sub (rd rs1 rs2 : Reg) : Statement (.sub rd rs1 rs2) := ⟨rd, rs1, rs2, 0, rfl⟩
theorem and (rd rs1 rs2 : Reg) : Statement (.and rd rs1 rs2) := ⟨rd, rs1, rs2, 0, rfl⟩
theorem or (rd rs1 rs2 : Reg) : Statement (.or rd rs1 rs2) := ⟨rd, rs1, rs2, 0, rfl⟩
theorem xor (rd rs1 rs2 : Reg) : Statement (.xor rd rs1 rs2) := ⟨rd, rs1, rs2, 0, rfl⟩
theorem sll (rd rs1 rs2 : Reg) : Statement (.sll rd rs1 rs2) := ⟨rd, rs1, rs2, 0, rfl⟩
theorem srl (rd rs1 rs2 : Reg) : Statement (.srl rd rs1 rs2) := ⟨rd, rs1, rs2, 0, rfl⟩
theorem sra (rd rs1 rs2 : Reg) : Statement (.sra rd rs1 rs2) := ⟨rd, rs1, rs2, 0, rfl⟩
theorem slt (rd rs1 rs2 : Reg) : Statement (.slt rd rs1 rs2) := ⟨rd, rs1, rs2, 0, rfl⟩
theorem sltu (rd rs1 rs2 : Reg) : Statement (.sltu rd rs1 rs2) := ⟨rd, rs1, rs2, 0, rfl⟩
theorem addi (rd rs1 : Reg) (imm : Word) : Statement (.addi rd rs1 imm) := ⟨rd, rs1, 0, imm, rfl⟩
theorem andi (rd rs1 : Reg) (imm : Word) : Statement (.andi rd rs1 imm) := ⟨rd, rs1, 0, imm, rfl⟩
theorem ori (rd rs1 : Reg) (imm : Word) : Statement (.ori rd rs1 imm) := ⟨rd, rs1, 0, imm, rfl⟩
theorem xori (rd rs1 : Reg) (imm : Word) : Statement (.xori rd rs1 imm) := ⟨rd, rs1, 0, imm, rfl⟩
theorem slti (rd rs1 : Reg) (imm : Word) : Statement (.slti rd rs1 imm) := ⟨rd, rs1, 0, imm, rfl⟩
theorem sltiu (rd rs1 : Reg) (imm : Word) : Statement (.sltiu rd rs1 imm) := ⟨rd, rs1, 0, imm, rfl⟩
theorem slli (rd rs1 : Reg) (imm : Word) : Statement (.slli rd rs1 imm) := ⟨rd, rs1, 0, imm, rfl⟩
theorem srli (rd rs1 : Reg) (imm : Word) : Statement (.srli rd rs1 imm) := ⟨rd, rs1, 0, imm, rfl⟩
theorem srai (rd rs1 : Reg) (imm : Word) : Statement (.srai rd rs1 imm) := ⟨rd, rs1, 0, imm, rfl⟩
theorem lb (rd rs1 : Reg) (imm : Word) : Statement (.lb rd rs1 imm) := ⟨rd, rs1, 0, imm, rfl⟩
theorem lh (rd rs1 : Reg) (imm : Word) : Statement (.lh rd rs1 imm) := ⟨rd, rs1, 0, imm, rfl⟩
theorem lw (rd rs1 : Reg) (imm : Word) : Statement (.lw rd rs1 imm) := ⟨rd, rs1, 0, imm, rfl⟩
theorem lbu (rd rs1 : Reg) (imm : Word) : Statement (.lbu rd rs1 imm) := ⟨rd, rs1, 0, imm, rfl⟩
theorem lhu (rd rs1 : Reg) (imm : Word) : Statement (.lhu rd rs1 imm) := ⟨rd, rs1, 0, imm, rfl⟩
theorem sb (rs1 rs2 : Reg) (imm : Word) : Statement (.sb rs1 rs2 imm) := ⟨0, rs1, rs2, imm, rfl⟩
theorem sh (rs1 rs2 : Reg) (imm : Word) : Statement (.sh rs1 rs2 imm) := ⟨0, rs1, rs2, imm, rfl⟩
theorem sw (rs1 rs2 : Reg) (imm : Word) : Statement (.sw rs1 rs2 imm) := ⟨0, rs1, rs2, imm, rfl⟩
theorem beq (rs1 rs2 : Reg) (imm : Word) : Statement (.beq rs1 rs2 imm) := ⟨0, rs1, rs2, imm, rfl⟩
theorem bne (rs1 rs2 : Reg) (imm : Word) : Statement (.bne rs1 rs2 imm) := ⟨0, rs1, rs2, imm, rfl⟩
theorem blt (rs1 rs2 : Reg) (imm : Word) : Statement (.blt rs1 rs2 imm) := ⟨0, rs1, rs2, imm, rfl⟩
theorem bge (rs1 rs2 : Reg) (imm : Word) : Statement (.bge rs1 rs2 imm) := ⟨0, rs1, rs2, imm, rfl⟩
theorem bltu (rs1 rs2 : Reg) (imm : Word) : Statement (.bltu rs1 rs2 imm) := ⟨0, rs1, rs2, imm, rfl⟩
theorem bgeu (rs1 rs2 : Reg) (imm : Word) : Statement (.bgeu rs1 rs2 imm) := ⟨0, rs1, rs2, imm, rfl⟩
theorem jal (rd : Reg) (imm : Word) : Statement (.jal rd imm) := ⟨rd, 0, 0, imm, rfl⟩
theorem jalr (rd rs1 : Reg) (imm : Word) : Statement (.jalr rd rs1 imm) := ⟨rd, rs1, 0, imm, rfl⟩
theorem lui (rd : Reg) (imm : Word) : Statement (.lui rd imm) := ⟨rd, 0, 0, imm, rfl⟩
theorem auipc (rd : Reg) (imm : Word) : Statement (.auipc rd imm) := ⟨rd, 0, 0, imm, rfl⟩
theorem ecall : Statement .ecall := ⟨0, 0, 0, 0, rfl⟩
theorem ebreak : Statement .ebreak := ⟨0, 0, 0, 0, rfl⟩

end OfItsOperands

end Sys2Proof.Laws
end

