-- ==== Sys2Proof/Tests/Slice0.lean ====
section
/-! SUPPORT. The model's own tests. Expected values are the vectors of spec/95_test_vectors.md (their ids stand in the
comments) or the worked examples of the instruction rules; words are written field by field from 30_encoding.md R52 and
R59 to R67. The last part shows, for each statement with hypotheses, values that meet them. -/

namespace Sys2Proof.Tests

open Sys2Proof Sys2Proof.Machine

/-! ## Helpers -/

/-- MEM_SIZE = 0x1000, as the vectors of sections 2.6, 2.7 and 2.12 take it. -/
def smallParams : Params := { memSize := 0x1000, asmUAcceptUnsigned := false }

/-- A Running machine with some registers and memory words set, its program reaching to 0x80. -/
def machine (pc : Word) (rs : List (Reg × Word)) (ws : List (Nat × Word)) : State :=
  let s : State := { State.construct smallParams with pc := pc, dstate := .running, progEnd := 0x80 }
  let s := rs.foldl (fun s r => s.setReg r.1 r.2) s
  { s with mem := ws.foldl (fun m w => m.writeBytes w.1 (bytesOfWord w.2)) s.mem }

/-- The next state of an outcome. -/
def nextOf (o : Host.Outcome State Fault Refusal) : Option State :=
  match o with
  | .next t => some t
  | .fault _ => none
  | .refused _ => none

/-- `x3` and the pc after a register-register instruction on x1 and x2. -/
def afterRR (i : Instr) (a b : Word) : Option (Word × Word) :=
  (nextOf (exec i (machine 0 [(1, a), (2, b)] []))).map (fun t => (t.reg 3, t.pc))

/-- `x2` and the pc after a register-immediate instruction on x1. -/
def afterRI (i : Instr) (a : Word) : Option (Word × Word) :=
  (nextOf (exec i (machine 0 [(1, a)] []))).map (fun t => (t.reg 2, t.pc))

/-- `x2`, the pc and the error kind after a load with base x1, on the memory of section 2.6. -/
def afterLoad (i : Instr) (a : Word) : Option (Word × Word × Option ErrorKind) :=
  (nextOf (exec i (machine 0 [(1, a), (2, 0xAAAAAAAA)] [(0x100, 0xF1E2D3C4), (0xFC, 0x01020304)]))).map
    (fun t => (t.reg 2, t.pc, t.error.map ErrorRecord.kind))

/-- The bytes 0x100 .. 0x103, the pc and the error kind after a store of x2 with base x1 (section 2.7). -/
def afterStore (i : Instr) (a : Word) : Option (List Byte × Word × Option ErrorKind) :=
  (nextOf (exec i (machine 0 [(1, a), (2, 0xA1B2C3D4)] [(0x100, 0x11111111)]))).map
    (fun t => (t.mem.readBytes 0x100 4, t.pc, t.error.map ErrorRecord.kind))

/-- The pc after a branch at 0x40 on x1 and x2 (section 2.8). -/
def afterBranch (i : Instr) (a b : Word) : Option Word :=
  (nextOf (exec i (machine 0x40 [(1, a), (2, b)] []))).map State.pc

/-- A register and the pc after an instruction. -/
def afterAt (i : Instr) (pc : Word) (rs : List (Reg × Word)) (r : Reg) : Option (Word × Word) :=
  (nextOf (exec i (machine pc rs []))).map (fun t => (t.reg r, t.pc))

/-- A loaded machine of MEM_SIZE = 0x1000 with these words as its program. -/
def loaded (ws : List Word) : State := (State.construct smallParams).loadWords ws

/-! ## Well-formedness: each check refuses a term that no word encodes -/

theorem test_wellFormed_refuses_12 : (Instr.addi 1 0 2048#32).wellFormed = false ∧
    (Instr.sw 1 2 0xFFFFF7FF#32).wellFormed = false := by decide

theorem test_wellFormed_refuses_branch : (Instr.beq 1 2 3#32).wellFormed = false ∧
    (Instr.beq 1 2 4096#32).wellFormed = false := by decide

theorem test_wellFormed_refuses_upper : (Instr.lui 1 0x12345678#32).wellFormed = false := by decide

theorem test_wellFormed_refuses_jump : (Instr.jal 1 5#32).wellFormed = false ∧
    (Instr.jal 1 1048576#32).wellFormed = false := by decide

theorem test_wellFormed_refuses_shift : (Instr.slli 1 1 32#32).wellFormed = false := by decide

theorem test_wellFormed_refuses_shift_arith : (Instr.srai 1 1 4#32).wellFormed = false ∧
    (Instr.srai 1 1 1056#32).wellFormed = false := by decide

/-! ## Decoding, every constructor from a word written field by field -/

theorem test_decode_regReg :
    decode 0b0000000_00010_00001_000_00011_0110011#32 = .ok (.add 3 1 2) ∧
    decode 0b0100000_00010_00001_000_00011_0110011#32 = .ok (.sub 3 1 2) ∧
    decode 0b0000000_00010_00001_111_00011_0110011#32 = .ok (.and 3 1 2) ∧
    decode 0b0000000_00010_00001_110_00011_0110011#32 = .ok (.or 3 1 2) ∧
    decode 0b0000000_00010_00001_100_00011_0110011#32 = .ok (.xor 3 1 2) ∧
    decode 0b0000000_00010_00001_001_00011_0110011#32 = .ok (.sll 3 1 2) ∧
    decode 0b0000000_00010_00001_101_00011_0110011#32 = .ok (.srl 3 1 2) ∧
    decode 0b0100000_00010_00001_101_00011_0110011#32 = .ok (.sra 3 1 2) ∧
    decode 0b0000000_00010_00001_010_00011_0110011#32 = .ok (.slt 3 1 2) ∧
    decode 0b0000000_00010_00001_011_00011_0110011#32 = .ok (.sltu 3 1 2) := by decide

theorem test_decode_regImm :
    decode 0b100000000000_00001_000_00010_0010011#32 = .ok (.addi 2 1 0xFFFFF800#32) ∧
    decode 0b000011111111_00001_111_00010_0010011#32 = .ok (.andi 2 1 255#32) ∧
    decode 0b111100000000_00001_110_00010_0010011#32 = .ok (.ori 2 1 0xFFFFFF00#32) ∧
    decode 0b111111111111_00001_100_00010_0010011#32 = .ok (.xori 2 1 0xFFFFFFFF#32) ∧
    decode 0b011111111111_00001_010_00010_0010011#32 = .ok (.slti 2 1 2047#32) ∧
    decode 0b000000000001_00001_011_00010_0010011#32 = .ok (.sltiu 2 1 1#32) ∧
    decode 0b0000000_11111_00001_001_00010_0010011#32 = .ok (.slli 2 1 31#32) ∧
    decode 0b0000000_00100_00001_101_00010_0010011#32 = .ok (.srli 2 1 4#32) ∧
    decode 0b0100000_00100_00001_101_00010_0010011#32 = .ok (.srai 2 1 0x404#32) := by decide

theorem test_decode_memory :
    decode 0b000000000011_00001_000_00010_0000011#32 = .ok (.lb 2 1 3#32) ∧
    decode 0b000000000010_00001_001_00010_0000011#32 = .ok (.lh 2 1 2#32) ∧
    decode 0b111111111100_00001_010_00010_0000011#32 = .ok (.lw 2 1 0xFFFFFFFC#32) ∧
    decode 0b000000000011_00001_100_00010_0000011#32 = .ok (.lbu 2 1 3#32) ∧
    decode 0b000000000010_00001_101_00010_0000011#32 = .ok (.lhu 2 1 2#32) ∧
    decode 0b0000000_00010_00001_000_00011_0100011#32 = .ok (.sb 1 2 3#32) ∧
    decode 0b1000000_00010_00001_001_00010_0100011#32 = .ok (.sh 1 2 0xFFFFF802#32) ∧
    decode 0b1111111_00010_00001_010_11100_0100011#32 = .ok (.sw 1 2 0xFFFFFFFC#32) := by decide

/-- The branches: imm[12], imm[10:5], rs2, rs1, funct3, imm[4:1], imm[11], opcode; BEQ has imm[11] alone, BGEU has the
sign alone. -/
theorem test_decode_branches :
    decode 0b0_000000_00010_00001_000_0000_1_1100011#32 = .ok (.beq 1 2 2048#32) ∧
    decode 0b1_111111_00010_00001_001_1100_1_1100011#32 = .ok (.bne 1 2 0xFFFFFFF8#32) ∧
    decode 0b0_000000_00010_00001_100_1000_0_1100011#32 = .ok (.blt 1 2 16#32) ∧
    decode 0b1_111111_00010_00001_101_1110_1_1100011#32 = .ok (.bge 1 2 0xFFFFFFFC#32) ∧
    decode 0b0_111111_00010_00001_110_1111_1_1100011#32 = .ok (.bltu 1 2 4094#32) ∧
    decode 0b1_000000_00010_00001_111_0000_0_1100011#32 = .ok (.bgeu 1 2 0xFFFFF000#32) := by decide

theorem test_decode_jumps_upper_system :
    decode 0b0_0000000000_1_00000000_00001_1101111#32 = .ok (.jal 1 2048#32) ∧
    decode 0b1_0000000000_0_00000000_00001_1101111#32 = .ok (.jal 1 0xFFF00000#32) ∧
    decode 0b000000000111_00010_000_00001_1100111#32 = .ok (.jalr 1 2 7#32) ∧
    decode 0b00010010001101000101_00001_0110111#32 = .ok (.lui 1 0x12345000#32) ∧
    decode 0b11111111111111111111_00010_0010111#32 = .ok (.auipc 2 0xFFFFF000#32) ∧
    decode 0b000000000000_00000_000_00000_1110011#32 = .ok .ecall ∧
    decode 0b000000000001_00000_000_00000_1110011#32 = .ok .ebreak := by decide

/-- Section 2.2: words that are no instruction. -/
theorem test_decode_illegal :
    (([0x00000000#32, 0xFFFFFFFF#32, 0x0000000F#32, 0x0000100F#32, 0x022081B3#32, 0x402091B3#32, 0x4020F1B3#32,
      0x802081B3#32, 0x00003003#32, 0x00006003#32, 0x00007003#32, 0x00003023#32, 0x00004023#32, 0x00002063#32,
      0x00003063#32, 0x00001067#32, 0x02009013#32, 0x40009013#32] ++
      [0x2000D013#32, 0x4200D013#32, 0x00200073#32, 0x30200073#32, 0x10500073#32, 0x00001073#32, 0xC0002573#32,
      0x00000873#32, 0x00008073#32, 0x00100873#32, 0x00300073#32, 0x0000002F#32, 0x00000053#32, 0x0000000B#32,
      0x00004001#32, 0x00000002#32, 0x0000003B#32, 0x0000001B#32]).all
      (fun w => (decode w).toOption.isNone)) = true := by decide

/-- R33: the byte at the lowest address is the word's least significant. -/
theorem test_decode_bytes : decodeBytes [0x93#8, 0x00#8, 0xA0#8, 0x00#8, 0x55#8] = .ok (.addi 1 0 10#32, [0x55#8]) ∧
    decodeTableWord 32 0x00A00093 = some (.addi 1 0 10#32) ∧ decodeTableWord 32 0 = none := by decide

/-! ## One step of each instruction -/

-- A1, A2
theorem test_add : afterRR (.add 3 1 2) 0x7FFFFFFF 1 = some (0x80000000, 4) ∧
    afterRR (.add 3 1 2) 0xFFFFFFFF 1 = some (0, 4) := by decide

-- A4, A5
theorem test_sub : afterRR (.sub 3 1 2) 0 1 = some (0xFFFFFFFF, 4) ∧
    afterRR (.sub 3 1 2) 0x80000000 1 = some (0x7FFFFFFF, 4) := by decide

-- A7
theorem test_and : afterRR (.and 3 1 2) 0xF0F0F0F0 0x0FF00FF0 = some (0x00F000F0, 4) := by decide

-- A8
theorem test_or : afterRR (.or 3 1 2) 0xF0F0F0F0 0x0FF00FF0 = some (0xFFF0FFF0, 4) := by decide

-- A9
theorem test_xor : afterRR (.xor 3 1 2) 0xF0F0F0F0 0x0FF00FF0 = some (0xFF00FF00, 4) := by decide

-- A12, A13
theorem test_sll : afterRR (.sll 3 1 2) 1 0x20 = some (1, 4) ∧
    afterRR (.sll 3 1 2) 0x12345678 0xFFFFFFE4 = some (0x23456780, 4) := by decide

-- A16, A17
theorem test_srl : afterRR (.srl 3 1 2) 0x80000000 0x20 = some (0x80000000, 4) ∧
    afterRR (.srl 3 1 2) 0x87654321 4 = some (0x08765432, 4) := by decide

-- A21, A22
theorem test_sra : afterRR (.sra 3 1 2) 0x87654321 4 = some (0xF8765432, 4) ∧
    afterRR (.sra 3 1 2) 0x7FFFFFFF 0x1F = some (0, 4) := by decide

-- A25, A26
theorem test_slt : afterRR (.slt 3 1 2) 0 0xFFFFFFFF = some (0, 4) ∧
    afterRR (.slt 3 1 2) 0x80000000 0x7FFFFFFF = some (1, 4) := by decide

-- A29, A30
theorem test_sltu : afterRR (.sltu 3 1 2) 0 0xFFFFFFFF = some (1, 4) ∧
    afterRR (.sltu 3 1 2) 0x80000000 0x7FFFFFFF = some (0, 4) := by decide

-- A33: the sum is computed, the write discarded, and the trace entry lists no write
theorem test_zero_destination :
    (nextOf (exec (.add 0 1 1) (machine 0xC [(1, 2)] []))).map
      (fun t => (t.reg 0, t.reg 1, t.pc, t.instructionsExecuted, t.trace)) =
    some (0, 2, 0x10, 1, [{ pc := 0xC, word := 0x00108033, mnemonic := "ADD", writes := [] }]) := by decide

-- M1, M2
theorem test_addi : afterRI (.addi 2 1 1) 0x7FFFFFFF = some (0x80000000, 4) ∧
    afterRI (.addi 2 1 0xFFFFF800) 0 = some (0xFFFFF800, 4) := by decide

-- M7
theorem test_andi : afterRI (.andi 2 1 0xFFFFFF00) 0x12345678 = some (0x12345600, 4) := by decide

-- M8
theorem test_ori : afterRI (.ori 2 1 0xFFFFFF00) 0x12345678 = some (0xFFFFFF78, 4) := by decide

-- M10
theorem test_xori : afterRI (.xori 2 1 0xFFFFFFFF) 0x12345678 = some (0xEDCBA987, 4) := by decide

-- M11, M13
theorem test_slti : afterRI (.slti 2 1 0xFFFFFFFF) 0xFFFFFFFE = some (1, 4) ∧
    afterRI (.slti 2 1 0) 0x80000000 = some (1, 4) := by decide

-- M15, M17
theorem test_sltiu : afterRI (.sltiu 2 1 0xFFFFFFFF) 5 = some (1, 4) ∧
    afterRI (.sltiu 2 1 1) 1 = some (0, 4) := by decide

-- M20
theorem test_slli : afterRI (.slli 2 1 4) 0x12345678 = some (0x23456780, 4) := by decide

-- M23
theorem test_srli : afterRI (.srli 2 1 4) 0x87654321 = some (0x08765432, 4) := by decide

-- M25, M28
theorem test_srai : afterRI (.srai 2 1 0x404) 0x87654321 = some (0xF8765432, 4) ∧
    afterRI (.srai 2 1 0x400) 0x80000000 = some (0x80000000, 4) := by decide

-- L1, L17
theorem test_lb : afterLoad (.lb 2 1 3) 0x100 = some (0xFFFFFFF1, 4, none) ∧
    afterLoad (.lb 2 1 0xFFFFFFFF) 0 = some (0xAAAAAAAA, 0, some .memoryBounds) := by decide

-- L3, L11
theorem test_lh : afterLoad (.lh 2 1 2) 0x100 = some (0xFFFFF1E2, 4, none) ∧
    afterLoad (.lh 2 1 1) 0x100 = some (0xAAAAAAAA, 0, some .memoryAlignment) := by decide

-- L6, L15
theorem test_lw : afterLoad (.lw 2 1 0xFFFFFFFC) 0x100 = some (0x01020304, 4, none) ∧
    afterLoad (.lw 2 1 0) 0x1000 = some (0xAAAAAAAA, 0, some .memoryBounds) := by decide

-- L19, L22
theorem test_lw_edge : afterLoad (.lw 2 1 0) 0xFFC = some (0, 4, none) ∧
    afterLoad (.lw 2 1 1) 0x1000 = some (0xAAAAAAAA, 0, some .memoryAlignment) := by decide

-- L8
theorem test_lbu : afterLoad (.lbu 2 1 0xFFFFFFFF) 0x100 = some (1, 4, none) := by decide

-- L10
theorem test_lhu : afterLoad (.lhu 2 1 0xFFFFFFFE) 0x100 = some (0x102, 4, none) := by decide

-- T2, T12
theorem test_sb : afterStore (.sb 1 2 3) 0x100 = some ([0x11, 0x11, 0x11, 0xD4], 4, none) ∧
    afterStore (.sb 1 2 0xFFFFFFFF) 0 = some ([0x11, 0x11, 0x11, 0x11], 0, some .memoryBounds) := by decide

-- T4, T6
theorem test_sh : afterStore (.sh 1 2 2) 0x100 = some ([0x11, 0x11, 0xD4, 0xC3], 4, none) ∧
    afterStore (.sh 1 2 1) 0x100 = some ([0x11, 0x11, 0x11, 0x11], 0, some .memoryAlignment) := by decide

-- T14, T10
theorem test_sw : afterStore (.sw 1 2 0xFFFFFFFC) 0x104 = some ([0xD4, 0xC3, 0xB2, 0xA1], 4, none) ∧
    afterStore (.sw 1 2 4) 0xFFC = some ([0x11, 0x11, 0x11, 0x11], 0, some .memoryBounds) := by decide

-- Section 2.8, row by row
theorem test_beq : afterBranch (.beq 1 2 16) 5 5 = some 0x50 ∧ afterBranch (.beq 1 2 16) 5 7 = some 0x44 := by decide

theorem test_bne : afterBranch (.bne 1 2 16) 5 7 = some 0x50 ∧ afterBranch (.bne 1 2 16) 5 5 = some 0x44 := by decide

theorem test_blt : afterBranch (.blt 1 2 16) 0xFFFFFFFF 1 = some 0x50 ∧
    afterBranch (.blt 1 2 16) 1 0xFFFFFFFF = some 0x44 := by decide

theorem test_bge : afterBranch (.bge 1 2 16) 5 5 = some 0x50 ∧
    afterBranch (.bge 1 2 16) 0x80000000 0x7FFFFFFF = some 0x44 := by decide

theorem test_bltu : afterBranch (.bltu 1 2 16) 1 0xFFFFFFFF = some 0x50 ∧
    afterBranch (.bltu 1 2 16) 0xFFFFFFFF 1 = some 0x44 := by decide

theorem test_bgeu : afterBranch (.bgeu 1 2 16) 0xFFFFFFFF 1 = some 0x50 ∧
    afterBranch (.bgeu 1 2 16) 5 7 = some 0x44 := by decide

-- J2, J4
theorem test_jal : afterAt (.jal 0 0xFFFFFFF8) 0x20 [] 0 = some (0, 0x18) ∧
    afterAt (.jal 1 0xFFF00000) 0x100000 [] 1 = some (0x100004, 0) := by decide

-- J7 (the old x5), J9 (bit 0 cleared)
theorem test_jalr : afterAt (.jalr 5 5 4) 0x10 [(5, 0x20)] 5 = some (0x14, 0x24) ∧
    afterAt (.jalr 1 2 7) 0x10 [(2, 0x20)] 1 = some (0x14, 0x26) := by decide

-- U1
theorem test_lui : afterAt (.lui 1 0x12345000) 0 [] 1 = some (0x12345000, 4) := by decide

-- U8
theorem test_auipc : afterAt (.auipc 2 0xFFFFF000) 0x10 [] 2 = some (0xFFFFF010, 0x14) := by decide

-- E1
theorem test_ecall : (nextOf (exec .ecall (machine 0 [] []))).map
      (fun t => (t.halted, t.haltReason, t.dstate, t.pc, t.instructionsExecuted)) =
    some (true, some .environmentCall, .halted, 4, 1) := by decide

-- E2
theorem test_ebreak : (nextOf (exec .ebreak (machine 0 [] []))).map
      (fun t => (t.halted, t.haltReason, t.dstate, t.pc, t.instructionsExecuted)) =
    some (true, some .breakpoint, .halted, 4, 1) := by decide

/-! ## The instruction cycle and the host -/

-- E6, first step
theorem test_step_executes : (nextOf (step (loaded [0x00100093]))).map
      (fun t => (t.reg 1, t.pc, t.dstate, t.instructionsExecuted)) = some (1, 4, .running, 1) := by decide

-- E12
theorem test_step_past_program : (nextOf (step (loaded []))).map
      (fun t => (t.haltReason, t.pc, t.dstate, t.instructionsExecuted)) =
    some (some .pcPastProgram, 0, .halted, 0) := by decide

-- The end of E15: the zero word inside the program
theorem test_step_illegal : (nextOf (step (loaded [0]))).map (fun t => (t.error, t.dstate, t.instructionsExecuted)) =
    some (some { kind := .illegalInstruction, pc := 0, word := some 0 }, .error, 0) := by decide

-- The end of E14
theorem test_step_misaligned_fetch :
    (nextOf (step { loaded [0x006000E7, 0x00200113, 0x00300193] with pc := 6 })).map (fun t => (t.error, t.dstate)) =
    some (some { kind := .memoryAlignment, pc := 6, word := none }, .error) := by decide

-- E18, E19
theorem test_step_refused : step State.reset = .refused .noProgramLoaded ∧
    step { State.reset with dstate := .error } = .refused .machineInError := by constructor <;> rfl

-- E8 and E10: the budget and the end of the program
theorem test_run_budget : (nextOf (runCommand 1 (loaded [0x00100093, 0x00000073]))).map
      (fun t => (t.haltReason, t.pc, t.reg 1)) = some (some .budgetExhausted, 4, 1) ∧
    (nextOf (runCommand 1 (loaded [0x00100093]))).map (fun t => (t.haltReason, t.pc, t.reg 1)) =
      some (some .pcPastProgram, 4, 1) := by decide

-- H4, H5, H6
theorem test_host_memory : (State.construct smallParams).readMemory 0xFFF 2 = none ∧
    (State.construct smallParams).writeMemory 0xFFE [1, 2, 3] = none ∧
    ((State.construct smallParams).writeMemory 0x3 [0xAB]).map State.mem = some [(3, 0xAB)] := by decide

-- Canonical form: writing the reset byte removes the entry
theorem test_memory_canonical : Memory.write [(3, 0xAB), (7, 1)] 3 0 = [(7, 1)] ∧
    Memory.write [(3, 0xAB)] 1 2 = [(1, 2), (3, 0xAB)] := by decide

-- S1, as a load
theorem test_load : (command (.load "addi x1, x0, 10\necall") (State.construct smallParams)).1.mem.readBytes 0 8 =
    [0x93, 0x00, 0xA0, 0x00, 0x73, 0x00, 0x00, 0x00] := by decide

/-! ## The assembler (sections 2.13 and 2.14) -/

-- AS4, AS6, AS8, AS17, AS19
theorem test_assemble_operands : assemble false "addi a0, zero, 0b101\nAdDi x1, x0, 5\nsrai x1, x1, 0" =
      .ok [0x00500513, 0x00500093, 0x4000D093] ∧
    assemble false "lw t0, -4(sp)\nsw s0, 8 ( fp )" = .ok [0xFFC12283, 0x00842423] := by decide

-- AS25, AS29
theorem test_assemble_labels : assemble false "loop:\naddi x1, x1, 1\nblt x1, x2, loop\nend: ecall\njal x0, end" =
      .ok [0x00108093, 0xFE20CEE3, 0x00000073, 0xFFDFF06F] ∧
    assemble false "ra: jal ra, ra" = .ok [0x000000EF] := by decide

-- AS30, AS32
theorem test_assemble_parameter : assemble true "lui x1, 0xFFFFF" = .ok [0xFFFFF0B7] ∧
    assemble false "lui x1, 0xFFFFF" = .error { kind := .immediateOutOfRange, line := 1 } ∧
    assemble false "" = .ok [] := by decide

-- AR16, AR22, AR32, AR33
theorem test_assemble_refusals :
    assemble false "add x1, x2" = .error { kind := .operandCountMismatch, line := 1 } ∧
    assemble false "add x32, x1, x2" = .error { kind := .unknownRegister, line := 1 } ∧
    assemble false "jal x1, Loop\nloop: ecall" = .error { kind := .unknownLabel, line := 1 } ∧
    assemble false "a: addi x1, x0, 1\na: ecall" = .error { kind := .duplicateLabel, line := 2 } := by decide

-- AR34, AR37, AR39, AR42
theorem test_assemble_refused_lines :
    assemble false "lw x1, (x2)" = .error { kind := .syntaxError, line := 1 } ∧
    assemble false "addi x1, x0, -0x10" = .error { kind := .syntaxError, line := 1 } ∧
    assemble false "x: y: ecall" = .error { kind := .syntaxError, line := 1 } ∧
    assemble false "addi x1, x0, 1\n\naddi x1, x0, 4096" = .error { kind := .immediateOutOfRange, line := 3 } := by
  decide

/-! ## Witnesses: values that meet the hypotheses of each statement

Named after the statement; where a statement has several clauses, each has its values, at the ends of its range. -/

/-- The invariant of a state, from its clauses as one decidable fact. -/
theorem inv_of (s : State)
    (h : s.params.Legal ∧ s.mem.wf ∧ (∀ c ∈ s.mem, c.1 < s.params.memSize) ∧ (s.halted = true ↔ s.dstate = .halted) ∧
      (s.haltReason ≠ none ↔ s.halted = true) ∧ (s.error ≠ none ↔ s.dstate = .error) ∧
      (s.error.map ErrorRecord.pc).all (fun p => decide (p = s.pc)) = true ∧ s.progEnd % 4 = 0 ∧
      s.progEnd ≤ s.params.memSize ∧ s.pc.toNat % 2 = 0 ∧ s.trace.length = s.instructionsExecuted ∧
      (s.dstate = .idle → s.progEnd = 0)) : s.Inv := by
  obtain ⟨h1, h2, h3, h4, h5, h6, h7, h8, h9, h10, h11, h12⟩ := h
  refine ⟨h1, h2, h3, h4, h5, h6, ?_, h8, h9, h10, h11, h12⟩
  intro e he
  simpa [he] using h7

/-- A program of two instructions and a zero word. -/
def prog : State := loaded [0x00100093, 0x00000073, 0]

theorem prog_inv : prog.Inv := inv_of _ (by decide)

/-- `prog` in Error. -/
def failed : State := { prog with dstate := .error, error := some { kind := .illegalInstruction, pc := 0, word := some 0 } }

theorem failed_inv : failed.Inv := inv_of _ (by decide)

/-- `prog` after a clean halt at `pc`. -/
def stopped (pc : Word) (r : HaltReason) : State :=
  { prog with pc := pc, dstate := .halted, halted := true, haltReason := some r }

-- Encoding

theorem witness_DecodeAndEncodeAgree : (Instr.jal 1 0x000FFFFE#32).WellFormed ∧ (Instr.srai 31 31 0x41F#32).WellFormed ∧
    decode 0x80208063#32 = .ok (.beq 1 2 0xFFFFF000#32) ∧
    assemble false "ecall" = .ok [0x00000073] ∧ (0x00000073 : Word) ∈ [(0x00000073 : Word)] := by decide

theorem witness_ImmediatesAreTheirScatteredBits : (0 : Nat) < 32 ∧ (11 : Nat) < 32 ∧ (31 : Nat) < 32 := by decide

theorem witness_DecoderFollowsTheOpcodeTable :
    (⟨.sub, 0x40000033#32, 0xFE00707F#32⟩ : OpcodeRow) ∈ opcodeTable ∧
    (⟨.sub, 0x40000033#32, 0xFE00707F#32⟩ : OpcodeRow).Matches 0x402081B3#32 := by decide

theorem witness_SelectorsDecideTheOperation : opcodeOf 0x402081B3#32 = 0b0110011#7 ∧ opcodeOf 0x4000D013#32 = 0b0010011#7 ∧
    opcodeOf 0x00002003#32 = 0b0000011#7 ∧ opcodeOf 0x00002023#32 = 0b0100011#7 ∧
    opcodeOf 0x00007063#32 = 0b1100011#7 := by decide

theorem witness_SystemAndForeignWordsAreIllegal :
    (opcodeOf 0x30200073#32 = 0b1110011#7 ∧ (0x30200073#32 : Word) ≠ 0x00000073#32 ∧
      (0x30200073#32 : Word) ≠ 0x00100073#32) ∧
    opcodeOf 0x0000000F#32 ∉ [0b0110111#7, 0b0010111#7, 0b1101111#7, 0b1100111#7, 0b1100011#7, 0b0000011#7,
      0b0100011#7, 0b0010011#7, 0b0110011#7, 0b1110011#7] := by decide

-- Registers and memory

theorem witness_RegisterFileReadsWhatWasWritten : (31 : Reg) ≠ 0 ∧ (1 : Reg) ≠ 31 := by decide

/-- MEM_SIZE = 0x1000. The clauses of misaligned accesses have no values for one byte, which is always aligned. -/
theorem witness_MemReadIsAlignedBoundedLittleEndian :
    ((0xFFE : Word).toNat % Width.word.bytes ≠ 0 ∧ (1 : Word).toNat % Width.half.bytes ≠ 0) ∧
    ((0x1000 : Word).toNat % Width.word.bytes = 0 ∧ 0x1000 < (0x1000 : Word).toNat + Width.word.bytes ∧
      (0x1000 : Word).toNat % Width.half.bytes = 0 ∧ 0x1000 < (0x1000 : Word).toNat + Width.half.bytes ∧
      (0x1000 : Word).toNat % Width.byte.bytes = 0 ∧ 0x1000 < (0x1000 : Word).toNat + Width.byte.bytes) ∧
    ((0xFFC : Word).toNat % Width.word.bytes = 0 ∧ (0xFFC : Word).toNat + Width.word.bytes ≤ 0x1000 ∧
      (0xFFE : Word).toNat % Width.half.bytes = 0 ∧ (0xFFE : Word).toNat + Width.half.bytes ≤ 0x1000 ∧
      (0xFFF : Word).toNat % Width.byte.bytes = 0 ∧ (0xFFF : Word).toNat + Width.byte.bytes ≤ 0x1000) := by decide

/-- The values of MemRead's witness serve MemWrite, on a memory in canonical form. -/
theorem witness_MemWriteSetsExactlyItsBytes : Memory.wf prog.mem ∧ prog.params.memSize = 0x1000 ∧
    (0xFFC : Word).toNat % Width.word.bytes = 0 ∧ (0xFFC : Word).toNat + Width.word.bytes ≤ prog.params.memSize := by
  decide

theorem witness_MixedWidthAccessesAgree : Memory.wf [] ∧
    (State.construct smallParams).memWrite 0xFFC .word 0x11000044 = .ok [(0xFFC, 0x44), (0xFFF, 0x11)] := by decide

theorem witness_CanonicalMemoriesThatReadAlikeAreEqual :
    Memory.wf [(0, 1), (0xFFF, 2)] ∧ ∀ a, Memory.read [(0, 1), (0xFFF, 2)] a = Memory.read [(0, 1), (0xFFF, 2)] a :=
  ⟨by decide, fun _ => rfl⟩

theorem witness_HostMemoryAccessIsAllOrNothing : Memory.wf prog.mem ∧
    prog.params.memSize < 0xFFF + 2 ∧ 0xFFF + 1 ≤ prog.params.memSize ∧ 0x1000 + 0 ≤ prog.params.memSize ∧
    prog.params.memSize < 0xFFE + [(1 : Byte), 2, 3].length ∧ 0xFFE + [(1 : Byte), 2].length ≤ prog.params.memSize := by
  decide

-- Instructions

/-- The effective addresses of the load and store clauses, for each width n: aligned and in range; out of range only;
misaligned only (none for n = 1); both (none for n = 1). -/
theorem witness_loads_and_stores :
    (let s := machine 0 [(1, 0xFFC)] []
     Memory.wf s.mem ∧ s.params.memSize = 0x1000 ∧
      ((s.reg 1 + 3).toNat % 1 = 0 ∧ (s.reg 1 + 3).toNat + 1 ≤ 0x1000) ∧
      ((s.reg 1 + 4).toNat % 1 = 0 ∧ 0x1000 < (s.reg 1 + 4).toNat + 1) ∧
      ((s.reg 1 + 2).toNat % 2 = 0 ∧ (s.reg 1 + 2).toNat + 2 ≤ 0x1000) ∧
      ((s.reg 1 + 4).toNat % 2 = 0 ∧ 0x1000 < (s.reg 1 + 4).toNat + 2) ∧
      ((s.reg 1 + 1).toNat % 2 ≠ 0 ∧ (s.reg 1 + 1).toNat + 2 ≤ 0x1000) ∧
      ((s.reg 1 + 3).toNat % 2 ≠ 0 ∧ 0x1000 < (s.reg 1 + 3).toNat + 2) ∧
      ((s.reg 1 + 0).toNat % 4 = 0 ∧ (s.reg 1 + 0).toNat + 4 ≤ 0x1000) ∧
      ((s.reg 1 + 4).toNat % 4 = 0 ∧ 0x1000 < (s.reg 1 + 4).toNat + 4) ∧
      ((s.reg 1 + 0xFFFFFFFF).toNat % 4 ≠ 0 ∧ (s.reg 1 + 0xFFFFFFFF).toNat + 4 ≤ 0x1000) ∧
      ((s.reg 1 + 1).toNat % 4 ≠ 0 ∧ 0x1000 < (s.reg 1 + 1).toNat + 4)) := by decide

/-- Pairs that meet and that miss each branch's condition: (5, 5), (0xFFFFFFFF, 1), (1, 0xFFFFFFFF). -/
theorem witness_BranchesGoByTheirCondition :
    (∀ k, (5 : Word).getLsbD k = (5 : Word).getLsbD k) ∧ (∃ k, (0xFFFFFFFF : Word).getLsbD k ≠ (1 : Word).getLsbD k) ∧
    (0xFFFFFFFF : Word).toInt < (1 : Word).toInt ∧ ¬ (1 : Word).toInt < (0xFFFFFFFF : Word).toInt ∧
    (1 : Word).toNat < (0xFFFFFFFF : Word).toNat ∧ ¬ (0xFFFFFFFF : Word).toNat < (1 : Word).toNat :=
  ⟨fun _ => rfl, ⟨1, by decide⟩, by decide, by decide, by decide, by decide⟩

theorem witness_OnlyControlTransfersLeaveTheNextAddress : (Instr.lw 1 2 0).op ∉ controlOps := by decide

theorem witness_InstructionsChangeOnlyTheirOwnState :
    (nextOf (exec (.lw 2 1 1) (machine 0 [] []))).map (fun t => (t.error.isSome, t.dstate)) = some (true, .error) ∧
    (nextOf (exec (.sw 1 2 4) (machine 0 [(1, 0xFF8)] []))).isSome ∧
    rdField (.lw 2 1 1) ≠ some 3 ∧ (Instr.lw 2 1 1).op ∉ storeOps ∧ Instr.lw 2 1 1 ≠ .ecall ∧
    Instr.lw 2 1 1 ≠ .ebreak := by decide

theorem witness_ZeroDestinationOnlyDropsTheWrite : (rdField (Op.lw.instr 2 1 0 1)).isSome ∧
    (nextOf (exec (Op.lw.instr 2 1 0 1) (machine 0 [] []))).isSome := by decide

-- The instruction cycle

theorem witness_StepRunsTheDecodedInstruction :
    prog.Admitted ∧ prog.FetchesWord 0x00100093 ∧ decode 0x00100093 = .ok (.addi 1 0 1) := by
  refine ⟨.inl rfl, ?_, ?_⟩
  · unfold State.FetchesWord; decide
  · decide

theorem witness_AdmissionFollowsTheDriverState : State.reset.dstate = .idle ∧ failed.dstate = .error ∧ prog.Admitted ∧
    (machine 0 [] []).Admitted ∧ (stopped 4 .breakpoint).Admitted :=
  ⟨rfl, rfl, .inl rfl, .inr (.inl rfl), .inr (.inr rfl)⟩

theorem witness_PastTheProgramTheStepHalts :
    (loaded []).Admitted ∧ (loaded []).progEnd ≤ (loaded []).pc.toNat ∧
    (stopped 12 .pcPastProgram).Admitted ∧
    (stopped 12 .pcPastProgram).progEnd ≤ (stopped 12 .pcPastProgram).pc.toNat :=
  ⟨.inl rfl, by decide, .inr (.inr rfl), by decide⟩

theorem witness_FetchIsAlignedAndNeverOutOfBounds :
    (stopped 8 .breakpoint).Inv ∧ (stopped 8 .breakpoint).Admitted ∧
    (stopped 8 .breakpoint).pc.toNat < (stopped 8 .breakpoint).progEnd ∧ (stopped 8 .breakpoint).pc.toNat % 4 = 0 ∧
    (stopped 10 .budgetExhausted).Inv ∧ (stopped 10 .budgetExhausted).Admitted ∧
    (stopped 10 .budgetExhausted).pc.toNat < (stopped 10 .budgetExhausted).progEnd ∧
    (stopped 10 .budgetExhausted).pc.toNat % 4 ≠ 0 :=
  ⟨inv_of _ (by decide), .inr (.inr rfl), by decide, by decide, inv_of _ (by decide), .inr (.inr rfl), by decide, by decide⟩

theorem witness_IllegalWordsTakeIllegalInstruction :
    (stopped 8 .breakpoint).Admitted ∧ (stopped 8 .breakpoint).FetchesWord 0 ∧
    ∃ e, decode 0 = .error e := by
  refine ⟨.inr (.inr rfl), ?_, _, rfl⟩
  unfold State.FetchesWord
  decide

/-- A step into Error: at the zero word of `prog`, and at a misaligned pc. -/
theorem witness_FaultsArePreciseAndRecorded :
    (stopped 8 .breakpoint).Inv ∧ (nextOf (step (stopped 8 .breakpoint))).map State.dstate = some .error ∧
    (stopped 10 .breakpoint).Inv ∧ (nextOf (step (stopped 10 .breakpoint))).map State.dstate = some .error :=
  ⟨inv_of _ (by decide), by decide, inv_of _ (by decide), by decide⟩

theorem witness_StepsCountAndTraceWhatTheyExecute : prog.Inv ∧
    (nextOf (step prog)).map (fun t => (t.instructionsExecuted, t.trace)) =
      some (1, [{ pc := 0, word := 0x00100093, mnemonic := "ADDI", writes := [{ index := 1, old := 0, new := 1 }] }]) :=
  ⟨prog_inv, by decide⟩

/-- `jal x0, 16` leaves the program of `prog`, `jal x0, 2` stays inside it at a misaligned address. -/
theorem witness_BadTargetsStopTheNextStep : (Instr.jal 0 16).op ∈ controlOps ∧ prog.Admitted ∧
    (nextOf (exec (.jal 0 16) prog)).map (fun t => decide (t.progEnd ≤ t.pc.toNat)) = some true ∧
    (nextOf (exec (.jal 0 2) prog)).map (fun t => decide (t.pc.toNat < t.progEnd ∧ t.pc.toNat % 4 ≠ 0)) = some true :=
  ⟨by decide, .inl rfl, by decide, by decide⟩

/-- `sw x5, 4(x0)` at 0 with x5 the word of `addi x3, x0, 7`. -/
theorem witness_StoredInstructionRunsNext :
    Memory.wf (prog.setReg 5 0x00700193).mem ∧ (prog.setReg 5 0x00700193).Admitted ∧ (Instr.addi 3 0 7).WellFormed ∧
    (prog.setReg 5 0x00700193).reg 5 = encode (.addi 3 0 7) ∧
    (prog.setReg 5 0x00700193).reg 0 + 4 = (prog.setReg 5 0x00700193).pc + 4 ∧
    (nextOf (exec (.sw 0 5 4) (prog.setReg 5 0x00700193))).map
      (fun t => decide (t.dstate ≠ .error ∧ t.pc.toNat < t.progEnd)) = some true :=
  ⟨by decide, .inl rfl, by decide, by decide, by decide, by decide⟩

theorem witness_HaltedMachinesResume :
    (stopped 12 .pcPastProgram).Inv ∧ (stopped 12 .pcPastProgram).dstate = .halted ∧
    (stopped 12 .pcPastProgram).progEnd ≤ (stopped 12 .pcPastProgram).pc.toNat ∧
    (stopped 4 .budgetExhausted).Inv ∧ (stopped 4 .budgetExhausted).FetchesWord 0x00000073 ∧
    decode 0x00000073 = .ok .ecall ∧ (nextOf (exec .ecall prog)).isSome ∧ (nextOf (exec .ebreak prog)).isSome := by
  refine ⟨inv_of _ (by decide), rfl, by decide, inv_of _ (by decide), ?_, by decide, by decide, by decide⟩
  unfold State.FetchesWord
  decide

theorem witness_ErrorIsLeftOnlyByResetOrLoad : failed.dstate = .error ∧ (command .reset failed).1.dstate ≠ .error ∧
    (command (.load "ecall") failed).1.dstate ≠ .error := by decide

-- Run

theorem witness_RunIteratesStep : (loaded []).Admitted ∧ (loaded []).progEnd ≤ (loaded []).pc.toNat ∧
    prog.Admitted ∧ prog.pc.toNat < prog.progEnd :=
  ⟨.inl rfl, by decide, .inl rfl, by decide⟩

/-- With a budget of one `prog` ends by budget; with two, by its ECALL. -/
theorem witness_EveryRunEndsWithinItsBudget : prog.Admitted ∧ prog.error = none ∧
    (nextOf (runCommand 1 prog)).map State.haltReason = some (some .budgetExhausted) ∧
    (nextOf (runCommand 2 prog)).map State.haltReason = some (some .environmentCall) :=
  ⟨.inl rfl, rfl, by decide, by decide⟩

-- Load, assembler, host

/-- A memory of four bytes holds one word and not two. -/
theorem witness_LoadResetsAndPlacesTheProgram :
    assemble false "nop" = .error { kind := .unknownMnemonic, line := 1 } ∧
    assemble false "ecall" = .ok [0x00000073] ∧ 4 * [(0x00000073 : Word)].length ≤ 4 ∧
    assemble false "ecall\necall" = .ok [0x00000073, 0x00000073] ∧
    4 < 4 * [(0x00000073 : Word), 0x00000073].length := by decide

theorem witness_LabelsAreBoundToInstructionAddresses :
    (pass1 ["a:".toList, "b: ecall".toList, "end:".toList] 1 0 []).map (fun r => (r.1, r.2.length)) =
      .ok ([("end".toList, 4), ("b".toList, 0), ("a".toList, 0)], 1) ∧
    labelOf "b: ecall".toList = some "b".toList ∧
    (∀ t ∈ ["a: ecall".toList, "a:".toList], (parseLine t).isSome) ∧
    labelOf "a: ecall".toList = labelOf "a:".toList ∧ (labelOf "a:".toList).isSome := by decide

/-- Operands that parse, at and past the end of each position's range. -/
theorem witness_RangeChecksAreTheStatedRanges :
    opOfMnemonic "addi".toList = some .addi ∧
    parseOperands .regImm [] 0 ["x1".toList, "x0".toList, "2047".toList] = .ok ⟨1, 0, 0, 2047⟩ ∧
    parseOperands .regImm [] 0 ["x1".toList, "x0".toList, "2048".toList] = .ok ⟨1, 0, 0, 2048⟩ ∧
    parseOperands .load [] 0 ["x1".toList, "-2049(x2)".toList] = .ok ⟨1, 2, 0, -2049⟩ ∧
    parseOperands .shift [] 0 ["x1".toList, "x1".toList, "32".toList] = .ok ⟨1, 1, 0, 32⟩ ∧
    parseOperands .branch [] 0 ["x1".toList, "x2".toList, "4094".toList] = .ok ⟨0, 1, 2, 4094⟩ ∧
    parseOperands .jump [] 0 ["x1".toList, "5".toList] = .ok ⟨1, 0, 0, 5⟩ ∧
    parseOperands .upper [] 0 ["x1".toList, "524288".toList] = .ok ⟨1, 0, 0, 524288⟩ := by decide

theorem witness_AcceptedOperandsSurviveEncoding : immInRange false (Op.form .addi) (-2048) = true ∧
    immInRange false (Op.form .sw) 2047 = true ∧ immInRange false (Op.form .srai) 31 = true ∧
    immInRange false (Op.form .bgeu) (-4096) = true ∧ immInRange false (Op.form .jal) 1048574 = true ∧
    immInRange false (Op.form .lui) (-524288) = true ∧ immInRange true (Op.form .auipc) 1048575 = true := by decide

theorem witness_RegisterNamesAreTheStatedOnes : parseReg "x31".toList = some 31 ∧ parseReg "t6".toList = some 31 ∧
    isIdent "RA".toList = true ∧ parseReg "RA".toList = none ∧ parseReg "x00".toList = none := by decide

/-- Digits of each base, the hexadecimal ones in mixed case, and literals the last clause speaks of (R83). -/
theorem witness_LiteralsDenoteTheWrittenInteger : ([(15, true), (10, false)] : Digits) ≠ [] ∧
    digitsText [(15, true), (10, false)] = "Fa".toList ∧ parseLiteral "0xFa".toList = some 250 ∧
    (∀ d ∈ ([(9, false), (0, false)] : Digits), d.1.val < 10) ∧ parseLiteral "+90".toList = some 90 ∧
    parseLiteral "-90".toList = some (-90) ∧
    (∀ d ∈ ([(1, false), (0, false)] : Digits), d.1.val < 2) ∧ parseLiteral "0b10".toList = some 2 := by decide

-- Whole machine

theorem witness_ConstructionMeetsTheInvariant : Params.standard.Legal ∧
    ({ memSize := 4, asmUAcceptUnsigned := true } : Params).Legal ∧
    ({ memSize := 4294967296, asmUAcceptUnsigned := false } : Params).Legal := by decide

theorem witness_StepKeepsTheInvariant : prog.Inv ∧ (nextOf (step prog)).map State.dstate = some .running :=
  ⟨prog_inv, by decide⟩

theorem witness_ReachableStatesMeetTheInvariant : prog.Inv ∧
    (afterCommands [.load "addi x1, x0, 1\necall", .run 5] (State.construct smallParams)).Reachable :=
  ⟨prog_inv, smallParams, _, by decide, rfl⟩

theorem witness_HistoryIsObservationalOnly : prog ≠ { prog with instructionsExecuted := 7 } ∧
    prog.forgetHistory = State.forgetHistory { prog with instructionsExecuted := 7 } := by decide

theorem witness_PlacedWordRunsNext : State.reset.params.Legal ∧ Memory.wf State.reset.mem ∧
    (Instr.sw 1 2 0xFFFFF800).WellFormed := by decide

end Sys2Proof.Tests
end

section
/-! PROOFS. The register file and its constant zero (spec/10_state.md R11, R12). -/

namespace Sys2Proof.Machine

/-! ## The register file (R11) -/

/-- A write of x0 is discarded. -/
@[simp] theorem State.setReg_zero (s : State) (v : Word) : s.setReg 0 v = s := rfl

theorem State.reg_setReg_same (s : State) {r : Reg} (v : Word) (hr : r ≠ 0) : (s.setReg r v).reg r = v := by
  simp [State.reg_setReg, hr]

theorem State.reg_setReg_other (s : State) {r q : Reg} (v : Word) (hq : q ≠ r) :
    (s.setReg r v).reg q = s.reg q := by
  simp [State.reg_setReg, hq]

/-- Settles O7, by the read-after-write laws of the register file. -/
theorem registerFileReadsWhatWasWritten : Obligations.RegisterFileReadsWhatWasWritten := fun s _ _ v =>
  ⟨s.reg_zero, s.setReg_zero v, s.reg_setReg_same v, s.reg_setReg_other v, fun p => State.reg_construct p _⟩

/-! ## What rd can influence (R12)

An instruction with an rd computes a value and a next pc, or an error, before its rd matters at all. -/

/-- The effect of writing the value `p.1` to rd, storing nothing and going on at `p.2`. -/
def writeAndGo (rd : Reg) (p : Word × Word) : Effect :=
  { regWrite := some (rd, p.1), store := none, next := p.2, halt := none }

/-- A load writes the value of its access and goes on at `pc + 4`, or takes the error of its access. -/
theorem loadInstr_eq_finish (i : Instr) (n : Width) (ext : Word → Word) (rd rs1 : Reg) (imm : Word) (s : State) :
    loadInstr i n ext rd rs1 imm s =
      finish i (((s.loadValue n ext rs1 imm).map (·, s.pcNext)).map (writeAndGo rd)) s := by
  unfold loadInstr
  cases s.loadValue n ext rs1 imm <;> rfl

/-- The value and the next pc of an instruction with an rd, or the error it takes, are the same for every rd. -/
theorem exec_eq_finish_writeAndGo (op : Op) (rd rs1 rs2 : Reg) (imm : Word) (s : State)
    (hrd : (rdField (op.instr rd rs1 rs2 imm)).isSome) :
    ∃ result : Except ErrorKind (Word × Word), ∀ rd' : Reg, exec (op.instr rd' rs1 rs2 imm) s =
      finish (op.instr rd' rs1 rs2 imm) (result.map (writeAndGo rd')) s := by
  cases op with
  | sb | sh | sw | beq | bne | blt | bge | bltu | bgeu | ecall | ebreak => simp [rdField, Op.instr] at hrd
  | lb | lh | lw | lbu | lhu => exact ⟨_, fun rd' => loadInstr_eq_finish _ _ _ rd' rs1 imm s⟩
  | add | sub | and | or | xor | sll | srl | sra | slt | sltu
  | addi | andi | ori | xori | slti | sltiu | slli | srli | srai
  | lui | auipc => exact ⟨.ok (_, s.pcNext), fun _ => rfl⟩
  | jal | jalr => exact ⟨.ok (s.pcNext, _), fun _ => rfl⟩

/-- Completing an instruction whose effect is to write x0 writes no register. -/
theorem regsKept_commit_writeAndGo_zero (s : State) (i : Instr) (p : Word × Word) :
    RegsKept s (s.commit i (writeAndGo 0 p)) := by
  intro q
  rw [State.reg_commit_some s i _ 0 p.1 rfl]
  exact if_neg fun ⟨hz, hnz⟩ => hnz hz

/-- Settles O31: the outcome before the write-back is the same for every rd, and the write-back of x0 is no write. -/
theorem zeroDestinationOnlyDropsTheWrite : Obligations.ZeroDestinationOnlyDropsTheWrite := by
  intro op rd rs1 rs2 imm s t hrd ht
  obtain ⟨result, hexec⟩ := exec_eq_finish_writeAndGo op rd rs1 rs2 imm s hrd
  rw [hexec rd] at ht
  rw [hexec 0]
  cases result with
  | error k =>
    cases ht
    exact ⟨_, rfl, fun q => s.reg_raise k _ q, rfl, rfl, rfl, rfl, rfl⟩
  | ok p =>
    cases ht
    refine ⟨_, rfl, regsKept_commit_writeAndGo_zero s _ p, ?_⟩
    simp [writeAndGo, State.commit_dstate_none]

end Sys2Proof.Machine
end

section
/-! PROOFS. The bits and the ranges of the immediates (spec/30_encoding.md R53 to R57). -/

namespace Sys2Proof

/-! ## Bits

Each immediate is a concatenation of fields of the word, so its bit `k` is a bit of the field that
covers position `k`. -/

/-- A bit of a sign-extended field is the field's own bit, or the field's highest bit from there on. -/
theorem getLsbD_signExtend_word {n : Nat} (x : BitVec n) {k : Nat} (hk : k < 32) :
    (x.signExtend 32).getLsbD k = if k < n - 1 then x.getLsbD k else x.getLsbD (n - 1) := by
  rw [BitVec.getLsbD_signExtend, decide_eq_true hk, Bool.true_and, BitVec.msb_eq_getLsbD_last]
  by_cases hn : k < n - 1
  · rw [if_pos hn, if_pos (by omega)]
  · rw [if_neg hn]
    split
    · exact congrArg x.getLsbD (by omega)
    · rfl

theorem getLsbD_immI (w : Word) {k : Nat} (hk : k < 32) :
    (immI w).getLsbD k = if k < 11 then w.getLsbD (k + 20) else w.getLsbD 31 := by
  rw [immI, getLsbD_signExtend_word _ hk]
  simp only [BitVec.getLsbD_extractLsb']
  grind

theorem getLsbD_immS (w : Word) {k : Nat} (hk : k < 32) :
    (immS w).getLsbD k =
      if k < 5 then w.getLsbD (k + 7) else if k < 11 then w.getLsbD (k + 20) else w.getLsbD 31 := by
  rw [immS, getLsbD_signExtend_word _ hk]
  simp only [BitVec.getLsbD_append, BitVec.getLsbD_extractLsb']
  grind

theorem getLsbD_immB (w : Word) {k : Nat} (hk : k < 32) :
    (immB w).getLsbD k =
      if k = 0 then false else if k < 5 then w.getLsbD (k + 7) else if k < 11 then w.getLsbD (k + 20)
      else if k = 11 then w.getLsbD 7 else w.getLsbD 31 := by
  rw [immB, getLsbD_signExtend_word _ hk]
  simp only [BitVec.getLsbD_append, BitVec.getLsbD_extractLsb']
  grind

theorem getLsbD_immU (w : Word) {k : Nat} (hk : k < 32) :
    (immU w).getLsbD k = if k < 12 then false else w.getLsbD k := by
  simp only [immU, BitVec.getLsbD_append, BitVec.getLsbD_extractLsb']
  grind

theorem getLsbD_immJ (w : Word) {k : Nat} (hk : k < 32) :
    (immJ w).getLsbD k =
      if k = 0 then false else if k < 11 then w.getLsbD (k + 20) else if k = 11 then w.getLsbD 20
      else if k < 20 then w.getLsbD k else w.getLsbD 31 := by
  rw [immJ, getLsbD_signExtend_word _ hk]
  simp only [BitVec.getLsbD_append, BitVec.getLsbD_extractLsb']
  grind

/-! ## Ranges -/

/-- The range of a sign-extended field of twelve bits (R53, R54). -/
theorem toInt_signExtend12_bounds (x : BitVec 12) :
    -2048 ≤ (x.signExtend 32).toInt ∧ (x.signExtend 32).toInt ≤ 2047 := by
  rw [BitVec.toInt_signExtend_of_le (by decide)]
  exact ⟨x.le_toInt, Int.le_of_lt_add_one x.toInt_lt⟩

/-- The range of a sign-extended field of thirteen bits whose lowest is zero (R55). -/
theorem toInt_signExtend13_bounds (x : BitVec 12) :
    -4096 ≤ ((x ++ 0#1).signExtend 32).toInt ∧ ((x ++ 0#1).signExtend 32).toInt ≤ 4094 := by
  rw [BitVec.toInt_signExtend_of_le (by decide), BitVec.toInt_append_zero]
  have hlo := x.le_toInt
  have hhi := x.toInt_lt
  omega

/-- The range of a sign-extended field of twenty-one bits whose lowest is zero (R57). -/
theorem toInt_signExtend21_bounds (x : BitVec 20) :
    -1048576 ≤ ((x ++ 0#1).signExtend 32).toInt ∧ ((x ++ 0#1).signExtend 32).toInt ≤ 1048574 := by
  rw [BitVec.toInt_signExtend_of_le (by decide), BitVec.toInt_append_zero]
  have hlo := x.le_toInt
  have hhi := x.toInt_lt
  omega

/-- Settles O3, format by format: the bits from the pieces of each immediate, the ranges from its width. -/
theorem immediatesAreTheirScatteredBits : Obligations.ImmediatesAreTheirScatteredBits := fun w _ hk =>
  ⟨getLsbD_immI w hk, getLsbD_immS w hk, getLsbD_immB w hk, getLsbD_immU w hk, getLsbD_immJ w hk,
    toInt_signExtend12_bounds _, toInt_signExtend12_bounds _, toInt_signExtend13_bounds _,
    toInt_signExtend21_bounds _⟩

end Sys2Proof
end

section
/-! PROOFS. Which operation the selectors name (spec/30_encoding.md R60 to R64). -/

namespace Sys2Proof

/-! ## The opcode selects the family (R59) -/

theorem decode_of_opOp {w : Word} (h : opcodeOf w = opOp) : decode w = decodeOp w := by
  rw [decode, h]
  rfl

theorem decode_of_opOpImm {w : Word} (h : opcodeOf w = opOpImm) : decode w = decodeOpImm w := by
  rw [decode, h]
  rfl

theorem decode_of_opLoad {w : Word} (h : opcodeOf w = opLoad) : decode w = decodeLoad w := by
  rw [decode, h]
  rfl

theorem decode_of_opStore {w : Word} (h : opcodeOf w = opStore) : decode w = decodeStore w := by
  rw [decode, h]
  rfl

theorem decode_of_opBranch {w : Word} (h : opcodeOf w = opBranch) : decode w = decodeBranch w := by
  rw [decode, h]
  rfl

/-! ## Inside a family funct3 selects, and funct7 where the family has it -/

theorem funct3_cases (f : BitVec 3) : f = 0b000#3 ∨ f = 0b001#3 ∨ f = 0b010#3 ∨ f = 0b011#3 ∨ f = 0b100#3 ∨
    f = 0b101#3 ∨ f = 0b110#3 ∨ f = 0b111#3 := by
  revert f
  decide

/-- A pair of selectors whose funct7 differs from that of a table entry is not that entry's. -/
theorem selectors_beq_eq_false {f7 c : BitVec 7} (h : f7 ≠ c) (f3 g : BitVec 3) : ((f7, f3) == (c, g)) = false :=
  beq_false_of_ne fun heq => h (congrArg Prod.fst heq)

/-- R60. -/
theorem op_decodeOp (w : Word) : (decodeOp w).toOption.map Instr.op =
    [((0b0000000#7, 0b000#3), Op.add), ((0b0100000#7, 0b000#3), .sub), ((0b0000000#7, 0b001#3), .sll),
      ((0b0000000#7, 0b010#3), .slt), ((0b0000000#7, 0b011#3), .sltu), ((0b0000000#7, 0b100#3), .xor),
      ((0b0000000#7, 0b101#3), .srl), ((0b0100000#7, 0b101#3), .sra), ((0b0000000#7, 0b110#3), .or),
      ((0b0000000#7, 0b111#3), .and)].lookup (funct7Of w, funct3Of w) := by
  unfold decodeOp
  by_cases h0 : funct7Of w = 0b0000000#7
  · rcases funct3_cases (funct3Of w) with h | h | h | h | h | h | h | h <;> rw [h0, h] <;> rfl
  by_cases h32 : funct7Of w = 0b0100000#7
  · rcases funct3_cases (funct3Of w) with h | h | h | h | h | h | h | h <;> rw [h32, h] <;> rfl
  · simp only [if_neg h0, if_neg h32, List.lookup_cons, selectors_beq_eq_false h0, selectors_beq_eq_false h32]
    rfl

/-- R61. -/
theorem op_decodeOpImm (w : Word) : (decodeOpImm w).toOption.map Instr.op =
    if funct3Of w = 0b001#3 ∨ funct3Of w = 0b101#3 then
      [((0b0000000#7, 0b001#3), Op.slli), ((0b0000000#7, 0b101#3), .srli), ((0b0100000#7, 0b101#3), .srai)].lookup
        (funct7Of w, funct3Of w)
    else
      [(0b000#3, Op.addi), (0b010#3, .slti), (0b011#3, .sltiu), (0b100#3, .xori), (0b110#3, .ori),
        (0b111#3, .andi)].lookup (funct3Of w) := by
  unfold decodeOpImm
  by_cases h0 : funct7Of w = 0b0000000#7
  · rcases funct3_cases (funct3Of w) with h | h | h | h | h | h | h | h <;> rw [h0, h] <;> rfl
  by_cases h32 : funct7Of w = 0b0100000#7
  · rcases funct3_cases (funct3Of w) with h | h | h | h | h | h | h | h <;> rw [h32, h] <;> rfl
  · simp only [if_neg h0, if_neg h32, List.lookup_cons, selectors_beq_eq_false h0, selectors_beq_eq_false h32]
    rcases funct3_cases (funct3Of w) with h | h | h | h | h | h | h | h <;> rw [h] <;> rfl

/-- R62. -/
theorem op_decodeLoad (w : Word) : (decodeLoad w).toOption.map Instr.op =
    [(0b000#3, Op.lb), (0b001#3, .lh), (0b010#3, .lw), (0b100#3, .lbu), (0b101#3, .lhu)].lookup (funct3Of w) := by
  unfold decodeLoad
  rcases funct3_cases (funct3Of w) with h | h | h | h | h | h | h | h <;> rw [h] <;> rfl

/-- R63. -/
theorem op_decodeStore (w : Word) : (decodeStore w).toOption.map Instr.op =
    [(0b000#3, Op.sb), (0b001#3, .sh), (0b010#3, .sw)].lookup (funct3Of w) := by
  unfold decodeStore
  rcases funct3_cases (funct3Of w) with h | h | h | h | h | h | h | h <;> rw [h] <;> rfl

/-- R64. -/
theorem op_decodeBranch (w : Word) : (decodeBranch w).toOption.map Instr.op =
    [(0b000#3, Op.beq), (0b001#3, .bne), (0b100#3, .blt), (0b101#3, .bge), (0b110#3, .bltu),
      (0b111#3, .bgeu)].lookup (funct3Of w) := by
  unfold decodeBranch
  rcases funct3_cases (funct3Of w) with h | h | h | h | h | h | h | h <;> rw [h] <;> rfl

/-- Settles O5: the opcode selects the family, and the family's table the operation. -/
theorem selectorsDecideTheOperation : Obligations.SelectorsDecideTheOperation := fun w =>
  ⟨fun h => by rw [decode_of_opOp h, op_decodeOp], fun h => by rw [decode_of_opOpImm h, op_decodeOpImm],
    fun h => by rw [decode_of_opLoad h, op_decodeLoad], fun h => by rw [decode_of_opStore h, op_decodeStore],
    fun h => by rw [decode_of_opBranch h, op_decodeBranch]⟩

end Sys2Proof
end

section
/-! PROOFS. Pass 1 of the assembler (spec/30_encoding.md R81): addresses and labels. -/

namespace Sys2Proof.Machine

theorem SymTab.lookup_cons (d : Text) (addr : Nat) (syms : SymTab) (l : Text) :
    SymTab.lookup ((d, addr) :: syms) l = if d = l then some addr else syms.lookup l := by
  by_cases h : d = l <;> simp [SymTab.lookup, h]

/-- A declaration keeps what the symbol table bound and binds the label declared, if any, to its address. -/
theorem SymTab.lookup_declare {syms syms' : SymTab} {label : Option Text} {addr : Nat}
    (h : syms.declare label addr = some syms') (l : Text) (a : Nat) :
    syms'.lookup l = some a ↔ syms.lookup l = some a ∨ label = some l ∧ a = addr := by
  cases label with
  | none =>
    cases h
    simp
  | some d =>
    simp only [SymTab.declare] at h
    split at h
    · cases h
    · next hd =>
      cases h
      rw [SymTab.lookup_cons]
      split
      · next hl =>
        subst hl
        rw [Option.not_isSome_iff_eq_none.1 hd]
        simp [eq_comm]
      · next hl => simp [hl]

/-- Only a label that is not yet bound can be declared. -/
theorem SymTab.lookup_eq_none_of_declare {syms syms' : SymTab} {l : Text} {addr : Nat}
    (h : syms.declare (some l) addr = some syms') : syms.lookup l = none := by
  by_contra hl
  simp [SymTab.declare, Option.isSome_iff_ne_none.2 hl] at h

/-- The instruction of a statement, if it has one, as pass 1 lists it. -/
def Statement.sourceInstrs (st : Statement) (line addr : Nat) : List SourceInstr :=
  st.instr.toList.map fun i => { line := line, addr := addr, mnemonic := i.1, operands := i.2 }

/-- A statement's instructions, of which there is at most one, stand at the addresses from `addr` on. -/
theorem Statement.map_addr_sourceInstrs (st : Statement) (line addr : Nat) :
    (st.sourceInstrs line addr).map SourceInstr.addr = List.range' addr st.instr.toList.length 4 := by
  unfold Statement.sourceInstrs
  cases st.instr <;> rfl

@[simp] theorem instrsBefore_zero (lines : List Text) : instrsBefore lines 0 = 0 := rfl

theorem instrsBefore_cons {t : Text} {st : Statement} (ht : parseLine t = some st) (ts : List Text) (k : Nat) :
    instrsBefore (t :: ts) (k + 1) = st.instr.toList.length + instrsBefore ts k := by
  cases hi : st.instr <;> simp [instrsBefore, ht, hi, Nat.add_comm]

theorem labelOf_of_parseLine {t : Text} {st : Statement} (ht : parseLine t = some st) : labelOf t = st.label := by
  simp [labelOf, ht]

/-- A line whose label can be declared goes before the others: its label is declared and its instruction listed. -/
theorem pass1_cons {t : Text} {st : Statement} {addr : Nat} {syms syms' : SymTab} (ht : parseLine t = some st)
    (hd : syms.declare st.label addr = some syms') (ts : List Text) (line : Nat) :
    pass1 (t :: ts) line addr syms = (pass1 ts (line + 1) (addr + 4 * st.instr.toList.length) syms').map
      fun r => (r.1, st.sourceInstrs line addr ++ r.2) := by
  simp only [pass1, ht, hd, Statement.sourceInstrs]
  cases st.instr with
  | none => cases h : pass1 ts (line + 1) addr syms' <;> simp [h, Except.map]
  | some i => cases h : pass1 ts (line + 1) (addr + 4) syms' <;> simp [h, Except.map]

/-- Where pass 1 succeeds on a first line and the rest, the line fits a statement shape, its label was free, and pass 1
succeeds on the rest. -/
theorem pass1_cons_eq_ok {t : Text} {ts : List Text} {line addr : Nat} {syms all : SymTab} {is : List SourceInstr}
    (h : pass1 (t :: ts) line addr syms = .ok (all, is)) :
    ∃ st syms' is', parseLine t = some st ∧ syms.declare st.label addr = some syms' ∧
      pass1 ts (line + 1) (addr + 4 * st.instr.toList.length) syms' = .ok (all, is') ∧
      is = st.sourceInstrs line addr ++ is' := by
  cases ht : parseLine t with
  | none => simp [pass1, ht] at h
  | some st =>
    cases hd : syms.declare st.label addr with
    | none => simp [pass1, ht, hd] at h
    | some syms' =>
      rw [pass1_cons ht hd] at h
      cases hr : pass1 ts (line + 1) (addr + 4 * st.instr.toList.length) syms' with
      | error e => simp [hr, Except.map] at h
      | ok r =>
        rw [hr] at h
        cases h
        exact ⟨st, syms', r.2, rfl, hd, hr, rfl⟩

/-- The instructions of pass 1 stand four bytes apart, from the first address on. -/
theorem map_addr_of_pass1 {lines : List Text} {line addr : Nat} {syms all : SymTab} {is : List SourceInstr}
    (h : pass1 lines line addr syms = .ok (all, is)) :
    is.map SourceInstr.addr = List.range' addr (instrsBefore lines lines.length) 4 := by
  induction lines generalizing line addr syms is with
  | nil =>
    cases h
    rfl
  | cons t ts ih =>
    obtain ⟨st, syms', is', ht, -, hrest, rfl⟩ := pass1_cons_eq_ok h
    rw [List.map_append, st.map_addr_sourceInstrs, ih hrest, List.range'_append, List.length_cons,
      instrsBefore_cons ht]

/-- The symbol table of pass 1 binds what was bound before, and the label of each line to the address of the next
instruction. -/
theorem lookup_of_pass1 {lines : List Text} {line addr : Nat} {syms all : SymTab} {is : List SourceInstr}
    (h : pass1 lines line addr syms = .ok (all, is)) (l : Text) (a : Nat) :
    all.lookup l = some a ↔ syms.lookup l = some a ∨
      ∃ k, lines[k]?.bind labelOf = some l ∧ a = addr + 4 * instrsBefore lines k := by
  induction lines generalizing line addr syms is with
  | nil =>
    cases h
    simp
  | cons t ts ih =>
    obtain ⟨st, syms', is', ht, hd, hrest, -⟩ := pass1_cons_eq_ok h
    rw [ih hrest, SymTab.lookup_declare hd, or_assoc]
    simp [← Nat.or_exists_add_one (p := fun k => (t :: ts)[k]?.bind labelOf = some l ∧ _),
      instrsBefore_cons ht, labelOf_of_parseLine ht, Nat.mul_add, Nat.add_assoc]

/-- Where pass 1 succeeds, no line declares a label that was bound before. -/
theorem lookup_eq_none_of_pass1 {lines : List Text} {line addr : Nat} {syms all : SymTab} {is : List SourceInstr}
    (h : pass1 lines line addr syms = .ok (all, is)) {t : Text} (ht : t ∈ lines) {l : Text}
    (hl : labelOf t = some l) :
    syms.lookup l = none := by
  induction lines generalizing line addr syms is with
  | nil => cases ht
  | cons u us ih =>
    obtain ⟨st, syms', is', hu, hd, hrest, -⟩ := pass1_cons_eq_ok h
    cases ht with
    | head =>
      rw [labelOf_of_parseLine hu] at hl
      rw [hl] at hd
      exact SymTab.lookup_eq_none_of_declare hd
    | tail _ ht =>
      have hnone : syms'.lookup l = none := ih hrest ht
      rw [Option.eq_none_iff_forall_ne_some] at hnone ⊢
      exact fun a ha => hnone a ((SymTab.lookup_declare hd l a).2 (.inl ha))

/-- Where pass 1 succeeds, a line declares no label of an earlier line. -/
theorem pairwise_labels_of_pass1 {lines : List Text} {line addr : Nat} {syms all : SymTab} {is : List SourceInstr}
    (h : pass1 lines line addr syms = .ok (all, is)) :
    lines.Pairwise fun t u => ∀ l, labelOf t = some l → labelOf u ≠ some l := by
  induction lines generalizing line addr syms is with
  | nil => exact .nil
  | cons t ts ih =>
    obtain ⟨st, syms', is', ht, hd, hrest, -⟩ := pass1_cons_eq_ok h
    refine .cons (fun u hu l hl hul => ?_) (ih hrest)
    have hbound : syms'.lookup l = some addr :=
      (SymTab.lookup_declare hd l addr).2 (.inr ⟨labelOf_of_parseLine ht ▸ hl, rfl⟩)
    rw [lookup_eq_none_of_pass1 hrest hu hul] at hbound
    cases hbound

/-- Where pass 1 succeeds, two lines with one label are the same line. -/
theorem line_unique_of_pass1 {lines : List Text} {line addr : Nat} {syms all : SymTab} {is : List SourceInstr}
    (h : pass1 lines line addr syms = .ok (all, is)) {j k : Nat} (hj : j < lines.length) (hk : k < lines.length)
    {l : Text} (hjl : labelOf lines[j] = some l) (hkl : labelOf lines[k] = some l) : j = k := by
  have hpair := List.pairwise_iff_getElem.1 (pairwise_labels_of_pass1 h)
  rcases Nat.lt_trichotomy j k with hlt | heq | hgt
  · exact absurd hkl (hpair j k hj hk hlt l hjl)
  · exact heq
  · exact absurd hjl (hpair k j hk hj hgt l hkl)

/-- Where every line fits a statement shape, pass 1 succeeds or reports DuplicateLabel. -/
theorem pass1_ok_or_duplicateLabel {lines : List Text} (hlines : ∀ t ∈ lines, (parseLine t).isSome)
    (line addr : Nat) (syms : SymTab) :
    (∃ all is, pass1 lines line addr syms = .ok (all, is)) ∨
      ∃ n, pass1 lines line addr syms = .error { kind := .duplicateLabel, line := n } := by
  induction lines generalizing line addr syms with
  | nil => exact .inl ⟨syms, [], rfl⟩
  | cons t ts ih =>
    obtain ⟨⟨st, ht⟩, hts⟩ : (∃ st, parseLine t = some st) ∧ ∀ u ∈ ts, (parseLine u).isSome := by
      simpa [Option.isSome_iff_exists] using hlines
    cases hd : syms.declare st.label addr with
    | none => exact .inr ⟨line, by simp [pass1, ht, hd]⟩
    | some syms' =>
      rw [pass1_cons ht hd]
      rcases ih hts (line + 1) (addr + 4 * st.instr.toList.length) syms' with ⟨all, is, hok⟩ | ⟨n, herr⟩
      · exact .inl ⟨_, _, by rw [hok]; rfl⟩
      · exact .inr ⟨n, by rw [herr]; rfl⟩

/-- Settles O46, from the addresses and the symbol table of pass 1, each by induction on the lines. -/
theorem labelsAreBoundToInstructionAddresses : Obligations.LabelsAreBoundToInstructionAddresses := by
  intro lines
  refine ⟨fun syms is h => ?_, fun hlines ⟨j, k, hj, hk, hne, hsome, heq⟩ => ?_⟩
  · have haddr := map_addr_of_pass1 h
    have hlookup := lookup_of_pass1 h
    refine ⟨by simpa using congrArg List.length haddr, fun k hk => ?_, fun k hk l hl => ?_, fun l a hla => ?_,
      fun j k hj hk l => line_unique_of_pass1 h hj hk⟩
    · have hget := List.getElem_of_eq haddr (i := k) (by rwa [List.length_map])
      rwa [List.getElem_map, List.getElem_range', Nat.zero_add] at hget
    · exact (hlookup l _).2 (.inr ⟨k, by simp [hk, hl], by simp⟩)
    · obtain hno | ⟨k, hk, -⟩ := (hlookup l a).1 hla
      · cases hno
      · obtain ⟨t, ht, hl⟩ := Option.bind_eq_some_iff.1 hk
        obtain ⟨hk, rfl⟩ := List.getElem?_eq_some_iff.1 ht
        exact ⟨k, hk, hl⟩
  · obtain ⟨l, hl⟩ := Option.isSome_iff_exists.1 hsome
    obtain ⟨all, is, hok⟩ | hdup := pass1_ok_or_duplicateLabel hlines 1 0 []
    · exact absurd (line_unique_of_pass1 hok hj hk hl (heq ▸ hl)) hne
    · exact hdup

end Sys2Proof.Machine
end

section
/-! PROOFS. What completing an instruction changes (spec/40_instruction_cycle.md R105 to R107). -/

namespace Sys2Proof.Machine

theorem driverKept_commit (s : State) (i : Instr) (e : Effect) : DriverKept s (s.commit i e) :=
  ⟨s.commit_params i e, s.commit_progEnd i e, s.commit_error i e⟩

theorem notHalted_commit (s : State) (i : Instr) {e : Effect} (h : e.halt = none) : NotHalted s (s.commit i e) :=
  ⟨s.commit_halted_none i e h, s.commit_haltReason_none i e h, s.commit_dstate_none i e h⟩

theorem memKept_commit (s : State) (i : Instr) {e : Effect} (h : e.store = none) : MemKept s (s.commit i e) := by
  intro a
  rw [s.commit_mem, h, Option.getD_none]

/-- A trace entry lists at most the one register write of the effect, and x0 never (R21). -/
theorem mem_traceWrites {s : State} {w : Option (Reg × Word)} {x : RegWrite} (hx : x ∈ s.traceWrites w) :
    ∃ r v, w = some (r, v) ∧ r ≠ 0 ∧ x = { index := r, old := s.reg r, new := v } := by
  match w, hx with
  | some (r, v), hx =>
    by_cases hr : r = 0
    · simp [State.traceWrites, hr] at hx
    · exact ⟨r, v, rfl, hr, by simpa [State.traceWrites, hr] using hx⟩

/-- Every completed instruction is counted and traced (R107). -/
theorem recorded_commit (s : State) (i : Instr) (e : Effect) : Recorded i s (s.commit i e) := by
  refine ⟨s.commit_instructionsExecuted i e, _, s.commit_trace i e, rfl, fun _ => rfl, fun x hx => ?_⟩
  obtain ⟨r, v, hw, hr, rfl⟩ := mem_traceWrites hx
  exact ⟨rfl, by simp [s.reg_commit_some i e r v hw, hr]⟩

/-- An effect that writes rd, stores nothing and does not halt. -/
theorem writesReg_commit (s : State) (i : Instr) {e : Effect} {rd : Reg} {v : Word}
    (hw : e.regWrite = some (rd, v)) (hs : e.store = none) (hh : e.halt = none) :
    WritesReg i s (s.commit i e) rd v e.next :=
  ⟨s.reg_commit_some i e rd v hw, s.commit_pc i e, memKept_commit s i hs, driverKept_commit s i e,
    notHalted_commit s i hh, recorded_commit s i e⟩

/-- The completion that register-register, register-immediate and load instructions share. -/
theorem writesReg_commit_toReg (s : State) (i : Instr) (rd : Reg) (v : Word) :
    WritesReg i s (s.commit i (s.toReg rd v)) rd v (s.pc + 4) :=
  writesReg_commit s i rfl rfl rfl

end Sys2Proof.Machine
end

section
/-! PROOFS. Register-register instructions (spec/41_register_register.md R120 to R130). -/

namespace Sys2Proof.Machine

/-! ## What the operations compute -/

/-- The difference modulo 2^32, in integers (R122). -/
theorem toNat_sub_word (a b : Word) : ((a - b).toNat : Int) = ((a.toNat : Int) - (b.toNat : Int)) % 2 ^ 32 := by
  rw [BitVec.toNat_sub]
  omega

/-- The low five bits, as a number (R126). -/
theorem shiftAmount_eq_mod (v : Word) : shiftAmount v = v.toNat % 32 := by
  simp [shiftAmount, BitVec.extractLsb'_toNat]

theorem toNat_shiftLeft_shiftAmount (a b : Word) :
    (a <<< shiftAmount b).toNat = a.toNat * 2 ^ (b.toNat % 32) % 2 ^ 32 := by
  rw [BitVec.toNat_shiftLeft, Nat.shiftLeft_eq, shiftAmount_eq_mod]

theorem toNat_ushiftRight_shiftAmount (a b : Word) :
    (a >>> shiftAmount b).toNat = a.toNat / 2 ^ (b.toNat % 32) := by
  rw [BitVec.toNat_ushiftRight, Nat.shiftRight_eq_div_pow, shiftAmount_eq_mod]

/-- The arithmetic shift is division rounding toward minus infinity (R128). -/
theorem toInt_sshiftRight_shiftAmount (a b : Word) :
    (a.sshiftRight (shiftAmount b)).toInt = a.toInt / 2 ^ (b.toNat % 32) := by
  rw [BitVec.toInt_sshiftRight, Int.shiftRight_eq_div_pow, shiftAmount_eq_mod]
  norm_cast

theorem toNat_truthWord (c : Bool) : (truthWord c).toNat = if c then 1 else 0 := by
  cases c <;> rfl

theorem toNat_truthWord_ltSigned (a b : Word) :
    (truthWord (ltSigned a b)).toNat = if a.toInt < b.toInt then 1 else 0 := by
  simp only [toNat_truthWord, ltSigned, decide_eq_true_eq]

theorem toNat_truthWord_ltUnsigned (a b : Word) :
    (truthWord (ltUnsigned a b)).toNat = if a.toNat < b.toNat then 1 else 0 := by
  simp only [toNat_truthWord, ltUnsigned, decide_eq_true_eq]

/-! ## The rule of the family (R60, R120) -/

/-- The operations of the opcode OP (R60). -/
def regRegOps : List Op := [.add, .sub, .and, .or, .xor, .sll, .srl, .sra, .slt, .sltu]

/-- The decoder reads back every register-register instruction: the selectors name the operation, and the three
register fields hold the operands. -/
theorem decode_encode_regReg {op : Op} (hop : op ∈ regRegOps) (rd rs1 rs2 : Reg) (imm : Word) :
    decode (encode (op.instr rd rs1 rs2 imm)) = .ok (op.instr rd rs1 rs2 imm) := by
  have hfields (f7 : BitVec 7) (f3 : BitVec 3) := decode_of_opOp (opcodeOf_encR f7 f3 rd rs1 rs2)
  simp only [regRegOps, List.mem_cons, List.not_mem_nil, or_false] at hop
  rcases hop with rfl | rfl | rfl | rfl | rfl | rfl | rfl | rfl | rfl | rfl <;>
    simp [Op.instr, encode, hfields, decodeOp, funct7Of_encR, funct3Of_encR, rdOf_encR, rs1Of_encR, rs2Of_encR]

/-- An operation of the family that computes `f` follows the family's rule with any relation that `f` satisfies. Its
encoding and that it computes `f` are the definitions of `encode` and `exec`. -/
theorem regRegRule_of_regReg (op : Op) {f7 : BitVec 7} {f3 : BitVec 3} {res : Word → Word → Word → Prop}
    (f : Word → Word → Word) (hres : ∀ a b, res a b (f a b)) (hop : op ∈ regRegOps := by decide)
    (henc : ∀ rd rs1 rs2, encode (op.instr rd rs1 rs2 0) = wordR f7 rs2 rs1 f3 rd 0b0110011#7 := by intros; rfl)
    (hexec : ∀ rd rs1 rs2 s, exec (op.instr rd rs1 rs2 0) s = regReg (op.instr rd rs1 rs2 0) f rd rs1 rs2 s := by
      intros; rfl) :
    RegRegRule (fun rd rs1 rs2 => op.instr rd rs1 rs2 0) f7 f3 res := by
  intro rd rs1 rs2 s
  refine ⟨?_, _, f (s.reg rs1) (s.reg rs2), hexec rd rs1 rs2 s, hres _ _, writesReg_commit_toReg s _ rd _⟩
  rw [← henc, decode_encode_regReg hop]

/-! ## The obligations -/

/-- Settles O15, by what `+` and `-` are on words. -/
theorem addAndSubWrapModulo : Obligations.AddAndSubWrapModulo :=
  ⟨regRegRule_of_regReg .add (fun a b => a + b) BitVec.toNat_add,
    regRegRule_of_regReg .sub (fun a b => a - b) toNat_sub_word⟩

/-- Settles O16, by the bits of `&&&`, `|||` and `^^^`. -/
theorem bitwiseRegisterOperations : Obligations.BitwiseRegisterOperations :=
  ⟨regRegRule_of_regReg .and (fun a b => a &&& b) fun _ _ _ => BitVec.getLsbD_and,
    regRegRule_of_regReg .or (fun a b => a ||| b) fun _ _ _ => BitVec.getLsbD_or,
    regRegRule_of_regReg .xor (fun a b => a ^^^ b) fun _ _ _ => BitVec.getLsbD_xor⟩

/-- Settles O17, by the shift amount as a remainder and the shifts as products and quotients. -/
theorem registerShiftsUseFiveBits : Obligations.RegisterShiftsUseFiveBits :=
  ⟨regRegRule_of_regReg .sll (fun a b => a <<< shiftAmount b) toNat_shiftLeft_shiftAmount,
    regRegRule_of_regReg .srl (fun a b => a >>> shiftAmount b) toNat_ushiftRight_shiftAmount,
    regRegRule_of_regReg .sra (fun a b => a.sshiftRight (shiftAmount b)) toInt_sshiftRight_shiftAmount⟩

/-- Settles O18, by the value of a comparison's word. -/
theorem registerComparisonsWriteOneOrZero : Obligations.RegisterComparisonsWriteOneOrZero :=
  ⟨regRegRule_of_regReg .slt (fun a b => truthWord (ltSigned a b)) toNat_truthWord_ltSigned,
    regRegRule_of_regReg .sltu (fun a b => truthWord (ltUnsigned a b)) toNat_truthWord_ltUnsigned⟩

end Sys2Proof.Machine
end

section
/-! PROOFS. Register-immediate instructions (spec/42_register_immediate.md R140 to R149). -/

namespace Sys2Proof.Machine

/-! ## Words of format I (R52, R53) -/

/-- Sign extension leaves the low bits as they are. -/
theorem extractLsb'_zero_signExtend {n k : Nat} (x : BitVec n) (hk : k ≤ n) (hn : n ≤ 32) :
    (x.signExtend 32).extractLsb' 0 k = x.extractLsb' 0 k := by
  ext i hi
  simp [BitVec.getElem_signExtend, hi.trans_le hk, hi.trans_le (hk.trans hn)]

/-- A word of format I is the encoder's, of the sign-extended field. -/
theorem encI_signExtend (op : BitVec 7) (f3 : BitVec 3) (rd rs1 : Reg) (m : BitVec 12) :
    encI op f3 rd rs1 (m.signExtend 32) = wordI m rs1 f3 rd op := by
  rw [encI, extractLsb'_zero_signExtend m le_rfl (by decide), BitVec.extractLsb'_eq_self, wordI]

theorem immI_wordI (m : BitVec 12) (rs1 : Reg) (f3 : BitVec 3) (rd : Reg) (op : BitVec 7) :
    immI (wordI m rs1 f3 rd op) = m.signExtend 32 := by
  rw [← encI_signExtend, immI_encI, extractLsb'_zero_signExtend m le_rfl (by decide), BitVec.extractLsb'_eq_self]

/-- A shift's word is the encoder's, of the sign-extended funct7 and shift amount. -/
theorem encShift_signExtend (f7 : BitVec 7) (f3 : BitVec 3) (rd rs1 : Reg) (sh : BitVec 5) :
    encShift f7 f3 rd rs1 ((f7 ++ sh : BitVec 12).signExtend 32) = wordShift f7 sh rs1 f3 rd opOpImm := by
  rw [encShift, extractLsb'_zero_signExtend _ (by decide) (by decide), BitVec.extractLsb'_append_eq_right, wordShift]

theorem immI_wordShift (f7 : BitVec 7) (sh : BitVec 5) (rs1 : Reg) (f3 : BitVec 3) (rd : Reg) :
    immI (wordShift f7 sh rs1 f3 rd opOpImm) = (f7 ++ sh : BitVec 12).signExtend 32 := by
  rw [← encShift_signExtend, immI_encShift, extractLsb'_zero_signExtend _ (by decide) (by decide),
    BitVec.extractLsb'_append_eq_right]

/-! ## The rule of the family (R61, R140) -/

/-- The operations of the opcode OP-IMM (R61). -/
def regImmOps : List Op := [.addi, .andi, .ori, .xori, .slti, .sltiu, .slli, .srli, .srai]

/-- The decoder reads back every register-immediate instruction whose immediate is the `imm_I` of its word, for the
shifts too: the selectors name the operation, and the two register fields hold rd and rs1. -/
theorem decode_of_encode_regImm {op : Op} (hop : op ∈ regImmOps) {rd rs1 rs2 : Reg} {imm w : Word}
    (hw : encode (op.instr rd rs1 rs2 imm) = w) (himm : immI w = imm) :
    decode w = .ok (op.instr rd rs1 rs2 imm) := by
  subst hw
  have harith (f3 : BitVec 3) := decode_of_opOpImm (opcodeOf_encI opOpImm f3 rd rs1 imm)
  have hshift (f7 : BitVec 7) (f3 : BitVec 3) := decode_of_opOpImm (opcodeOf_encShift f7 f3 rd rs1 imm)
  simp only [regImmOps, List.mem_cons, List.not_mem_nil, or_false] at hop
  rcases hop with rfl | rfl | rfl | rfl | rfl | rfl | rfl | rfl | rfl
  all_goals
    simp only [Op.instr, encode] at himm ⊢
    simp [harith, hshift, decodeOpImm, himm, funct3Of_encI, rdOf_encI, rs1Of_encI, funct3Of_encShift,
      funct7Of_encShift, rdOf_encShift, rs1Of_encShift]

/-- An operation that computes `f` of x[rs1] and its immediate completes from every state, writing a value that any
relation `f` satisfies relates to the two. -/
theorem completes_of_regImm {op : Op} {f : Word → Word → Word} {res : Word → Word → Word → Prop}
    (hres : ∀ a b, res a b (f a b))
    (hexec : ∀ rd rs1 imm s, exec (op.instr rd rs1 0 imm) s = regImm (op.instr rd rs1 0 imm) f rd rs1 imm s)
    (rd rs1 : Reg) (imm : Word) (s : State) :
    ∃ t v, exec (op.instr rd rs1 0 imm) s = .next t ∧ res (s.reg rs1) imm v ∧
      WritesReg (op.instr rd rs1 0 imm) s t rd v (s.pc + 4) :=
  ⟨_, f (s.reg rs1) imm, hexec rd rs1 imm s, hres _ _, writesReg_commit_toReg s _ rd _⟩

/-- An operation of the family other than a shift that computes `f` follows its rule with any relation that `f`
satisfies. Its encoding and that it computes `f` are the definitions of `encode` and `exec`. -/
theorem regImmRule_of_regImm (op : Op) {f3 : BitVec 3} {res : Word → Word → Word → Prop} (f : Word → Word → Word)
    (hres : ∀ a b, res a b (f a b)) (hop : op ∈ regImmOps := by decide)
    (henc : ∀ rd rs1 imm, encode (op.instr rd rs1 0 imm) = encI opOpImm f3 rd rs1 imm := by intros; rfl)
    (hexec : ∀ rd rs1 imm s, exec (op.instr rd rs1 0 imm) s = regImm (op.instr rd rs1 0 imm) f rd rs1 imm s := by
      intros; rfl) :
    RegImmRule (fun rd rs1 imm => op.instr rd rs1 0 imm) f3 res :=
  ⟨fun rd rs1 m => decode_of_encode_regImm hop ((henc rd rs1 _).trans (encI_signExtend _ f3 rd rs1 m))
      (immI_wordI m rs1 f3 rd _),
    completes_of_regImm hres hexec⟩

/-- A shift that computes `f` follows its rule with any relation that `f` satisfies for the low five bits of the
immediate. -/
theorem shiftImmRule_of_regImm (op : Op) {f7 : BitVec 7} {f3 : BitVec 3} {res : Word → Nat → Word → Prop}
    (f : Word → Word → Word) (hres : ∀ a b, res a (b.toNat % 32) (f a b)) (hop : op ∈ regImmOps := by decide)
    (henc : ∀ rd rs1 imm, encode (op.instr rd rs1 0 imm) = encShift f7 f3 rd rs1 imm := by intros; rfl)
    (hexec : ∀ rd rs1 imm s, exec (op.instr rd rs1 0 imm) s = regImm (op.instr rd rs1 0 imm) f rd rs1 imm s := by
      intros; rfl) :
    ShiftImmRule (fun rd rs1 imm => op.instr rd rs1 0 imm) f7 f3 res :=
  ⟨fun rd rs1 sh => decode_of_encode_regImm hop ((henc rd rs1 _).trans (encShift_signExtend f7 f3 rd rs1 sh))
      (immI_wordShift f7 sh rs1 f3 rd),
    completes_of_regImm (res := fun a b => res a (b.toNat % 32)) hres hexec⟩

/-! ## The obligations -/

/-- Settles O19, by what `+` is on words and by the bits of `&&&`, `|||` and `^^^`. -/
theorem immediateArithmeticAndLogic : Obligations.ImmediateArithmeticAndLogic :=
  ⟨regImmRule_of_regImm .addi (fun a b => a + b) BitVec.toNat_add,
    regImmRule_of_regImm .andi (fun a b => a &&& b) fun _ _ _ => BitVec.getLsbD_and,
    regImmRule_of_regImm .ori (fun a b => a ||| b) fun _ _ _ => BitVec.getLsbD_or,
    regImmRule_of_regImm .xori (fun a b => a ^^^ b) fun _ _ _ => BitVec.getLsbD_xor⟩

/-- Settles O20, by the value of a comparison's word. -/
theorem immediateComparisons : Obligations.ImmediateComparisons :=
  ⟨regImmRule_of_regImm .slti (fun a b => truthWord (ltSigned a b)) toNat_truthWord_ltSigned,
    regImmRule_of_regImm .sltiu (fun a b => truthWord (ltUnsigned a b)) toNat_truthWord_ltUnsigned⟩

/-- Settles O21, by the shift amount as a remainder and the shifts as products and quotients. -/
theorem immediateShifts : Obligations.ImmediateShifts :=
  ⟨shiftImmRule_of_regImm .slli (fun a b => a <<< shiftAmount b) toNat_shiftLeft_shiftAmount,
    shiftImmRule_of_regImm .srli (fun a b => a >>> shiftAmount b) toNat_ushiftRight_shiftAmount,
    shiftImmRule_of_regImm .srai (fun a b => a.sshiftRight (shiftAmount b)) toInt_sshiftRight_shiftAmount⟩

end Sys2Proof.Machine
end

section
/-! PROOFS. What an instruction whose access fails its tests ends in (spec/20_memory.md R34 to R37;
spec/60_exceptions.md R226). -/

namespace Sys2Proof.Machine

/-- Raising an error writes the record and the driver state, and nothing else. -/
theorem takesError_raise (s : State) (k : ErrorKind) (w : Option Word) : TakesError s (s.raise k w) k w :=
  ⟨rfl, rfl, rfl, s.reg_raise k w, fun _ => rfl, rfl, rfl, rfl, rfl, rfl, rfl⟩

theorem faultsAs_raise (i : Instr) (s : State) (k : ErrorKind) : FaultsAs i s (s.raise k (some (encode i))) k :=
  ⟨encode i, takesError_raise s k _, fun _ => rfl⟩

/-- An instruction that raises the error of its access's tests faults as the access says. -/
theorem faultingAccess_of_raises {i : Instr} {s : State} {addr : Word} {n : Width}
    (hraise : ∀ k, checkAccess s.params.memSize addr n = some k → exec i s = .next (s.raise k (some (encode i)))) :
    FaultingAccess i s addr.toNat n.bytes :=
  ⟨fun haligned hout => ⟨_, hraise _ (checkAccess_outside haligned hout), faultsAs_raise i s _⟩,
    fun hmis _ => ⟨_, hraise _ (checkAccess_misaligned hmis), faultsAs_raise i s _⟩,
    fun hmis _ => ⟨_, hraise _ (checkAccess_misaligned hmis), .inl (faultsAs_raise i s _)⟩⟩

end Sys2Proof.Machine
end

section
/-! PROOFS. Loads (spec/43_loads.md R160 to R165). -/

namespace Sys2Proof.Machine

/-! ## The values loaded -/

/-- The byte put in front is the more significant one (R32). -/
theorem toNat_append_byte {n : Nat} (x : BitVec n) (b : Byte) : (x ++ b).toNat = b.toNat + 256 * x.toNat := by
  rw [BitVec.toNat_append, ← Nat.shiftLeft_add_eq_or_of_lt b.isLt, Nat.shiftLeft_eq]
  omega

/-- Zero-extended to a word and sign-extended again from its own width, a value keeps its sign. -/
theorem toInt_signExtend_extractLsb'_setWidth {n : Nat} (x : BitVec n) (hn : n ≤ 32) :
    (((x.setWidth 32).extractLsb' 0 n).signExtend 32).toInt = x.toInt := by
  rw [BitVec.toInt_signExtend_of_le hn, BitVec.extractLsb'_setWidth_of_le (by omega), BitVec.extractLsb'_eq_self]

theorem toInt_sextByte_readLE (m : Memory) (a : Nat) : (sextByte (m.readLE a .byte)).toInt = (m.read a).toInt :=
  toInt_signExtend_extractLsb'_setWidth (m.read a) (by decide)

theorem toInt_sextHalf_readLE (m : Memory) (a : Nat) :
    (sextHalf (m.readLE a .half)).toInt = (m.read (a + 1) ++ m.read a).toInt :=
  toInt_signExtend_extractLsb'_setWidth (m.read (a + 1) ++ m.read a) (by decide)

theorem toNat_readLE_byte (m : Memory) (a : Nat) : (m.readLE a .byte).toNat = (m.read a).toNat :=
  BitVec.toNat_setWidth_of_le (by decide)

theorem toNat_readLE_half (m : Memory) (a : Nat) :
    (m.readLE a .half).toNat = (m.read a).toNat + 256 * (m.read (a + 1)).toNat :=
  (BitVec.toNat_setWidth_of_le (by decide)).trans (toNat_append_byte _ _)

theorem toNat_readLE_word (m : Memory) (a : Nat) :
    (m.readLE a .word).toNat = (m.read a).toNat + 256 * (m.read (a + 1)).toNat
      + 65536 * (m.read (a + 2)).toNat + 16777216 * (m.read (a + 3)).toNat := by
  have hword : m.readLE a .word = m.read (a + 3) ++ m.read (a + 2) ++ m.read (a + 1) ++ m.read a := rfl
  rw [hword, toNat_append_byte, toNat_append_byte, toNat_append_byte]
  ring

/-! ## The rule of the family (R62, R160) -/

/-- The operations of the opcode LOAD (R62). -/
def loadOps : List Op := [.lb, .lh, .lw, .lbu, .lhu]

/-- The decoder reads back every load whose immediate is the `imm_I` of its word: funct3 names the operation, and the
two register fields hold rd and rs1. -/
theorem decode_of_encode_load {op : Op} (hop : op ∈ loadOps) {rd rs1 rs2 : Reg} {imm w : Word}
    (hw : encode (op.instr rd rs1 rs2 imm) = w) (himm : immI w = imm) :
    decode w = .ok (op.instr rd rs1 rs2 imm) := by
  subst hw
  have hfields (f3 : BitVec 3) := decode_of_opLoad (opcodeOf_encI opLoad f3 rd rs1 imm)
  simp only [loadOps, List.mem_cons, List.not_mem_nil, or_false] at hop
  rcases hop with rfl | rfl | rfl | rfl | rfl
  all_goals
    simp only [Op.instr, encode] at himm ⊢
    simp [hfields, decodeLoad, himm, funct3Of_encI, rdOf_encI, rs1Of_encI]

/-- Where its access passes the tests, a load writes the extension of the value read. -/
theorem loadInstr_of_passes {i : Instr} {n : Width} {ext : Word → Word} {rd rs1 : Reg} {imm : Word} {s : State}
    (hpass : checkAccess s.params.memSize (s.effAddr rs1 imm) n = none) :
    loadInstr i n ext rd rs1 imm s =
      .next (s.commit i (s.toReg rd (ext (s.mem.readLE (s.effAddr rs1 imm).toNat n)))) := by
  simp [loadInstr, State.loadValue, State.memRead, hpass, finish]

/-- Where its access fails the tests, a load takes their error. -/
theorem loadInstr_of_fails {i : Instr} {n : Width} {ext : Word → Word} {rd rs1 : Reg} {imm : Word} {s : State}
    {k : ErrorKind} (hfail : checkAccess s.params.memSize (s.effAddr rs1 imm) n = some k) :
    loadInstr i n ext rd rs1 imm s = .next (s.raise k (some (encode i))) := by
  simp [loadInstr, State.loadValue, State.memRead, hfail, finish]

/-- An operation that reads `n` bytes and extends them by `ext` follows the family's rule with any relation that the
extended value satisfies. Its encoding, and that it is the load of that width and extension, are the definitions of
`encode` and `exec`. -/
theorem loadRule_of_load (op : Op) {f3 : BitVec 3} {res : Memory → Nat → Word → Prop} (n : Width) (ext : Word → Word)
    (hres : ∀ m a, res m a (ext (m.readLE a n))) (hop : op ∈ loadOps := by decide)
    (henc : ∀ rd rs1 imm, encode (op.instr rd rs1 0 imm) = encI opLoad f3 rd rs1 imm := by intros; rfl)
    (hexec : ∀ rd rs1 imm s, exec (op.instr rd rs1 0 imm) s = loadInstr (op.instr rd rs1 0 imm) n ext rd rs1 imm s := by
      intros; rfl) :
    LoadRule (fun rd rs1 imm => op.instr rd rs1 0 imm) f3 n.bytes res :=
  ⟨fun rd rs1 m => decode_of_encode_load hop ((henc rd rs1 _).trans (encI_signExtend _ f3 rd rs1 m))
      (immI_wordI m rs1 f3 rd _),
    fun rd rs1 imm s =>
      ⟨fun haligned hin =>
        ⟨_, _, (hexec rd rs1 imm s).trans (loadInstr_of_passes (checkAccess_eq_none.mpr ⟨haligned, hin⟩)), hres _ _,
          writesReg_commit_toReg s _ rd _⟩,
      faultingAccess_of_raises fun _ hk => (hexec rd rs1 imm s).trans (loadInstr_of_fails hk)⟩⟩

/-! ## The obligations -/

/-- Settles O22, by the sign and the value of the byte read. -/
theorem byteLoadsExtend : Obligations.ByteLoadsExtend :=
  ⟨loadRule_of_load .lb .byte sextByte toInt_sextByte_readLE,
    loadRule_of_load .lbu .byte (fun v => v) toNat_readLE_byte⟩

/-- Settles O23, by the sign and the value of the bytes read, the least significant at the lowest address. -/
theorem halfAndWordLoadsExtend : Obligations.HalfAndWordLoadsExtend :=
  ⟨loadRule_of_load .lh .half sextHalf toInt_sextHalf_readLE,
    loadRule_of_load .lhu .half (fun v => v) toNat_readLE_half,
    loadRule_of_load .lw .word (fun v => v) toNat_readLE_word⟩

end Sys2Proof.Machine
end

section
/-! PROOFS. Stores (spec/44_stores.md R170 to R173). -/

namespace Sys2Proof.Machine

/-! ## Words of format S (R52, R54) -/

/-- Sign extension leaves every field inside the value as it is. -/
theorem extractLsb'_signExtend {n : Nat} (x : BitVec n) {lo len : Nat} (hlen : lo + len ≤ n) (hn : n ≤ 32) :
    (x.signExtend 32).extractLsb' lo len = x.extractLsb' lo len := by
  ext k hk
  have hin : lo + k < n := by omega
  simp [BitVec.getElem_signExtend, hin, hin.trans_le hn]

/-- A word of format S is the encoder's, of the sign-extended field. -/
theorem encS_signExtend (f3 : BitVec 3) (rs1 rs2 : Reg) (m : BitVec 12) :
    encS f3 rs1 rs2 (m.signExtend 32) = wordS m rs2 rs1 f3 opStore := by
  rw [encS, extractLsb'_signExtend m (by decide) (by decide), extractLsb'_signExtend m (by decide) (by decide), wordS]

theorem immS_wordS (m : BitVec 12) (rs2 rs1 : Reg) (f3 : BitVec 3) :
    immS (wordS m rs2 rs1 f3 opStore) = m.signExtend 32 := by
  rw [← encS_signExtend, immS_encS, extractLsb'_signExtend m (by decide) (by decide), BitVec.extractLsb'_eq_self]

/-! ## The bytes stored (R32, R39) -/

/-- After the low bytes of `v` are written at `a`, byte k of them is bits 8k+7 .. 8k of `v`. -/
theorem Memory.read_writeBytes_bytesLE {m : Memory} (hm : m.wf) (a : Nat) {n : Width} (v : Word) {k : Nat}
    (hk : k < n.bytes) : (m.writeBytes a (bytesLE n v)).read (a + k) = v.extractLsb' (8 * k) 8 := by
  have hlen := length_bytesLE n v
  rw [Memory.read_writeBytes m hm, dif_pos ⟨by omega, by omega⟩, getElem_bytesLE, Nat.add_sub_cancel_left]

/-- The completion that the stores share: an effect that writes no register, stores the low bytes of `v` at `a`, goes
on at `pc + 4` and does not halt. -/
theorem storesBytes_commit {s : State} (hmem : s.mem.wf) (i : Instr) {e : Effect} {a : Nat} {n : Width} {v : Word}
    (hw : e.regWrite = none) (hs : e.store = some (s.mem.writeBytes a (bytesLE n v))) (hnext : e.next = s.pc + 4)
    (hh : e.halt = none) : StoresBytes i s (s.commit i e) a n.bytes v := by
  have hcommit : (s.commit i e).mem = s.mem.writeBytes a (bytesLE n v) := by rw [s.commit_mem, hs, Option.getD_some]
  refine ⟨fun k hk => ?_, fun x hx => ?_, s.reg_commit_none i e hw, (s.commit_pc i e).trans hnext,
    driverKept_commit s i e, notHalted_commit s i hh, recorded_commit s i e⟩
  · rw [hcommit, Memory.read_writeBytes_bytesLE hmem a v hk]
  · rw [hcommit, Memory.read_writeBytes_outside _ a x _ (by rwa [length_bytesLE])]

/-! ## The rule of the family (R63, R170) -/

/-- The decoder reads back every store whose immediate is the `imm_S` of its word: funct3 names the operation, and the
two register fields hold rs1 and rs2. -/
theorem decode_of_encode_store {op : Op} (hop : op ∈ storeOps) {rd rs1 rs2 : Reg} {imm w : Word}
    (hw : encode (op.instr rd rs1 rs2 imm) = w) (himm : immS w = imm) :
    decode w = .ok (op.instr rd rs1 rs2 imm) := by
  subst hw
  have hfields (f3 : BitVec 3) := decode_of_opStore (opcodeOf_encS f3 rs1 rs2 imm)
  simp only [storeOps, List.mem_cons, List.not_mem_nil, or_false] at hop
  rcases hop with rfl | rfl | rfl
  all_goals
    simp only [Op.instr, encode] at himm ⊢
    simp [hfields, decodeStore, himm, funct3Of_encS, rs1Of_encS, rs2Of_encS]

/-- Where its access passes the tests, a store completes with the low bytes of x[rs2] stored. -/
theorem storeInstr_of_passes {n : Width} {rs1 rs2 : Reg} {imm : Word} {s : State} (hmem : s.mem.wf) (i : Instr)
    (hpass : checkAccess s.params.memSize (s.effAddr rs1 imm) n = none) :
    ∃ t, storeInstr i n rs1 rs2 imm s = .next t ∧
      StoresBytes i s t (s.effAddr rs1 imm).toNat n.bytes (s.reg rs2) := by
  rcases storeInstr_cases i n rs1 rs2 imm s with ⟨-, hstore⟩ | ⟨k, hfail, -⟩
  · exact ⟨_, hstore, storesBytes_commit hmem i rfl rfl rfl rfl⟩
  · cases hpass.symm.trans hfail

/-- Where its access fails the tests, a store takes their error. -/
theorem storeInstr_of_fails {i : Instr} {n : Width} {rs1 rs2 : Reg} {imm : Word} {s : State} {k : ErrorKind}
    (hfail : checkAccess s.params.memSize (s.effAddr rs1 imm) n = some k) :
    storeInstr i n rs1 rs2 imm s = .next (s.raise k (some (encode i))) := by
  rcases storeInstr_cases i n rs1 rs2 imm s with ⟨hpass, -⟩ | ⟨k', hfail', hstore⟩
  · cases hpass.symm.trans hfail
  · cases hfail.symm.trans hfail'
    exact hstore

/-- An operation that stores `n` bytes follows the family's rule. Its encoding, and that it is the store of that width,
are the definitions of `encode` and `exec`. -/
theorem storeRule_of_store (op : Op) {f3 : BitVec 3} (n : Width) (hop : op ∈ storeOps := by decide)
    (henc : ∀ rs1 rs2 imm, encode (op.instr 0 rs1 rs2 imm) = encS f3 rs1 rs2 imm := by intros; rfl)
    (hexec : ∀ rs1 rs2 imm s,
      exec (op.instr 0 rs1 rs2 imm) s = storeInstr (op.instr 0 rs1 rs2 imm) n rs1 rs2 imm s := by intros; rfl) :
    StoreRule (fun rs1 rs2 imm => op.instr 0 rs1 rs2 imm) f3 n.bytes := by
  refine ⟨fun rs1 rs2 m => decode_of_encode_store hop ((henc rs1 rs2 _).trans (encS_signExtend f3 rs1 rs2 m))
    (immS_wordS m rs2 rs1 f3), fun rs1 rs2 imm s hmem => ⟨fun haligned hin => ?_, ?_⟩⟩
  · rw [hexec]
    exact storeInstr_of_passes hmem _ (checkAccess_eq_none.mpr ⟨haligned, hin⟩)
  · exact faultingAccess_of_raises fun _ hk => (hexec rs1 rs2 imm s).trans (storeInstr_of_fails hk)

/-! ## The obligation -/

/-- Settles O24, by the bytes written at the effective address and those outside them. -/
theorem storesWriteTheLowBytes : Obligations.StoresWriteTheLowBytes :=
  ⟨storeRule_of_store .sb .byte, storeRule_of_store .sh .half, storeRule_of_store .sw .word⟩

end Sys2Proof.Machine
end

section
/-! PROOFS. Conditional branches (spec/45_branches.md R180 to R186). -/

namespace Sys2Proof.Machine

/-! ## Words of format B (R52, R55) -/

/-- A word of format B is the encoder's, of the sign-extended field. -/
theorem encB_signExtend (f3 : BitVec 3) (rs1 rs2 : Reg) (m : BitVec 13) :
    encB f3 rs1 rs2 (m.signExtend 32) = wordB m rs2 rs1 f3 opBranch := by
  simp [encB, wordB, extractLsb'_signExtend m]

theorem immB_wordB (m : BitVec 12) (rs2 rs1 : Reg) (f3 : BitVec 3) :
    immB (wordB (m ++ 0#1) rs2 rs1 f3 opBranch) = (m ++ 0#1 : BitVec 13).signExtend 32 := by
  rw [← encB_signExtend, immB_encB, extractLsb'_signExtend _ (by decide) (by decide),
    BitVec.extractLsb'_append_eq_left]

/-! ## The conditions (R6, R181 to R186) -/

/-- Two words are equal where all their bits are (R181). -/
theorem eq_iff_forall_getLsbD (a b : Word) : a = b ↔ ∀ k, a.getLsbD k = b.getLsbD k :=
  ⟨fun h _ => h ▸ rfl, fun h => BitVec.eq_of_getLsbD_eq fun k _ => h k⟩

theorem ne_iff_exists_getLsbD (a b : Word) : a ≠ b ↔ ∃ k, a.getLsbD k ≠ b.getLsbD k := by
  rw [Ne, eq_iff_forall_getLsbD, not_forall]

theorem ltSigned_iff (a b : Word) : ltSigned a b = true ↔ a.toInt < b.toInt := decide_eq_true_iff

theorem ltUnsigned_iff (a b : Word) : ltUnsigned a b = true ↔ a.toNat < b.toNat := decide_eq_true_iff

theorem not_ltSigned_iff (a b : Word) : (!ltSigned a b) = true ↔ b.toInt ≤ a.toInt := by
  rw [Bool.not_eq_true', ← Bool.not_eq_true, ltSigned_iff, not_lt]

theorem not_ltUnsigned_iff (a b : Word) : (!ltUnsigned a b) = true ↔ b.toNat ≤ a.toNat := by
  rw [Bool.not_eq_true', ← Bool.not_eq_true, ltUnsigned_iff, not_lt]

/-! ## Where a branch goes on (R180) -/

theorem State.branchTo_of_holds (s : State) {c : Bool} (imm : Word) (hc : c = true) :
    s.branchTo c imm = s.pc + imm := if_pos hc

theorem State.branchTo_of_fails (s : State) {c : Bool} (imm : Word) (hc : ¬ c = true) :
    s.branchTo c imm = s.pc + 4 := if_neg hc

/-- The completion that the branches share: an effect that only goes on at `next`. -/
theorem onlyGoesTo_commit_goTo (s : State) (i : Instr) (next : Word) :
    OnlyGoesTo i s (s.commit i (goTo next)) next :=
  ⟨s.reg_commit_none i _ rfl, s.commit_pc i _, memKept_commit s i rfl, driverKept_commit s i _,
    notHalted_commit s i rfl, recorded_commit s i _⟩

/-! ## The rule of the family (R64, R180) -/

/-- The operations of the opcode BRANCH (R64). -/
def branchOps : List Op := [.beq, .bne, .blt, .bge, .bltu, .bgeu]

/-- The decoder reads back every branch whose immediate is the `imm_B` of its word: funct3 names the operation, and the
two register fields hold rs1 and rs2. -/
theorem decode_of_encode_branch {op : Op} (hop : op ∈ branchOps) {rd rs1 rs2 : Reg} {imm w : Word}
    (hw : encode (op.instr rd rs1 rs2 imm) = w) (himm : immB w = imm) :
    decode w = .ok (op.instr rd rs1 rs2 imm) := by
  subst hw
  have hfields (f3 : BitVec 3) := decode_of_opBranch (opcodeOf_encB f3 rs1 rs2 imm)
  simp only [branchOps, List.mem_cons, List.not_mem_nil, or_false] at hop
  rcases hop with rfl | rfl | rfl | rfl | rfl | rfl
  all_goals
    simp only [Op.instr, encode] at himm ⊢
    simp [hfields, decodeBranch, himm, funct3Of_encB, rs1Of_encB, rs2Of_encB]

/-- A branch that decides by `test` follows the family's rule with the condition that `test` decides. Its encoding, and
that it decides by `test`, are the definitions of `encode` and `exec`. -/
theorem branchRule_of_branch (op : Op) {f3 : BitVec 3} {cond : Word → Word → Prop} (test : Word → Word → Bool)
    (htest : ∀ a b, test a b = true ↔ cond a b) (hop : op ∈ branchOps := by decide)
    (henc : ∀ rs1 rs2 imm, encode (op.instr 0 rs1 rs2 imm) = encB f3 rs1 rs2 imm := by intros; rfl)
    (hexec : ∀ rs1 rs2 imm s,
      exec (op.instr 0 rs1 rs2 imm) s = branchInstr (op.instr 0 rs1 rs2 imm) test rs1 rs2 imm s := by intros; rfl) :
    BranchRule (fun rs1 rs2 imm => op.instr 0 rs1 rs2 imm) f3 cond :=
  ⟨fun rs1 rs2 m => decode_of_encode_branch hop ((henc rs1 rs2 _).trans (encB_signExtend f3 rs1 rs2 _))
      (immB_wordB m rs2 rs1 f3),
    fun rs1 rs2 imm s =>
      ⟨_, _, hexec rs1 rs2 imm s, onlyGoesTo_commit_goTo s _ _,
        fun hcond => s.branchTo_of_holds imm ((htest _ _).mpr hcond),
        fun hcond => s.branchTo_of_fails imm (mt (htest _ _).mp hcond)⟩⟩

/-! ## The obligation -/

/-- Settles O25, by what each branch's test says of the bits or the values of the two registers. -/
theorem branchesGoByTheirCondition : Obligations.BranchesGoByTheirCondition :=
  ⟨branchRule_of_branch .beq (fun a b => decide (a = b)) fun a b =>
      decide_eq_true_iff.trans (eq_iff_forall_getLsbD a b),
    branchRule_of_branch .bne (fun a b => decide (a ≠ b)) fun a b =>
      decide_eq_true_iff.trans (ne_iff_exists_getLsbD a b),
    branchRule_of_branch .blt (fun a b => ltSigned a b) ltSigned_iff,
    branchRule_of_branch .bge (fun a b => !ltSigned a b) not_ltSigned_iff,
    branchRule_of_branch .bltu (fun a b => ltUnsigned a b) ltUnsigned_iff,
    branchRule_of_branch .bgeu (fun a b => !ltUnsigned a b) not_ltUnsigned_iff⟩

end Sys2Proof.Machine
end

section
/-! PROOFS. Upper immediates (spec/47_upper_immediate.md R200, R201). -/

namespace Sys2Proof.Machine

/-! ## Words of format U (R52, R56) -/

/-- A word of format U is the encoder's, of the immediate with the field in its upper bits. -/
theorem encU_append_zero (op : BitVec 7) (rd : Reg) (m : BitVec 20) : encU op rd (m ++ 0#12) = wordU m rd op := by
  rw [encU, BitVec.extractLsb'_append_eq_left, wordU]

theorem opcodeOf_wordU (m : BitVec 20) (rd : Reg) (op : BitVec 7) : opcodeOf (wordU m rd op) = op := by
  rw [← encU_append_zero, opcodeOf_encU]

theorem rdOf_wordU (m : BitVec 20) (rd : Reg) (op : BitVec 7) : rdOf (wordU m rd op) = rd := by
  rw [← encU_append_zero, rdOf_encU]

theorem immU_wordU (m : BitVec 20) (rd : Reg) (op : BitVec 7) : immU (wordU m rd op) = m ++ 0#12 := by
  rw [← encU_append_zero, immU_encU, BitVec.extractLsb'_append_eq_left]

/-! ## The opcode names the operation (R59): no selector restricts the 20-bit field -/

theorem decode_of_opLui {w : Word} (h : opcodeOf w = opLui) : decode w = .ok (.lui (rdOf w) (immU w)) := by
  rw [decode, h]
  rfl

theorem decode_of_opAuipc {w : Word} (h : opcodeOf w = opAuipc) : decode w = .ok (.auipc (rdOf w) (immU w)) := by
  rw [decode, h]
  rfl

theorem decode_wordU_opLui (rd : Reg) (m : BitVec 20) : decode (wordU m rd opLui) = .ok (.lui rd (m ++ 0#12)) := by
  rw [decode_of_opLui (opcodeOf_wordU m rd opLui), rdOf_wordU, immU_wordU]

theorem decode_wordU_opAuipc (rd : Reg) (m : BitVec 20) :
    decode (wordU m rd opAuipc) = .ok (.auipc rd (m ++ 0#12)) := by
  rw [decode_of_opAuipc (opcodeOf_wordU m rd opAuipc), rdOf_wordU, immU_wordU]

/-! ## What the instructions write -/

theorem exec_lui (rd : Reg) (imm : Word) (s : State) :
    exec (.lui rd imm) s = .next (s.commit (.lui rd imm) (s.toReg rd imm)) := rfl

theorem exec_auipc (rd : Reg) (imm : Word) (s : State) :
    exec (.auipc rd imm) s = .next (s.commit (.auipc rd imm) (s.toReg rd (s.pcRel imm))) := rfl

/-- The sum modulo 2^32 (R201). -/
theorem State.pcRel_eq_ofNat (s : State) (imm : Word) : s.pcRel imm = BitVec.ofNat 32 (s.pc.toNat + imm.toNat) :=
  BitVec.add_def s.pc imm

/-! ## The obligation -/

/-- Settles O27, by the fields of a word of format U and the value each instruction writes to rd. -/
theorem upperImmediatesWriteRd : Obligations.UpperImmediatesWriteRd :=
  ⟨decode_wordU_opLui, decode_wordU_opAuipc,
    fun rd imm s => ⟨_, exec_lui rd imm s, writesReg_commit_toReg s _ rd imm⟩,
    fun rd imm s => ⟨_, exec_auipc rd imm s, s.pcRel_eq_ofNat imm ▸ writesReg_commit_toReg s _ rd (s.pcRel imm)⟩⟩

end Sys2Proof.Machine
end

section
/-! PROOFS. System instructions (spec/48_system.md R205 to R207). -/

namespace Sys2Proof.Machine

/-! ## The two whole words of opcode SYSTEM (R67) -/

theorem decode_of_opSystem {w : Word} (h : opcodeOf w = opSystem) : decode w = decodeSystem w := by
  rw [decode, h]
  rfl

theorem decode_ecallWord : decode ecallWord = .ok .ecall := by
  rw [decode_of_opSystem (by decide), decodeSystem, if_pos rfl]

theorem decode_ebreakWord : decode ebreakWord = .ok .ebreak := by
  rw [decode_of_opSystem (by decide), decodeSystem, if_neg (by decide), if_pos rfl]

/-! ## Assembling a mnemonic without operands (R84, R87) -/

/-- An instruction without operands has none to parse and no immediate to range-check. -/
theorem assembleInstr_of_noOperands {op : Op} {m : Text} (u : Bool) (syms : SymTab) (line addr : Nat)
    (hform : Op.form op = .noOperands) (hm : opOfMnemonic m = some op) :
    assembleInstr u syms { line := line, addr := addr, mnemonic := m, operands := [] } =
      .ok (op.instr 0 0 0 (immWord op 0)) := by
  simp only [assembleInstr, hm, hform]
  rfl

/-- A text that is only the mnemonic of an operation without operands assembles to its one word, under either value of
the parameter. -/
theorem assemble_of_noOperands {op : Op} {text : String} (u : Bool) (hform : Op.form op = .noOperands)
    (hsplit : splitAtChar '\n' text.toList = [text.toList])
    (hline : parseLine text.toList = some { label := none, instr := some (text.toList, []) })
    (hm : opOfMnemonic text.toList = some op) :
    assemble u text = .ok [encode (op.instr 0 0 0 (immWord op 0))] := by
  have hpass1 : pass1 [text.toList] 1 0 [] =
      .ok ([], [{ line := 1, addr := 0, mnemonic := text.toList, operands := [] }]) := by
    rw [pass1_cons hline rfl]
    rfl
  rw [assemble, assembleInstrs, hsplit, hpass1]
  simp [pass2, assembleInstr_of_noOperands u [] 1 0 hform hm]

theorem assemble_ecall (u : Bool) : assemble u "ecall" = .ok [ecallWord] :=
  assemble_of_noOperands (op := .ecall) u rfl (by decide) (by decide) (by decide)

theorem assemble_ebreak (u : Bool) : assemble u "ebreak" = .ok [ebreakWord] :=
  assemble_of_noOperands (op := .ebreak) u rfl (by decide) (by decide) (by decide)

/-! ## What the instructions do (R205) -/

theorem exec_ecall (s : State) : exec .ecall s = .next (s.commit .ecall (s.haltEffect .environmentCall)) := rfl

theorem exec_ebreak (s : State) : exec .ebreak s = .next (s.commit .ebreak (s.haltEffect .breakpoint)) := rfl

/-- The completion that both share: the effect only goes on at `pc + 4` and halts. -/
theorem haltsCleanly_commit_haltEffect (s : State) (i : Instr) (r : HaltReason) :
    HaltsCleanly i s (s.commit i (s.haltEffect r)) r :=
  ⟨s.reg_commit_none i _ rfl, s.commit_pc i _, memKept_commit s i rfl, driverKept_commit s i _,
    s.commit_halted_some i _ r rfl, s.commit_haltReason_some i _ r rfl, s.commit_dstate_some i _ r rfl,
    recorded_commit s i _⟩

/-! ## The obligation -/

/-- Settles O28, by the two words of opcode SYSTEM, the one-line texts of their mnemonics and the effect that both
instructions share. -/
theorem ecallAndEbreakHaltCleanly : Obligations.EcallAndEbreakHaltCleanly :=
  ⟨decode_ecallWord, decode_ebreakWord, fun u => ⟨assemble_ecall u, assemble_ebreak u⟩, fun s =>
    ⟨⟨_, exec_ecall s, haltsCleanly_commit_haltEffect s _ _⟩,
      ⟨_, exec_ebreak s, haltsCleanly_commit_haltEffect s _ _⟩⟩⟩

end Sys2Proof.Machine
end

section
/-! PROOFS. Decoding and encoding are inverse (spec/30_encoding.md R58 to R73). -/

namespace Sys2Proof.Machine

/-! ## A well-formed immediate is the one its field holds (R53 to R57, R61) -/

/-- A word in the signed range of `n` bits is the sign extension of its low `n` bits. -/
theorem signExtend_extractLsb'_of_fits {imm : Word} {n : Nat} (hn : n ≤ 32)
    (hlo : -2 ^ n ≤ imm.toInt * 2) (hhi : imm.toInt * 2 < 2 ^ n) : (imm.extractLsb' 0 n).signExtend 32 = imm := by
  apply BitVec.eq_of_toInt_eq
  rw [BitVec.toInt_signExtend_of_le hn, BitVec.toInt_extractLsb', Nat.shiftRight_zero,
    ← Int.bmod_bmod_of_dvd (Nat.pow_dvd_pow 2 hn), ← BitVec.toInt_eq_toNat_bmod]
  exact Int.bmod_eq_of_le_mul_two (by exact_mod_cast hlo) (by exact_mod_cast hhi)

/-- Two fields that meet, down to bit 0, are one field. -/
theorem extractLsb'_append_low (imm : Word) (n k : Nat) :
    imm.extractLsb' k n ++ imm.extractLsb' 0 k = imm.extractLsb' 0 (n + k) :=
  BitVec.extractLsb'_append_extractLsb'_eq_extractLsb' (Nat.zero_add k).symm

theorem extractLsb'_eq_zero_of_mod {imm : Word} {n : Nat} (h : imm.toNat % 2 ^ n = 0) :
    imm.extractLsb' 0 n = 0#n := by
  apply BitVec.eq_of_toNat_eq
  rw [BitVec.extractLsb'_toNat, Nat.shiftRight_zero, h, BitVec.toNat_ofNat, Nat.zero_mod]

theorem immI_field_of_fits {imm : Word} (h : immFits12 imm = true) : (imm.extractLsb' 0 12).signExtend 32 = imm := by
  obtain ⟨hlo, hhi⟩ := of_decide_eq_true h
  exact signExtend_extractLsb'_of_fits (by decide) (by omega) (by omega)

theorem immB_field_of_fits {imm : Word} (h : immFitsB imm = true) :
    (imm.extractLsb' 1 12 ++ 0#1 : BitVec 13).signExtend 32 = imm := by
  obtain ⟨hlo, hhi, heven⟩ := of_decide_eq_true h
  rw [← extractLsb'_eq_zero_of_mod (n := 1) heven, extractLsb'_append_low]
  exact signExtend_extractLsb'_of_fits (by decide) (by omega) (by omega)

theorem immJ_field_of_fits {imm : Word} (h : immFitsJ imm = true) :
    (imm.extractLsb' 1 20 ++ 0#1 : BitVec 21).signExtend 32 = imm := by
  obtain ⟨hlo, hhi, heven⟩ := of_decide_eq_true h
  rw [← extractLsb'_eq_zero_of_mod (n := 1) heven, extractLsb'_append_low]
  exact signExtend_extractLsb'_of_fits (by decide) (by omega) (by omega)

theorem immU_field_of_fits {imm : Word} (h : immFitsU imm = true) : imm.extractLsb' 12 20 ++ 0#12 = imm := by
  rw [← extractLsb'_eq_zero_of_mod (n := 12) (of_decide_eq_true h),
    extractLsb'_append_low]
  exact BitVec.extractLsb'_eq_self

/-- The `imm_I` of a shift, 32 times its funct7 and the shift amount (R61). -/
theorem immShift_field_of_fits {imm : Word} (f7 : BitVec 7) (hf7 : f7.toNat < 64) (hlo : f7.toNat * 32 ≤ imm.toNat)
    (hhi : imm.toNat < f7.toNat * 32 + 32) : (f7 ++ imm.extractLsb' 0 5 : BitVec 12).signExtend 32 = imm := by
  have hf : imm.extractLsb' 5 7 = f7 := by
    apply BitVec.eq_of_toNat_eq
    rw [BitVec.extractLsb'_toNat, Nat.shiftRight_eq_div_pow]
    omega
  rw [← hf, extractLsb'_append_low]
  have hint : imm.toInt = imm.toNat := BitVec.toInt_eq_toNat_of_lt (by omega)
  exact signExtend_extractLsb'_of_fits (by decide) (by omega) (by omega)

/-! ## A word is the encoding of its fields (R52 to R57, R72) -/

@[simp] theorem regBits_rdOf (w : Word) : regBits (rdOf w) = w.extractLsb' 7 5 := rfl

@[simp] theorem regBits_rs1Of (w : Word) : regBits (rs1Of w) = w.extractLsb' 15 5 := rfl

@[simp] theorem regBits_rs2Of (w : Word) : regBits (rs2Of w) = w.extractLsb' 20 5 := rfl

/-- A word of format J is the encoder's, of the sign-extended field. -/
theorem encJ_signExtend (rd : Reg) (m : BitVec 21) : encJ rd (m.signExtend 32) = wordJ m rd opJal := by
  simp [encJ, wordJ, extractLsb'_signExtend m]

/-- The upper field of an I-format word is funct7 above the rs2 field. -/
theorem funct7Of_append_rs2 (w : Word) : funct7Of w ++ w.extractLsb' 20 5 = w.extractLsb' 20 12 :=
  BitVec.extractLsb'_append_extractLsb'_eq_extractLsb' (start₁ := 20) (len₁ := 5) rfl

theorem encR_fields {w : Word} (h : opcodeOf w = opOp) :
    encR (funct7Of w) (funct3Of w) (rdOf w) (rs1Of w) (rs2Of w) = w := by
  rw [encR, ← h]
  exact word_eq_fields w

theorem encI_fields {w : Word} {op : BitVec 7} (h : opcodeOf w = op) :
    encI op (funct3Of w) (rdOf w) (rs1Of w) (immI w) = w := by
  rw [immI, encI_signExtend, wordI, ← funct7Of_append_rs2, ← h]
  exact word_eq_fields w

theorem encShift_fields {w : Word} (h : opcodeOf w = opOpImm) :
    encShift (funct7Of w) (funct3Of w) (rdOf w) (rs1Of w) (immI w) = w := by
  rw [immI, ← funct7Of_append_rs2, encShift_signExtend, ← h]
  exact word_eq_fields w

theorem encS_fields {w : Word} (h : opcodeOf w = opStore) :
    encS (funct3Of w) (rs1Of w) (rs2Of w) (immS w) = w := by
  rw [immS, encS_signExtend, wordS, BitVec.extractLsb'_append_eq_left, BitVec.extractLsb'_append_eq_right, ← h]
  exact word_eq_fields w

theorem encB_fields {w : Word} (h : opcodeOf w = opBranch) :
    encB (funct3Of w) (rs1Of w) (rs2Of w) (immB w) = w := by
  rw [immB, encB_signExtend, ← h]
  refine BitVec.eq_of_getLsbD_eq fun k hk => ?_
  simp only [wordB, regBits_rs1Of, regBits_rs2Of, funct3Of, opcodeOf, BitVec.getLsbD_append,
    BitVec.getLsbD_extractLsb']
  interval_cases k <;> simp

theorem encU_fields {w : Word} {op : BitVec 7} (h : opcodeOf w = op) : encU op (rdOf w) (immU w) = w := by
  rw [immU, encU_append_zero, ← h]
  refine BitVec.eq_of_getLsbD_eq fun k hk => ?_
  simp only [wordU, regBits_rdOf, opcodeOf, BitVec.getLsbD_append, BitVec.getLsbD_extractLsb']
  interval_cases k <;> simp

theorem encJ_fields {w : Word} (h : opcodeOf w = opJal) : encJ (rdOf w) (immJ w) = w := by
  rw [immJ, encJ_signExtend, ← h]
  refine BitVec.eq_of_getLsbD_eq fun k hk => ?_
  simp only [wordJ, regBits_rdOf, opcodeOf, BitVec.getLsbD_append, BitVec.getLsbD_extractLsb']
  interval_cases k <;> simp

/-! ## The immediate read from a word is well-formed (R53 to R57, R61) -/

theorem immFits12_immI (w : Word) : immFits12 (immI w) = true := decide_eq_true (toInt_signExtend12_bounds _)

theorem immFits12_immS (w : Word) : immFits12 (immS w) = true := decide_eq_true (toInt_signExtend12_bounds _)

/-- A sign-extended field whose lowest bit is zero is even. -/
theorem toNat_signExtend_append_zero_mod {n : Nat} (x : BitVec n) : ((x ++ 0#1).signExtend 32).toNat % 2 = 0 := by
  have hbit : ((x ++ 0#1).signExtend 32).getLsbD 0 = false := by
    rw [BitVec.getLsbD_signExtend, BitVec.getLsbD_append]
    simp
  simpa [BitVec.getLsbD] using hbit

theorem immFitsB_immB (w : Word) : immFitsB (immB w) = true :=
  have ⟨hlo, hhi⟩ := toInt_signExtend13_bounds _
  decide_eq_true ⟨hlo, hhi, toNat_signExtend_append_zero_mod _⟩

theorem immFitsJ_immJ (w : Word) : immFitsJ (immJ w) = true :=
  have ⟨hlo, hhi⟩ := toInt_signExtend21_bounds _
  decide_eq_true ⟨hlo, hhi, toNat_signExtend_append_zero_mod _⟩

theorem immFitsU_immU (w : Word) : immFitsU (immU w) = true := by
  refine decide_eq_true ?_
  rw [immU, BitVec.toNat_append, ← Nat.shiftLeft_add_eq_or_of_lt (0#12).isLt, Nat.shiftLeft_eq]
  simp

/-- The value of a shift's `imm_I`: its funct7 above the shift amount, where funct7's high bits are zero (R61). -/
theorem toNat_immI_of_funct7 {w : Word} (h : (funct7Of w).toNat < 64) :
    (funct7Of w).toNat * 32 ≤ (immI w).toNat ∧ (immI w).toNat < (funct7Of w).toNat * 32 + 32 := by
  have hlow := (w.extractLsb' 20 5).isLt
  have hfield : (w.extractLsb' 20 12).toNat = (funct7Of w).toNat * 32 + (w.extractLsb' 20 5).toNat := by
    rw [← funct7Of_append_rs2, BitVec.toNat_append, ← Nat.shiftLeft_add_eq_or_of_lt hlow, Nat.shiftLeft_eq]
  have hmsb : (w.extractLsb' 20 12).msb = false := by
    rw [BitVec.msb_eq_false_iff_two_mul_lt, hfield]
    omega
  rw [immI, BitVec.signExtend_eq_setWidth_of_msb_false hmsb, BitVec.toNat_setWidth_of_le (by decide), hfield]
  omega

/-! ## Decoding an encoded instruction -/

theorem decode_of_opJal {w : Word} (h : opcodeOf w = opJal) : decode w = .ok (.jal (rdOf w) (immJ w)) := by
  rw [decode, h]
  rfl

theorem decode_of_opJalr {w : Word} (h : opcodeOf w = opJalr) (h3 : funct3Of w = 0b000#3) :
    decode w = .ok (.jalr (rdOf w) (rs1Of w) (immI w)) := by
  rw [decode, h, h3]
  rfl

/-- The decoder reads back every well-formed instruction, family by family: the immediate it reads is the one its field
holds. -/
theorem decode_encode_op {op : Op} {rd rs1 rs2 : Reg} {imm : Word} (h : (op.instr rd rs1 rs2 imm).WellFormed) :
    decode (encode (op.instr rd rs1 rs2 imm)) = .ok (op.instr rd rs1 rs2 imm) := by
  cases op with
  | add | sub | and | or | xor | sll | srl | sra | slt | sltu => exact decode_encode_regReg (by decide) rd rs1 rs2 imm
  | addi | andi | ori | xori | slti | sltiu =>
    refine decode_of_encode_regImm (rs2 := rs2) (by decide) rfl ((immI_encI _ _ rd rs1 imm).trans ?_)
    exact immI_field_of_fits h
  | slli | srli =>
    refine decode_of_encode_regImm (rs2 := rs2) (by decide) rfl ((immI_encShift _ _ rd rs1 imm).trans ?_)
    exact immShift_field_of_fits _ (by decide) (Nat.zero_le _) (of_decide_eq_true h)
  | srai =>
    obtain ⟨hlo, hhi⟩ := of_decide_eq_true h
    refine decode_of_encode_regImm (rs2 := rs2) (by decide) rfl ((immI_encShift _ _ rd rs1 imm).trans ?_)
    exact immShift_field_of_fits _ (by decide) hlo hhi
  | lb | lh | lw | lbu | lhu =>
    refine decode_of_encode_load (rs2 := rs2) (by decide) rfl ((immI_encI _ _ rd rs1 imm).trans ?_)
    exact immI_field_of_fits h
  | sb | sh | sw =>
    refine decode_of_encode_store (rd := rd) (by decide) rfl ((immS_encS _ rs1 rs2 imm).trans ?_)
    exact immI_field_of_fits h
  | beq | bne | blt | bge | bltu | bgeu =>
    refine decode_of_encode_branch (rd := rd) (by decide) rfl ((immB_encB _ rs1 rs2 imm).trans ?_)
    exact immB_field_of_fits h
  | jal =>
    simp only [Op.instr, encode, decode_of_opJal (opcodeOf_encJ rd imm), rdOf_encJ, immJ_encJ, immJ_field_of_fits h]
  | jalr =>
    simp only [Op.instr, encode, decode_of_opJalr (opcodeOf_encI _ _ rd rs1 imm) (funct3Of_encI _ _ rd rs1 imm),
      rdOf_encI, rs1Of_encI, immI_encI, immI_field_of_fits h]
  | lui =>
    simp only [Op.instr, encode, decode_of_opLui (opcodeOf_encU _ rd imm), rdOf_encU, immU_encU,
      immU_field_of_fits h]
  | auipc =>
    simp only [Op.instr, encode, decode_of_opAuipc (opcodeOf_encU _ rd imm), rdOf_encU, immU_encU,
      immU_field_of_fits h]
  | ecall => exact decode_ecallWord
  | ebreak => exact decode_ebreakWord

open Sys2Proof.Laws in
/-- Every instruction is its operation with some operand fields (R58). -/
theorem exists_op_instr (i : Instr) : ∃ rd rs1 rs2 imm, i.op.instr rd rs1 rs2 imm = i := by
  cases i
  exacts [OfItsOperands.add _ _ _, OfItsOperands.sub _ _ _, OfItsOperands.and _ _ _, OfItsOperands.or _ _ _,
    OfItsOperands.xor _ _ _, OfItsOperands.sll _ _ _, OfItsOperands.srl _ _ _, OfItsOperands.sra _ _ _,
    OfItsOperands.slt _ _ _, OfItsOperands.sltu _ _ _, OfItsOperands.addi _ _ _, OfItsOperands.andi _ _ _,
    OfItsOperands.ori _ _ _, OfItsOperands.xori _ _ _, OfItsOperands.slti _ _ _, OfItsOperands.sltiu _ _ _,
    OfItsOperands.slli _ _ _, OfItsOperands.srli _ _ _, OfItsOperands.srai _ _ _, OfItsOperands.lb _ _ _,
    OfItsOperands.lh _ _ _, OfItsOperands.lw _ _ _, OfItsOperands.lbu _ _ _, OfItsOperands.lhu _ _ _,
    OfItsOperands.sb _ _ _, OfItsOperands.sh _ _ _, OfItsOperands.sw _ _ _, OfItsOperands.beq _ _ _,
    OfItsOperands.bne _ _ _, OfItsOperands.blt _ _ _, OfItsOperands.bge _ _ _, OfItsOperands.bltu _ _ _,
    OfItsOperands.bgeu _ _ _, OfItsOperands.jal _ _, OfItsOperands.jalr _ _ _, OfItsOperands.lui _ _,
    OfItsOperands.auipc _ _, OfItsOperands.ecall, OfItsOperands.ebreak]

/-- R73, first sentence. -/
theorem decode_encode {i : Instr} (h : i.WellFormed) : decode (encode i) = .ok i := by
  obtain ⟨rd, rs1, rs2, imm, hi⟩ := exists_op_instr i
  rw [← hi] at h ⊢
  exact decode_encode_op h

/-! ## Encoding a decoded instruction -/

/-- What the decoder answers for a word, if anything: a well-formed instruction that the word encodes. -/
def DecodesStrictly (w : Word) (r : Except DecodeError Instr) : Prop :=
  ∀ i, r = .ok i → i.WellFormed ∧ encode i = w

theorem DecodesStrictly.ok {w : Word} {i : Instr} (hwf : i.WellFormed) (henc : encode i = w) :
    DecodesStrictly w (.ok i) := by
  rintro _ ⟨⟩
  exact ⟨hwf, henc⟩

theorem DecodesStrictly.error {w : Word} {e : DecodeError} : DecodesStrictly w (.error e) := by
  rintro _ ⟨⟩

theorem DecodesStrictly.ite {w : Word} {p : Prop} [Decidable p] {r r' : Except DecodeError Instr}
    (h : p → DecodesStrictly w r) (h' : ¬ p → DecodesStrictly w r') : DecodesStrictly w (if p then r else r') := by
  split
  · exact h ‹_›
  · exact h' ‹_›

theorem decodesStrictly_decodeLoad {w : Word} (h : opcodeOf w = opLoad) : DecodesStrictly w (decodeLoad w) := by
  have henc (f3 : BitVec 3) (h3 : funct3Of w = f3) : encI opLoad f3 (rdOf w) (rs1Of w) (immI w) = w :=
    h3 ▸ encI_fields h
  iterate 5 refine .ite (fun h3 => .ok (immFits12_immI w) (henc _ h3)) fun _ => ?_
  exact .error

theorem decodesStrictly_decodeStore {w : Word} (h : opcodeOf w = opStore) : DecodesStrictly w (decodeStore w) := by
  have henc (f3 : BitVec 3) (h3 : funct3Of w = f3) : encS f3 (rs1Of w) (rs2Of w) (immS w) = w :=
    h3 ▸ encS_fields h
  iterate 3 refine .ite (fun h3 => .ok (immFits12_immS w) (henc _ h3)) fun _ => ?_
  exact .error

theorem decodesStrictly_decodeBranch {w : Word} (h : opcodeOf w = opBranch) : DecodesStrictly w (decodeBranch w) := by
  have henc (f3 : BitVec 3) (h3 : funct3Of w = f3) : encB f3 (rs1Of w) (rs2Of w) (immB w) = w :=
    h3 ▸ encB_fields h
  iterate 6 refine .ite (fun h3 => .ok (immFitsB_immB w) (henc _ h3)) fun _ => ?_
  exact .error

theorem decodesStrictly_decodeOp {w : Word} (h : opcodeOf w = opOp) : DecodesStrictly w (decodeOp w) := by
  have henc (f7 : BitVec 7) (f3 : BitVec 3) (h7 : funct7Of w = f7) (h3 : funct3Of w = f3) :
      encR f7 f3 (rdOf w) (rs1Of w) (rs2Of w) = w := h7 ▸ h3 ▸ encR_fields h
  refine .ite (fun h7 => ?_) fun _ => .ite (fun h7 => ?_) fun _ => .error
  · iterate 7 refine .ite (fun h3 => .ok rfl (henc _ _ h7 h3)) fun _ => ?_
    have h3 : funct3Of w = 0b111#3 := by simpa [*] using funct3_cases (funct3Of w)
    exact .ok rfl (henc _ _ h7 h3)
  · iterate 2 refine .ite (fun h3 => .ok rfl (henc _ _ h7 h3)) fun _ => ?_
    exact .error

theorem decodesStrictly_decodeOpImm {w : Word} (h : opcodeOf w = opOpImm) : DecodesStrictly w (decodeOpImm w) := by
  have henc (f3 : BitVec 3) (h3 : funct3Of w = f3) : encI opOpImm f3 (rdOf w) (rs1Of w) (immI w) = w :=
    h3 ▸ encI_fields h
  have hshift (f7 : BitVec 7) (f3 : BitVec 3) (h7 : funct7Of w = f7) (h3 : funct3Of w = f3) :
      encShift f7 f3 (rdOf w) (rs1Of w) (immI w) = w := h7 ▸ h3 ▸ encShift_fields h
  have hfits (h7 : funct7Of w = 0b0000000#7) : immFitsShift (immI w) = true := by
    have hval := toNat_immI_of_funct7 (w := w) (by simp [h7])
    simpa [h7, immFitsShift] using hval
  have hfits' (h7 : funct7Of w = 0b0100000#7) : immFitsShiftArith (immI w) = true := by
    have hval := toNat_immI_of_funct7 (w := w) (by simp [h7])
    simpa [h7, immFitsShiftArith] using hval
  iterate 6 refine .ite (fun h3 => .ok (immFits12_immI w) (henc _ h3)) fun _ => ?_
  refine .ite (fun h3 => .ite (fun h7 => .ok (hfits h7) (hshift _ _ h7 h3)) fun _ => .error) fun _ => ?_
  have h3 : funct3Of w = 0b101#3 := by simpa [*] using funct3_cases (funct3Of w)
  exact .ite (fun h7 => .ok (hfits h7) (hshift _ _ h7 h3)) fun _ =>
    .ite (fun h7 => .ok (hfits' h7) (hshift _ _ h7 h3)) fun _ => .error

theorem decodesStrictly_decodeSystem (w : Word) : DecodesStrictly w (decodeSystem w) :=
  .ite (fun h => .ok rfl h.symm) fun _ => .ite (fun h => .ok rfl h.symm) fun _ => .error

/-- Decoding is strict (R73, second sentence): opcode by opcode. -/
theorem decodesStrictly_decode (w : Word) : DecodesStrictly w (decode w) := by
  refine .ite (fun h => .ok (immFitsU_immU w) (encU_fields h)) fun _ => ?_
  refine .ite (fun h => .ok (immFitsU_immU w) (encU_fields h)) fun _ => ?_
  refine .ite (fun h => .ok (immFitsJ_immJ w) (encJ_fields h)) fun _ => ?_
  refine .ite (fun h => .ite (fun h3 => .ok (immFits12_immI w) ?_) fun _ => .error) fun _ => ?_
  · exact (congrArg (encI opJalr · _ _ _) h3.symm).trans (encI_fields h)
  refine .ite decodesStrictly_decodeBranch fun _ => ?_
  refine .ite decodesStrictly_decodeLoad fun _ => ?_
  refine .ite decodesStrictly_decodeStore fun _ => ?_
  refine .ite decodesStrictly_decodeOpImm fun _ => ?_
  refine .ite decodesStrictly_decodeOp fun _ => ?_
  exact .ite (fun _ => decodesStrictly_decodeSystem w) fun _ => .error

theorem wellFormed_of_decode {w : Word} {i : Instr} (h : decode w = .ok i) : i.WellFormed :=
  (decodesStrictly_decode w i h).1

theorem encode_of_decode {w : Word} {i : Instr} (h : decode w = .ok i) : encode i = w :=
  (decodesStrictly_decode w i h).2

/-! ## Operand values in range (R72, R86) -/

theorem toInt_ofInt_word {v : Int} (hlo : -2147483648 ≤ v) (hhi : v < 2147483648) :
    (BitVec.ofInt 32 v).toInt = v := by
  rw [BitVec.toInt_ofInt]
  exact Int.bmod_eq_of_le_mul_two (by push_cast; omega) (by push_cast; omega)

theorem toNat_ofInt_word (v : Int) : ((BitVec.ofInt 32 v).toNat : Int) = v % 4294967296 := by
  rw [BitVec.toNat_ofInt]
  push_cast
  omega

/-- A value in its position's range makes an immediate that the instruction's format holds, form by form. -/
theorem wellFormed_of_immInRange {u : Bool} {op : Op} {v : Int} (h : immInRange u (Op.form op) v = true)
    (rd rs1 rs2 : Reg) : (op.instr rd rs1 rs2 (immWord op v)).WellFormed := by
  have hint := toInt_ofInt_word (v := v)
  have hnat := toNat_ofInt_word v
  cases op with
  | add | sub | and | or | xor | sll | srl | sra | slt | sltu | ecall | ebreak => rfl
  | addi | andi | ori | xori | slti | sltiu | lb | lh | lw | lbu | lhu | sb | sh | sw | jalr =>
    obtain ⟨hlo, hhi⟩ := of_decide_eq_true h
    have hv := hint (by omega) (by omega)
    exact decide_eq_true (show -2048 ≤ (BitVec.ofInt 32 v).toInt ∧ (BitVec.ofInt 32 v).toInt ≤ 2047 by omega)
  | slli | srli =>
    obtain ⟨hlo, hhi⟩ := of_decide_eq_true h
    exact decide_eq_true (show (BitVec.ofInt 32 v).toNat < 32 by omega)
  | srai =>
    obtain ⟨hlo, hhi⟩ := of_decide_eq_true h
    have hnat := toNat_ofInt_word (v + 1024)
    exact decide_eq_true
      (show 1024 ≤ (BitVec.ofInt 32 (v + 1024)).toNat ∧ (BitVec.ofInt 32 (v + 1024)).toNat < 1056 by omega)
  | beq | bne | blt | bge | bltu | bgeu | jal =>
    obtain ⟨hlo, hhi, heven⟩ := of_decide_eq_true h
    have hv := hint (by omega) (by omega)
    exact decide_eq_true ⟨hv.symm ▸ hlo, hv.symm ▸ hhi, show (BitVec.ofInt 32 v).toNat % 2 = 0 by omega⟩
  | lui | auipc =>
    have hnat := toNat_ofInt_word (v * 4096)
    exact decide_eq_true (show (BitVec.ofInt 32 (v * 4096)).toNat % 4096 = 0 by omega)

/-! ## Every word of an assembled text (R73, third sentence) -/

theorem wellFormed_of_assembleInstr {u : Bool} {syms : SymTab} {si : SourceInstr} {i : Instr}
    (h : assembleInstr u syms si = .ok i) : i.WellFormed := by
  unfold assembleInstr at h
  split at h
  · cases h
  · split at h
    · cases h
    · split at h
      · next hrange =>
        cases h
        exact wellFormed_of_immInRange hrange _ _ _
      · cases h

theorem wellFormed_of_pass2 {u : Bool} {syms : SymTab} {sis : List SourceInstr} {is : List Instr}
    (h : pass2 u syms sis = .ok is) : ∀ i ∈ is, i.WellFormed := by
  induction sis generalizing is with
  | nil =>
    cases h
    simp
  | cons si rest ih =>
    unfold pass2 at h
    split at h
    · cases h
    · next i hi =>
      split at h
      · cases h
      · next js hjs =>
        cases h
        exact List.forall_mem_cons.2 ⟨wellFormed_of_assembleInstr hi, ih hjs⟩

/-- The words of an assembled text are the encodings of well-formed instructions. -/
theorem assemble_eq_ok {u : Bool} {text : String} {ws : List Word} (h : assemble u text = .ok ws) :
    ∃ is : List Instr, ws = is.map encode ∧ ∀ i ∈ is, i.WellFormed := by
  unfold assemble assembleInstrs at h
  split at h
  · cases h
  · next is his =>
    cases h
    split at his
    · cases his
    · exact ⟨is, rfl, wellFormed_of_pass2 his⟩

/-! ## The obligations -/

/-- Settles O2: the encoder writes what the decoder's fields read, form by form; the decoder answers only where the
selectors are the encoder's, opcode by opcode; and the assembler encodes only operand values in range. -/
theorem decodeAndEncodeAgree : Obligations.DecodeAndEncodeAgree := by
  refine ⟨fun i => decode_encode, decodesStrictly_decode, fun u text ws hws w hw => ?_⟩
  obtain ⟨is, rfl, hwf⟩ := assemble_eq_ok hws
  obtain ⟨i, hi, rfl⟩ := List.mem_map.1 hw
  exact ⟨i, decode_encode (hwf i hi), rfl⟩

/-- Settles O1, by evaluating the decoder on the words. -/
theorem writtenOutWordsDecode : Obligations.WrittenOutWordsDecode := by
  unfold Obligations.WrittenOutWordsDecode
  decide

/-- Settles O48: a value in range makes a well-formed instruction, which the decoder gives back, and the word of the
value keeps it. -/
theorem acceptedOperandsSurviveEncoding : Obligations.AcceptedOperandsSurviveEncoding := by
  intro u op rd rs1 rs2 v h
  refine ⟨decode_encode (wellFormed_of_immInRange h rd rs1 rs2), fun hop => ?_, ?_, fun hop => ?_⟩
  · have hint := toInt_ofInt_word (v := v)
    cases op with
    | lui | auipc | srai | add | sub | and | or | xor | sll | srl | sra | slt | sltu | ecall | ebreak =>
      exact absurd hop (by decide)
    | addi | andi | ori | xori | slti | sltiu | lb | lh | lw | lbu | lhu | sb | sh | sw | jalr | slli | srli =>
      obtain ⟨hlo, hhi⟩ := of_decide_eq_true h
      exact hint (by omega) (by omega)
    | beq | bne | blt | bge | bltu | bgeu | jal =>
      obtain ⟨hlo, hhi, -⟩ := of_decide_eq_true h
      exact hint (by omega) (by omega)
  · rintro rfl
    have hnat := toNat_ofInt_word (v + 1024)
    have hv : 0 ≤ v ∧ v ≤ 31 := of_decide_eq_true h
    show (((BitVec.ofInt 32 (v + 1024)).toNat : Nat) : Int) % 32 = v
    omega
  · have himm : immWord op v = BitVec.ofInt 32 (v * 4096) := by
      rcases List.mem_pair.1 hop with rfl | rfl <;> rfl
    rw [himm]
    exact toNat_ofInt_word _

/-- Settles O47: the range test is the only source of ImmediateOutOfRange once the operands parse, and it is the stated
range, form by form. -/
theorem rangeChecksAreTheStatedRanges : Obligations.RangeChecksAreTheStatedRanges := by
  intro u syms si op o hm ho
  have hrefused : assembleInstr u syms si = .error .immediateOutOfRange ↔
      immInRange u (Op.form op) o.imm = false := by
    simp only [assembleInstr, hm, ho]
    cases immInRange u (Op.form op) o.imm <;> simp
  have hsigned12 : op ∈ [.addi, .slti, .sltiu, .xori, .ori, .andi, .lb, .lh, .lw, .lbu, .lhu, .jalr, .sb, .sh, .sw] ↔
      Op.form op ∈ [.regImm, .load, .store] := by cases op <;> decide
  have hshift : op ∈ [.slli, .srli, .srai] ↔ Op.form op = .shift := by cases op <;> decide
  have hbranch : op ∈ [.beq, .bne, .blt, .bge, .bltu, .bgeu] ↔ Op.form op = .branch := by cases op <;> decide
  have hjump : op = .jal ↔ Op.form op = .jump := by cases op <;> decide
  have hupper : op ∈ [.lui, .auipc] ↔ Op.form op = .upper := by cases op <;> decide
  rw [hrefused, hsigned12, hshift, hbranch, hjump, hupper]
  cases Op.form op with
  | regs | noOperands | regImm | load | store | shift | branch | jump => simp [immInRange]
  | upper =>
    cases u with
    | false => simp [immInRange]
    | true =>
      simp [immInRange]
      omega

end Sys2Proof.Machine
end

section
/-! PROOFS. The legal opcodes and the rows of opcode_table.json (spec/30_encoding.md R67 to R71). -/

namespace Sys2Proof.Machine

/-- Settles O6: under SYSTEM the decoder compares the whole word, and it has an arm for the ten opcodes only. -/
theorem systemAndForeignWordsAreIllegal : Obligations.SystemAndForeignWordsAreIllegal := by
  have hforeign (w : Word) (h : opcodeOf w ∉ [0b0110111#7, 0b0010111#7, 0b1101111#7, 0b1100111#7, 0b1100011#7,
      0b0000011#7, 0b0100011#7, 0b0010011#7, 0b0110011#7, 0b1110011#7]) : ∃ e, decode w = .error e := by
    simp only [List.mem_cons, List.not_mem_nil, or_false, not_or] at h
    exact ⟨.illegalOpcode, by
      simp [decode, opLui, opAuipc, opJal, opJalr, opBranch, opLoad, opStore, opOpImm, opOp, opSystem, h]⟩
  refine ⟨fun w hop hecall hebreak => ⟨.illegalSystemWord, ?_⟩, decode_ecallWord, decode_ebreakWord, hforeign,
    hforeign _ (by decide), hforeign _ (by decide)⟩
  rw [decode_of_opSystem hop]
  exact (if_neg hecall).trans (if_neg hebreak)

/-! ## A row's words decode to its operation (R71) -/

/-- A field of a row's word is the pattern's, where the row's mask covers the field. -/
theorem field_of_matches {r : OpcodeRow} {w : Word} (h : r.Matches w) {lo len : Nat}
    (hmask : r.mask.extractLsb' lo len = BitVec.allOnes len) :
    w.extractLsb' lo len = r.pattern.extractLsb' lo len := by
  rw [← show w &&& r.mask = r.pattern from h, BitVec.extractLsb'_and, hmask, BitVec.and_allOnes]

/-- A word of a row decodes to the row's operation: family by family, the pattern's selectors lead the decoder there. -/
theorem decode_of_matches {r : OpcodeRow} (hr : r ∈ opcodeTable) {w : Word} (h : r.Matches w) :
    ∃ i, decode w = .ok i ∧ i.op = r.op := by
  have hmask : ∀ r ∈ opcodeTable, opcodeOf r.mask = 0b1111111#7 := by decide
  have hopc : opcodeOf w = opcodeOf r.pattern := field_of_matches h (hmask r hr)
  have h3 (hm : funct3Of r.mask = 0b111#3) : funct3Of w = funct3Of r.pattern := field_of_matches h hm
  have h7 (hm : funct7Of r.mask = 0b1111111#7) : funct7Of w = funct7Of r.pattern := field_of_matches h hm
  simp only [opcodeTable, List.mem_cons, List.not_mem_nil, or_false] at hr
  -- OP (R60)
  rcases hr with rfl | rfl | rfl | rfl | rfl | rfl | rfl | rfl | rfl | rfl | hr
  iterate 10
    rw [decode_of_opOp hopc, decodeOp, h7 rfl, h3 rfl]
    exact ⟨_, rfl, rfl⟩
  -- OP-IMM (R61), the shifts last
  rcases hr with rfl | rfl | rfl | rfl | rfl | rfl | rfl | rfl | rfl | hr
  iterate 6
    rw [decode_of_opOpImm hopc, decodeOpImm, h3 rfl]
    exact ⟨_, rfl, rfl⟩
  iterate 3
    rw [decode_of_opOpImm hopc, decodeOpImm, h7 rfl, h3 rfl]
    exact ⟨_, rfl, rfl⟩
  -- LOAD (R62)
  rcases hr with rfl | rfl | rfl | rfl | rfl | hr
  iterate 5
    rw [decode_of_opLoad hopc, decodeLoad, h3 rfl]
    exact ⟨_, rfl, rfl⟩
  -- STORE (R63)
  rcases hr with rfl | rfl | rfl | hr
  iterate 3
    rw [decode_of_opStore hopc, decodeStore, h3 rfl]
    exact ⟨_, rfl, rfl⟩
  -- BRANCH (R64)
  rcases hr with rfl | rfl | rfl | rfl | rfl | rfl | hr
  iterate 6
    rw [decode_of_opBranch hopc, decodeBranch, h3 rfl]
    exact ⟨_, rfl, rfl⟩
  -- JAL, JALR, LUI, AUIPC, ECALL, EBREAK
  rcases hr with rfl | rfl | rfl | rfl | rfl | rfl
  · exact ⟨_, decode_of_opJal hopc, rfl⟩
  · exact ⟨_, decode_of_opJalr hopc (h3 rfl), rfl⟩
  · exact ⟨_, decode_of_opLui hopc, rfl⟩
  · exact ⟨_, decode_of_opAuipc hopc, rfl⟩
  · rw [show w = ecallWord from BitVec.and_allOnes.symm.trans h]
    exact ⟨_, decode_ecallWord, rfl⟩
  · rw [show w = ebreakWord from BitVec.and_allOnes.symm.trans h]
    exact ⟨_, decode_ebreakWord, rfl⟩

open Sys2Proof.Laws in
/-- The encoding of every instruction is a word of its operation's row. -/
theorem exists_row_matches_encode (i : Instr) : ∃ r ∈ opcodeTable, r.op = i.op ∧ r.Matches (encode i) := by
  cases i
  exacts [EncodesItsRow.add _ _ _, EncodesItsRow.sub _ _ _, EncodesItsRow.and _ _ _, EncodesItsRow.or _ _ _,
    EncodesItsRow.xor _ _ _, EncodesItsRow.sll _ _ _, EncodesItsRow.srl _ _ _, EncodesItsRow.sra _ _ _,
    EncodesItsRow.slt _ _ _, EncodesItsRow.sltu _ _ _, EncodesItsRow.addi _ _ _, EncodesItsRow.andi _ _ _,
    EncodesItsRow.ori _ _ _, EncodesItsRow.xori _ _ _, EncodesItsRow.slti _ _ _, EncodesItsRow.sltiu _ _ _,
    EncodesItsRow.slli _ _ _, EncodesItsRow.srli _ _ _, EncodesItsRow.srai _ _ _, EncodesItsRow.lb _ _ _,
    EncodesItsRow.lh _ _ _, EncodesItsRow.lw _ _ _, EncodesItsRow.lbu _ _ _, EncodesItsRow.lhu _ _ _,
    EncodesItsRow.sb _ _ _, EncodesItsRow.sh _ _ _, EncodesItsRow.sw _ _ _, EncodesItsRow.beq _ _ _,
    EncodesItsRow.bne _ _ _, EncodesItsRow.blt _ _ _, EncodesItsRow.bge _ _ _, EncodesItsRow.bltu _ _ _,
    EncodesItsRow.bgeu _ _ _, EncodesItsRow.jal _ _, EncodesItsRow.jalr _ _ _, EncodesItsRow.lui _ _,
    EncodesItsRow.auipc _ _, EncodesItsRow.ecall, EncodesItsRow.ebreak]

theorem map_op_opcodeTable : opcodeTable.map OpcodeRow.op = Op.all := by decide

/-- No two rows have one operation. -/
theorem eq_of_op_eq {r r' : OpcodeRow} (hr : r ∈ opcodeTable) (hr' : r' ∈ opcodeTable) (h : r.op = r'.op) :
    r = r' :=
  List.inj_on_of_nodup_map (map_op_opcodeTable ▸ (by decide : Op.all.Nodup)) hr hr' h

theorem matches_iff_decode {r : OpcodeRow} (hr : r ∈ opcodeTable) (w : Word) :
    r.Matches w ↔ ∃ i, decode w = .ok i ∧ i.op = r.op := by
  refine ⟨decode_of_matches hr, fun ⟨i, hi, hop⟩ => ?_⟩
  obtain ⟨r', hr', hop', hw⟩ := exists_row_matches_encode i
  rwa [encode_of_decode hi, eq_of_op_eq hr' hr (hop'.trans hop)] at hw

/-- Settles O4: a row's words decode to its operation, and a decoded word is the encoding of its instruction, which is
a word of the operation's row. -/
theorem decoderFollowsTheOpcodeTable : Obligations.DecoderFollowsTheOpcodeTable := by
  refine ⟨map_op_opcodeTable, rfl, fun op => by cases op <;> decide, fun r hr r' hr' w h h' => ?_,
    fun r hr => matches_iff_decode hr⟩
  obtain ⟨i, hi, hop⟩ := decode_of_matches hr h
  obtain ⟨i', hi', hop'⟩ := decode_of_matches hr' h'
  obtain rfl : i = i' := Except.ok.inj (hi.symm.trans hi')
  exact eq_of_op_eq hr hr' (hop.symm.trans hop')

end Sys2Proof.Machine
end

section
/-! PROOFS. Jumps (spec/46_jumps.md R190 to R192). -/

namespace Sys2Proof.Machine

/-! ## Words of format J and of JALR (R52, R57, R59) -/

theorem decode_wordJ (rd : Reg) (m : BitVec 20) :
    decode (wordJ (m ++ 0#1) rd opJal) = .ok (.jal rd ((m ++ 0#1 : BitVec 21).signExtend 32)) := by
  rw [← encJ_signExtend, decode_of_opJal (opcodeOf_encJ rd _), rdOf_encJ, immJ_encJ,
    extractLsb'_signExtend _ (by decide) (by decide), BitVec.extractLsb'_append_eq_left]

theorem decode_wordI_opJalr (rd rs1 : Reg) (m : BitVec 12) :
    decode (wordI m rs1 0b000#3 rd opJalr) = .ok (.jalr rd rs1 (m.signExtend 32)) := by
  rw [← encI_signExtend, decode_of_opJalr (opcodeOf_encI _ _ rd rs1 _) (funct3Of_encI _ _ rd rs1 _), rdOf_encI,
    rs1Of_encI, encI_signExtend, immI_wordI]

/-! ## The targets -/

theorem exec_jal (rd : Reg) (imm : Word) (s : State) :
    exec (.jal rd imm) s = .next (s.commit (.jal rd imm) (s.linkAndGo rd (s.pcRel imm))) := rfl

theorem exec_jalr (rd rs1 : Reg) (imm : Word) (s : State) :
    exec (.jalr rd rs1 imm) s = .next (s.commit (.jalr rd rs1 imm) (s.linkAndGo rd (s.jalrTarget rs1 imm))) := rfl

theorem and_clear_bit0 (x : Word) : x &&& 0xFFFFFFFE#32 = x.extractLsb' 1 31 ++ 0#1 := by
  have hx : x = x.extractLsb' 1 31 ++ x.extractLsb' 0 1 := by
    rw [extractLsb'_append_low]
    exact BitVec.extractLsb'_eq_self.symm
  have hmask : 0xFFFFFFFE#32 = BitVec.allOnes 31 ++ 0#1 := by decide
  conv_lhs => rw [hx, hmask]
  refine BitVec.and_append.trans (congrArg₂ _ BitVec.and_allOnes BitVec.and_zero)

/-- The target of JALR is the sum with bit 0 cleared (R192). -/
theorem State.toNat_jalrTarget (s : State) (rs1 : Reg) (imm : Word) :
    (s.jalrTarget rs1 imm).toNat = (s.reg rs1 + imm).toNat - (s.reg rs1 + imm).toNat % 2 := by
  rw [State.jalrTarget, and_clear_bit0, BitVec.toNat_append, ← Nat.shiftLeft_add_eq_or_of_lt (0#1).isLt,
    BitVec.extractLsb'_toNat, Nat.shiftRight_eq_div_pow, Nat.shiftLeft_eq, BitVec.toNat_ofNat]
  omega

/-- Settles O26, by the fields of the two words and the effect that both instructions share. -/
theorem jumpsLinkAndGo : Obligations.JumpsLinkAndGo :=
  ⟨decode_wordJ, decode_wordI_opJalr,
    fun rd imm s => ⟨_, exec_jal rd imm s, writesReg_commit s _ rfl rfl rfl⟩,
    fun rd rs1 imm s =>
      ⟨_, _, exec_jalr rd rs1 imm s, s.toNat_jalrTarget rs1 imm, writesReg_commit s _ rfl rfl rfl⟩⟩

end Sys2Proof.Machine
end

section
/-! PROOFS. The access primitives and the host's access to memory (spec/20_memory.md R32 to R49). -/

namespace Sys2Proof.Machine

/-! ## What an access answers, by its tests (R34 to R39) -/

theorem State.memRead_of_passes {s : State} {addr : Word} {n : Width}
    (hpass : checkAccess s.params.memSize addr n = none) : s.memRead addr n = .ok (s.mem.readLE addr.toNat n) := by
  simp [State.memRead, hpass]

/-- The tests depend on the parameters alone, the value on memory alone. -/
theorem State.memRead_withMem {s : State} (m : Memory) {addr : Word} {n : Width}
    (hpass : checkAccess s.params.memSize addr n = none) :
    State.memRead { s with mem := m } addr n = .ok (m.readLE addr.toNat n) :=
  State.memRead_of_passes (s := { s with mem := m }) hpass

theorem State.memRead_of_fails {s : State} {addr : Word} {n : Width} {k : ErrorKind}
    (hfail : checkAccess s.params.memSize addr n = some k) : s.memRead addr n = .error k := by
  simp [State.memRead, hfail]

theorem State.memWrite_of_passes {s : State} {addr : Word} {n : Width} (v : Word)
    (hpass : checkAccess s.params.memSize addr n = none) :
    s.memWrite addr n v = .ok (s.mem.writeBytes addr.toNat (bytesLE n v)) := by
  simp [State.memWrite, hpass]

theorem State.memWrite_of_fails {s : State} {addr : Word} {n : Width} (v : Word) {k : ErrorKind}
    (hfail : checkAccess s.params.memSize addr n = some k) : s.memWrite addr n v = .error k := by
  simp [State.memWrite, hfail]

/-- A write that succeeds has passed its tests, and its memory is the one with the bytes written. -/
theorem State.memWrite_eq_ok {s : State} {addr : Word} {n : Width} {v : Word} {m : Memory}
    (h : s.memWrite addr n v = .ok m) :
    checkAccess s.params.memSize addr n = none ∧ m = s.mem.writeBytes addr.toNat (bytesLE n v) := by
  rcases s.memWrite_cases addr n v with ⟨hpass, hok⟩ | ⟨k, -, herr⟩
  · exact ⟨hpass, Except.ok.inj (h.symm.trans hok)⟩
  · cases h.symm.trans herr

/-! ## The little-endian value (R32) -/

/-- Byte k of the value read is the byte at offset k. -/
theorem Memory.extractLsb'_readLE (m : Memory) (a : Nat) {n : Width} {k : Nat} (hk : k < n.bytes) :
    (m.readLE a n).extractLsb' (8 * k) 8 = m.read (a + k) := by
  refine BitVec.eq_of_getLsbD_eq fun j hj => ?_
  cases n <;> simp only [Width.bytes] at hk <;> interval_cases k <;>
    simp only [Memory.readLE, wordOfBytes, BitVec.getLsbD_extractLsb', BitVec.getLsbD_append,
      BitVec.getLsbD_setWidth] <;>
    grind

theorem Memory.getLsbD_readLE_of_le (m : Memory) (a : Nat) {n : Width} {j : Nat} (hj : 8 * n.bytes ≤ j) :
    (m.readLE a n).getLsbD j = false := by
  cases n with
  | byte | half =>
    rw [Memory.readLE, BitVec.getLsbD_setWidth]
    exact (congrArg _ (BitVec.getLsbD_of_ge _ _ hj)).trans (Bool.and_false _)
  | word => exact BitVec.getLsbD_of_ge _ _ hj

/-- Four bytes of a word, put together again. -/
theorem wordOfBytes_extractLsb' (v : Word) :
    wordOfBytes (v.extractLsb' 0 8) (v.extractLsb' 8 8) (v.extractLsb' 16 8) (v.extractLsb' 24 8) = v := by
  refine BitVec.eq_of_getLsbD_eq fun j hj => ?_
  simp only [wordOfBytes, BitVec.getLsbD_append, BitVec.getLsbD_extractLsb']
  grind

/-- The bytes of four bytes put together are the four. -/
theorem bytesLE_wordOfBytes (b0 b1 b2 b3 : Byte) : bytesLE .word (wordOfBytes b0 b1 b2 b3) = [b0, b1, b2, b3] := by
  have h0 : (wordOfBytes b0 b1 b2 b3).extractLsb' 0 8 = b0 := BitVec.extractLsb'_append_eq_right
  have h1 : (wordOfBytes b0 b1 b2 b3).extractLsb' 8 8 = b1 := by
    rw [wordOfBytes, BitVec.extractLsb'_append_eq_of_le le_rfl]
    exact BitVec.extractLsb'_append_eq_right
  have h2 : (wordOfBytes b0 b1 b2 b3).extractLsb' 16 8 = b2 := by
    rw [wordOfBytes, BitVec.extractLsb'_append_eq_of_le (by decide), BitVec.extractLsb'_append_eq_of_le le_rfl]
    exact BitVec.extractLsb'_append_eq_right
  have h3 : (wordOfBytes b0 b1 b2 b3).extractLsb' 24 8 = b3 := by
    rw [wordOfBytes, BitVec.extractLsb'_append_eq_of_le (by decide), BitVec.extractLsb'_append_eq_of_le (by decide)]
    exact BitVec.extractLsb'_append_eq_left
  simp [bytesLE, bytesOfWord, Width.bytes, h0, h1, h2, h3]

/-- A word read where it was stored is the word stored. -/
theorem Memory.readLE_writeBytes_word {m : Memory} (hm : m.wf) (a : Nat) (v : Word) :
    (m.writeBytes a (bytesLE .word v)).readLE a .word = v := by
  have hbyte (k : Nat) (hk : k < 4) := Memory.read_writeBytes_bytesLE hm a (n := .word) v (k := k) hk
  have h0 := hbyte 0 (by decide)
  rw [Nat.add_zero] at h0
  rw [Memory.readLE, h0, hbyte 1 (by decide), hbyte 2 (by decide), hbyte 3 (by decide)]
  exact wordOfBytes_extractLsb' v

/-! ## Memory in canonical form (R27) -/

theorem Memory.wf_nil : Memory.wf [] := ⟨.nil, by simp⟩

/-- A memory in canonical form lists exactly the addresses that do not read as unlisted, with what they read as. -/
theorem Memory.mem_iff_read {m : Memory} (hm : m.wf) (c : Host.Cell) :
    c ∈ m ↔ m.read c.1 = c.2 ∧ c.2 ≠ Memory.unlisted := by
  induction m with
  | nil =>
    simp only [List.not_mem_nil, Memory.read, false_iff]
    exact fun ⟨heq, hne⟩ => hne heq.symm
  | cons d m ih =>
    obtain ⟨hlt, hp⟩ := List.pairwise_cons.1 hm.1
    obtain ⟨hd, hrest⟩ := List.forall_mem_cons.1 hm.2
    rw [List.mem_cons, ih ⟨hp, hrest⟩, Memory.read]
    by_cases haddr : d.1 = c.1
    · have hbelow : Memory.read m c.1 = Memory.unlisted := Memory.read_below m _ (haddr ▸ hlt)
      rw [hbelow, if_pos haddr]
      constructor
      · rintro (rfl | ⟨heq, hne⟩)
        · exact ⟨rfl, hd⟩
        · exact absurd heq.symm hne
      · rintro ⟨hval, -⟩
        exact .inl (Prod.ext haddr hval).symm
    · have hne : c ≠ d := fun h => haddr (h ▸ rfl)
      rw [if_neg haddr, or_iff_right hne]

/-- Settles O13: the entries of a canonical memory are what it reads as, in the order of their addresses. -/
theorem canonicalMemoriesThatReadAlikeAreEqual : Obligations.CanonicalMemoriesThatReadAlikeAreEqual := by
  intro m m' hm hm' hread
  have hmem (c : Host.Cell) : c ∈ m ↔ c ∈ m' := by rw [Memory.mem_iff_read hm, Memory.mem_iff_read hm', hread]
  have hnodup {l : Memory} (hl : l.wf) : l.Nodup := hl.1.imp fun hlt heq => hlt.ne (congrArg Prod.fst heq)
  exact ((List.perm_ext_iff_of_nodup (hnodup hm) (hnodup hm')).2 hmem).eq_of_pairwise
    (fun c d _ _ hcd hdc => absurd hcd hdc.asymm) hm.1 hm'.1

/-! ## The obligations about the access primitives -/

/-- Settles O10, by the order of the tests and the bytes of the little-endian value. -/
theorem memReadIsAlignedBoundedLittleEndian : Obligations.MemReadIsAlignedBoundedLittleEndian := fun s addr _ =>
  ⟨fun hmis => State.memRead_of_fails (checkAccess_misaligned hmis),
    fun haligned hout => State.memRead_of_fails (checkAccess_outside haligned hout),
    fun haligned hin => ⟨_, State.memRead_of_passes (checkAccess_eq_none.2 ⟨haligned, hin⟩),
      fun _ hk => s.mem.extractLsb'_readLE addr.toNat hk, fun _ hj => s.mem.getLsbD_readLE_of_le addr.toNat hj⟩⟩

/-- Settles O11, by the order of the tests and what is read inside and outside the bytes written. -/
theorem memWriteSetsExactlyItsBytes : Obligations.MemWriteSetsExactlyItsBytes := fun s addr n v hm =>
  ⟨fun hmis => State.memWrite_of_fails v (checkAccess_misaligned hmis),
    fun haligned hout => State.memWrite_of_fails v (checkAccess_outside haligned hout),
    fun haligned hin => ⟨_, State.memWrite_of_passes v (checkAccess_eq_none.2 ⟨haligned, hin⟩),
      Memory.wf_writeBytes hm _ _, fun _ hk => Memory.read_writeBytes_bytesLE hm _ v hk,
      fun a ha => Memory.read_writeBytes_outside _ _ a _ (by rwa [length_bytesLE])⟩⟩

/-- An offset inside an aligned word does not wrap (R31). -/
theorem toNat_add_offset {a : Word} (ha : a.toNat % 4 = 0) {k : Nat} (hk : k < 4) :
    (a + BitVec.ofNat 32 k).toNat = a.toNat + k := by
  rw [BitVec.toNat_add, BitVec.toNat_ofNat]
  omega

/-- A smaller access inside an aligned word that is in range, at a multiple of its own size, passes its tests. -/
theorem checkAccess_inside_word {M : Nat} {a : Word} (ha : checkAccess M a .word = none) {n : Width} {k : Nat}
    (hk : k + n.bytes ≤ 4) (hdvd : k % n.bytes = 0) : checkAccess M (a + BitVec.ofNat 32 k) n = none := by
  obtain ⟨haligned, hin⟩ := checkAccess_eq_none.1 ha
  have haligned : a.toNat % 4 = 0 := haligned
  have hin : a.toNat + 4 ≤ M := hin
  have hpos := n.bytes_pos
  rw [checkAccess_eq_none, toNat_add_offset haligned (by omega)]
  cases n <;> simp only [Width.bytes] at hk hdvd ⊢ <;> omega

/-- Settles O12: the bytes of the word stored are read back by each smaller access; four bytes stored are the bytes of
their concatenation. -/
theorem mixedWidthAccessesAgree : Obligations.MixedWidthAccessesAgree := by
  intro s a v m hm hstore
  obtain ⟨hpass, rfl⟩ := State.memWrite_eq_ok hstore
  have haligned : a.toNat % 4 = 0 := (checkAccess_eq_none.1 hpass).1
  have hbyte (k : Nat) (hk : k < 4) := Memory.read_writeBytes_bytesLE hm a.toNat (n := .word) v (k := k) hk
  refine ⟨fun k hk => ?_, ?_, fun b0 b1 b2 b3 => ?_⟩
  · refine (State.memRead_withMem _ (checkAccess_inside_word hpass (n := .byte) hk (Nat.mod_one k))).trans ?_
    rw [toNat_add_offset haligned hk, Memory.readLE, hbyte k hk]
  · refine (State.memRead_withMem _ (checkAccess_inside_word hpass (n := .half) (k := 2) le_rfl rfl)).trans ?_
    rw [toNat_add_offset haligned (by decide), Memory.readLE, hbyte 2 (by decide), hbyte 3 (by decide)]
    exact congrArg (fun x : BitVec 16 => Except.ok (x.setWidth 32))
      (BitVec.extractLsb'_append_extractLsb'_eq_extractLsb' (start₁ := 16) (len₁ := 8) rfl)
  · refine (State.memRead_withMem _ hpass).trans (congrArg Except.ok ?_)
    have hread := Memory.readLE_writeBytes_word hm a.toNat (wordOfBytes b0 b1 b2 b3)
    rwa [bytesLE_wordOfBytes] at hread

/-! ## The host's access (R48) -/

theorem State.readMemory_inside {s : State} {addr len : Nat} (h : addr + len ≤ s.params.memSize) :
    s.readMemory addr len = some (s.mem.readBytes addr len) := if_neg h.not_gt

theorem State.readMemory_outside {s : State} {addr len : Nat} (h : s.params.memSize < addr + len) :
    s.readMemory addr len = none := if_pos h

theorem State.writeMemory_inside {s : State} {addr : Nat} {bytes : List Byte}
    (h : addr + bytes.length ≤ s.params.memSize) :
    s.writeMemory addr bytes = some { s with mem := s.mem.writeBytes addr bytes } := if_neg h.not_gt

theorem State.writeMemory_outside {s : State} {addr : Nat} {bytes : List Byte}
    (h : s.params.memSize < addr + bytes.length) : s.writeMemory addr bytes = none := if_pos h

/-- A write that is accepted is inside memory and changes memory alone. -/
theorem State.writeMemory_eq_some {s t : State} {addr : Nat} {bytes : List Byte}
    (h : s.writeMemory addr bytes = some t) :
    addr + bytes.length ≤ s.params.memSize ∧ t = { s with mem := s.mem.writeBytes addr bytes } := by
  rcases lt_or_ge s.params.memSize (addr + bytes.length) with hout | hin
  · cases (State.writeMemory_outside hout).symm.trans h
  · exact ⟨hin, Option.some.inj (h.symm.trans (State.writeMemory_inside hin))⟩

/-- Settles O14, by the bounds test of each command and what is read inside and outside the bytes written. -/
theorem hostMemoryAccessIsAllOrNothing : Obligations.HostMemoryAccessIsAllOrNothing := by
  intro s addr len bytes hm
  refine ⟨fun hout => ?_, fun hin => ⟨s.mem.readBytes addr len, ?_, s.mem.length_readBytes addr len,
    fun k hk => s.mem.getElem_readBytes addr len k hk⟩, fun hout => ?_, fun hin => ⟨s.mem.writeBytes addr bytes, ?_,
    Memory.wf_writeBytes hm _ _, fun k hk => ?_, fun a ha => Memory.read_writeBytes_outside _ _ a _ ha⟩⟩
  · simp only [command, State.readMemory_outside hout]
  · simp only [command, State.readMemory_inside hin]
  · simp only [command, State.writeMemory_outside hout]
  · simp only [command, State.writeMemory_inside hin]
  · rw [Memory.read_writeBytes _ hm, dif_pos ⟨by omega, by omega⟩]
    simp

end Sys2Proof.Machine
end

section
/-! PROOFS. Construction and reset (spec/10_state.md R27; spec/70_reset_and_hazards.md R250, R251). -/

namespace Sys2Proof.Machine

/-- Settles O8, row by row of R27's table. -/
theorem resetLeavesTheStatedValues : Obligations.ResetLeavesTheStatedValues :=
  ⟨rfl, fun p r _ => ⟨State.reg_construct p r, rfl, rfl, rfl, rfl, rfl, rfl, rfl, rfl, rfl, rfl⟩⟩

/-- Settles O9: `reset` constructs again, and a constructed machine is Idle. -/
theorem resetCommandReturnsToIdle : Obligations.ResetCommandReturnsToIdle := fun _ _ => ⟨rfl, rfl, rfl⟩

/-- Settles O53, clause by clause of the invariant: memory and trace are empty, nothing is loaded, halted or wrong. -/
theorem constructionMeetsTheInvariant : Obligations.ConstructionMeetsTheInvariant := fun p hp =>
  { legal := hp
    memWf := Memory.wf_nil
    memInside := by simp
    haltedIff := by simp
    reasonIff := by simp
    errorIff := by simp
    errorPc := by simp
    progEndAligned := rfl
    progEndInside := Nat.zero_le _
    pcEven := rfl
    traceCounts := rfl
    idleEmpty := fun _ => rfl }

end Sys2Proof.Machine
end

section
/-! PROOFS. Admission, the past-program test and the fetch (spec/40_instruction_cycle.md R101 to R108). -/

namespace Sys2Proof.Machine

/-! ## Becoming Running (R101) -/

@[simp] theorem State.asRunning_params (s : State) : s.asRunning.params = s.params := rfl
@[simp] theorem State.asRunning_regs (s : State) : s.asRunning.regs = s.regs := rfl
@[simp] theorem State.asRunning_reg (s : State) (r : Reg) : s.asRunning.reg r = s.reg r := rfl
@[simp] theorem State.asRunning_pc (s : State) : s.asRunning.pc = s.pc := rfl
@[simp] theorem State.asRunning_mem (s : State) : s.asRunning.mem = s.mem := rfl
@[simp] theorem State.asRunning_halted (s : State) : s.asRunning.halted = false := rfl
@[simp] theorem State.asRunning_haltReason (s : State) : s.asRunning.haltReason = none := rfl
@[simp] theorem State.asRunning_dstate (s : State) : s.asRunning.dstate = .running := rfl
@[simp] theorem State.asRunning_error (s : State) : s.asRunning.error = s.error := rfl
@[simp] theorem State.asRunning_progEnd (s : State) : s.asRunning.progEnd = s.progEnd := rfl
@[simp] theorem State.asRunning_instructionsExecuted (s : State) :
    s.asRunning.instructionsExecuted = s.instructionsExecuted := rfl
@[simp] theorem State.asRunning_trace (s : State) : s.asRunning.trace = s.trace := rfl

theorem State.accept_of_admitted {s : State} (h : s.Admitted) : s.accept = .ok s.asRunning := by
  rcases h with h | h | h <;> simp [State.accept, h, State.asRunning]

theorem step_of_admitted {s : State} (h : s.Admitted) : step s = stepOnce s.asRunning := by
  rw [step, stepCommand, State.accept_of_admitted h]

theorem runCommand_of_admitted {s : State} (h : s.Admitted) (max : Nat) :
    runCommand max s = runLoop max s.asRunning := by
  rw [runCommand, State.accept_of_admitted h]

theorem step_of_idle {s : State} (h : s.dstate = .idle) : step s = .refused .noProgramLoaded := by
  simp [step, stepCommand, State.accept, h]

theorem step_of_error {s : State} (h : s.dstate = .error) : step s = .refused .machineInError := by
  simp [step, stepCommand, State.accept, h]

theorem runCommand_of_idle {s : State} (h : s.dstate = .idle) (max : Nat) :
    runCommand max s = .refused .noProgramLoaded := by
  simp [runCommand, State.accept, h]

theorem runCommand_of_error {s : State} (h : s.dstate = .error) (max : Nat) :
    runCommand max s = .refused .machineInError := by
  simp [runCommand, State.accept, h]

/-- The `step` command that answers a next state was admitted. -/
theorem admitted_of_step {s t : State} (h : step s = .next t) : s.Admitted := by
  unfold State.Admitted
  cases hd : s.dstate with
  | idle => cases (step_of_idle hd).symm.trans h
  | error => cases (step_of_error hd).symm.trans h
  | loaded | running | halted => simp

/-- Settles O33, by the five driver states. -/
theorem admissionFollowsTheDriverState : Obligations.AdmissionFollowsTheDriverState := by
  refine fun s max => ⟨fun h => ?_, fun h => ?_, fun h => ⟨step_of_admitted h, runCommand_of_admitted h max⟩⟩
  · have hstep := step_of_idle h
    have hrun := runCommand_of_idle h max
    exact ⟨hstep, hrun, by rw [command, hstep, afterStepping], by rw [command, hrun, afterStepping]⟩
  · have hstep := step_of_error h
    have hrun := runCommand_of_error h max
    exact ⟨hstep, hrun, by rw [command, hstep, afterStepping], by rw [command, hrun, afterStepping]⟩

/-! ## Where a step goes (R102 to R105) -/

theorem State.pastProgram_iff (s : State) : s.pastProgram = true ↔ s.progEnd ≤ s.pc.toNat := decide_eq_true_iff

theorem State.pastProgram_eq_false_iff (s : State) : s.pastProgram = false ↔ s.pc.toNat < s.progEnd := by
  rw [← Bool.not_eq_true, s.pastProgram_iff, not_le]

/-- A word is fetched where the pc is inside the program and the word load at it passes its tests (R102, R103). -/
theorem State.fetchesWord_iff (s : State) (w : Word) :
    s.FetchesWord w ↔ s.pc.toNat < s.progEnd ∧ s.fetch = .ok w := by
  unfold State.FetchesWord State.fetch
  refine and_congr_right fun _ => ?_
  rcases s.memRead_cases s.pc .word with ⟨hpass, hread⟩ | ⟨k, hfail, hread⟩
  · obtain ⟨haligned, hin⟩ := checkAccess_eq_none.1 hpass
    rw [hread, Except.ok.injEq, ← and_assoc, and_iff_right ⟨haligned, hin⟩]
    exact eq_comm
  · rw [hread, ← and_assoc]
    refine iff_of_false (fun ⟨hpass, _⟩ => ?_) (by simp)
    cases hfail.symm.trans (checkAccess_eq_none.2 hpass)

theorem stepOnce_past {s : State} (h : s.progEnd ≤ s.pc.toNat) : stepOnce s = .next (s.halt .pcPastProgram) :=
  if_pos (s.pastProgram_iff.2 h)

theorem stepOnce_misaligned {s : State} (h : s.pc.toNat < s.progEnd) (hmis : s.pc.toNat % 4 ≠ 0) :
    stepOnce s = .next (s.raise .memoryAlignment none) := by
  have hfetch : s.fetch = .error .memoryAlignment := State.memRead_of_fails (checkAccess_misaligned hmis)
  simp [stepOnce, s.pastProgram_eq_false_iff.2 h, hfetch]

theorem stepOnce_of_fetchesWord {s : State} {w : Word} (h : s.FetchesWord w) : stepOnce s = runWord w s := by
  obtain ⟨hin, hfetch⟩ := (s.fetchesWord_iff w).1 h
  simp [stepOnce, s.pastProgram_eq_false_iff.2 hin, hfetch]

theorem runWord_of_decodes {w : Word} {i : Instr} (h : decode w = .ok i) (s : State) : runWord w s = exec i s := by
  simp [runWord, h]

theorem runWord_of_illegal {w : Word} {e : DecodeError} (h : decode w = .error e) (s : State) :
    runWord w s = .next (s.raise .illegalInstruction (some w)) := by
  simp [runWord, h]

theorem asRunning_fetchesWord {s : State} {w : Word} : s.asRunning.FetchesWord w ↔ s.FetchesWord w := Iff.rfl

theorem step_of_fetchesWord {s : State} {w : Word} (ha : s.Admitted) (h : s.FetchesWord w) :
    step s = runWord w s.asRunning :=
  (step_of_admitted ha).trans (stepOnce_of_fetchesWord (asRunning_fetchesWord.2 h))

/-- Settles O32. -/
theorem stepRunsTheDecodedInstruction : Obligations.StepRunsTheDecodedInstruction := fun s _ _ ha hw hd =>
  (step_of_fetchesWord ha hw).trans (runWord_of_decodes hd s.asRunning)

/-- Settles O34, by the past-program test and what a halt changes. -/
theorem pastTheProgramTheStepHalts : Obligations.PastTheProgramTheStepHalts := fun _ ha hpast =>
  ⟨_, (step_of_admitted ha).trans (stepOnce_past hpast), rfl, rfl, rfl, rfl, fun _ => rfl, rfl, rfl, rfl, rfl, rfl,
    rfl⟩

/-- Settles O36, by what raising an error changes. -/
theorem illegalWordsTakeIllegalInstruction : Obligations.IllegalWordsTakeIllegalInstruction := fun _ _ _ ha hw he =>
  ⟨_, (step_of_fetchesWord ha hw).trans (runWord_of_illegal he _), takesError_raise _ _ _⟩

/-- Inside the program an aligned pc is inside memory (R103). -/
theorem State.Inv.exists_fetchesWord {s : State} (hi : s.Inv) (hin : s.pc.toNat < s.progEnd)
    (haligned : s.pc.toNat % 4 = 0) : ∃ w, s.FetchesWord w := by
  have hend := hi.progEndAligned
  have hmem := hi.progEndInside
  exact ⟨_, hin, haligned, by omega, rfl⟩

/-- Settles O35: `prog_end` is aligned and inside memory, so a fetch inside the program can only be misaligned. -/
theorem fetchIsAlignedAndNeverOutOfBounds : Obligations.FetchIsAlignedAndNeverOutOfBounds := fun _ hi ha hin =>
  ⟨hi.exists_fetchesWord hin, fun hmis =>
    ⟨_, (step_of_admitted ha).trans (stepOnce_misaligned hin hmis), takesError_raise _ _ _⟩⟩

end Sys2Proof.Machine
end

section
/-! PROOFS. What an instruction's effect can be (spec/40_instruction_cycle.md R105, R106). -/

namespace Sys2Proof.Machine

/-- What an effect of `i` from `s` can be: it writes at most rd, stores and halts only where `i` does, leaves `pc + 4`
only where `i` is a branch or a jump, and keeps the pc even where some word encodes `i`. -/
structure Effect.Fits (i : Instr) (s : State) (e : Effect) : Prop where
  rd : e.regWrite.map Prod.fst = rdField i
  next : i.op ∉ controlOps → e.next = s.pc + 4
  even : i.WellFormed → s.pc.toNat % 2 = 0 → e.next.toNat % 2 = 0
  stores : e.StoresSafely s
  store : i.op ∉ storeOps → e.store = none
  halt : ∀ r, e.halt = some r → (i = .ecall ∧ r = .environmentCall) ∨ (i = .ebreak ∧ r = .breakpoint)

/-! ## The effects of each family -/

theorem even_add {a b : Word} (ha : a.toNat % 2 = 0) (hb : b.toNat % 2 = 0) : (a + b).toNat % 2 = 0 := by
  rw [BitVec.toNat_add]
  omega

theorem State.even_pcNext {s : State} (h : s.pc.toNat % 2 = 0) : s.pcNext.toNat % 2 = 0 := even_add h rfl

theorem even_of_immFitsB {imm : Word} (h : immFitsB imm = true) : imm.toNat % 2 = 0 := (of_decide_eq_true h).2.2

theorem even_of_immFitsJ {imm : Word} (h : immFitsJ imm = true) : imm.toNat % 2 = 0 := (of_decide_eq_true h).2.2

theorem State.fits_toReg (s : State) {i : Instr} {rd : Reg} (hrd : rdField i = some rd) (v : Word) :
    (s.toReg rd v).Fits i s where
  rd := hrd.symm
  next := fun _ => rfl
  even := fun _ => State.even_pcNext
  stores := .inl rfl
  store := fun _ => rfl
  halt := nofun

theorem State.fits_branch (s : State) {i : Instr} {imm : Word} (hrd : rdField i = none) (hop : i.op ∈ controlOps)
    (heven : i.WellFormed → immFitsB imm = true) (c : Bool) : (goTo (s.branchTo c imm)).Fits i s where
  rd := hrd.symm
  next := fun h => absurd hop h
  even := fun hwf hpc => by
    cases c with
    | false => exact State.even_pcNext hpc
    | true => exact even_add hpc (even_of_immFitsB (heven hwf))
  stores := .inl rfl
  store := fun _ => rfl
  halt := nofun

theorem State.fits_linkAndGo (s : State) {i : Instr} {rd : Reg} {target : Word} (hrd : rdField i = some rd)
    (hop : i.op ∈ controlOps) (heven : i.WellFormed → s.pc.toNat % 2 = 0 → target.toNat % 2 = 0) :
    (s.linkAndGo rd target).Fits i s where
  rd := hrd.symm
  next := fun h => absurd hop h
  even := heven
  stores := .inl rfl
  store := fun _ => rfl
  halt := nofun

theorem State.fits_store (s : State) {i : Instr} {a : Word} {n : Width} (hrd : rdField i = none)
    (hop : i.op ∈ storeOps) (hpass : checkAccess s.params.memSize a n = none) (v : Word) :
    Effect.Fits i s { regWrite := none, store := some (s.mem.writeBytes a.toNat (bytesLE n v))
                      next := s.pcNext, halt := none } where
  rd := hrd.symm
  next := fun _ => rfl
  even := fun _ => State.even_pcNext
  stores := .inr ⟨a, n, v, hpass, rfl⟩
  store := fun h => absurd hop h
  halt := nofun

theorem State.fits_haltEffect (s : State) {i : Instr} {r : HaltReason}
    (hi : (i = .ecall ∧ r = .environmentCall) ∨ (i = .ebreak ∧ r = .breakpoint)) : (s.haltEffect r).Fits i s where
  rd := by rcases hi with ⟨rfl, -⟩ | ⟨rfl, -⟩ <;> rfl
  next := fun _ => rfl
  even := fun _ => State.even_pcNext
  stores := .inl rfl
  store := fun _ => rfl
  halt := by
    rintro _ ⟨⟩
    exact hi

/-- Executing an instruction commits an effect that fits it, or raises an error, which no branch and no jump does. -/
def CommitsOrRaises (i : Instr) (s : State) (o : Host.Outcome State Fault Refusal) : Prop :=
  (∃ e : Effect, o = .next (s.commit i e) ∧ e.Fits i s) ∨
  (∃ k : ErrorKind, o = .next (s.raise k (some (encode i))) ∧ i.op ∉ controlOps)

theorem commitsOrRaises_load (s : State) {i : Instr} {rd : Reg} (hrd : rdField i = some rd) (hop : i.op ∉ controlOps)
    (n : Width) (ext : Word → Word) (rs1 : Reg) (imm : Word) :
    CommitsOrRaises i s (loadInstr i n ext rd rs1 imm s) := by
  rcases loadInstr_cases i n ext rd rs1 imm s with ⟨-, h⟩ | ⟨k, -, h⟩
  · exact .inl ⟨_, h, s.fits_toReg hrd _⟩
  · exact .inr ⟨k, h, hop⟩

theorem commitsOrRaises_store (s : State) {i : Instr} (hrd : rdField i = none) (hop : i.op ∉ controlOps)
    (hstore : i.op ∈ storeOps) (n : Width) (rs1 rs2 : Reg) (imm : Word) :
    CommitsOrRaises i s (storeInstr i n rs1 rs2 imm s) := by
  rcases storeInstr_cases i n rs1 rs2 imm s with ⟨hpass, h⟩ | ⟨k, -, h⟩
  · exact .inl ⟨_, h, s.fits_store hrd hstore hpass _⟩
  · exact .inr ⟨k, h, hop⟩

/-- Every instruction, from every state. -/
theorem exec_commitsOrRaises (i : Instr) (s : State) : CommitsOrRaises i s (exec i s) := by
  cases i with
  | add | sub | and | or | xor | sll | srl | sra | slt | sltu
  | addi | andi | ori | xori | slti | sltiu | slli | srli | srai | lui | auipc =>
    exact .inl ⟨_, rfl, s.fits_toReg rfl _⟩
  | lb | lh | lw | lbu | lhu =>
    exact commitsOrRaises_load s rfl (by simp [Instr.op, controlOps]) _ _ _ _
  | sb | sh | sw =>
    exact commitsOrRaises_store s rfl (by simp [Instr.op, controlOps]) (by simp [Instr.op, storeOps]) _ _ _ _
  | beq | bne | blt | bge | bltu | bgeu =>
    exact .inl ⟨_, rfl, s.fits_branch rfl (by simp [Instr.op, controlOps]) id _⟩
  | jal rd imm =>
    exact .inl ⟨_, rfl, s.fits_linkAndGo rfl (by simp [Instr.op, controlOps]) fun hwf hpc =>
      even_add hpc (even_of_immFitsJ hwf)⟩
  | jalr rd rs1 imm =>
    refine .inl ⟨_, rfl, s.fits_linkAndGo rfl (by simp [Instr.op, controlOps]) fun _ _ => ?_⟩
    rw [s.toNat_jalrTarget]
    omega
  | ecall => exact .inl ⟨_, rfl, s.fits_haltEffect (.inl ⟨rfl, rfl⟩)⟩
  | ebreak => exact .inl ⟨_, rfl, s.fits_haltEffect (.inr ⟨rfl, rfl⟩)⟩

/-- An error is raised with the instruction's word; no effect is committed that raises one. -/
theorem exec_eq_next {i : Instr} {s t : State} (h : exec i s = .next t) :
    (∃ e : Effect, t = s.commit i e ∧ e.Fits i s) ∨
    (∃ k : ErrorKind, t = s.raise k (some (encode i)) ∧ i.op ∉ controlOps) := by
  rcases exec_commitsOrRaises i s with ⟨e, he, hfits⟩ | ⟨k, hk, hop⟩
  · exact .inl ⟨e, Host.Outcome.next.inj (h.symm.trans he), hfits⟩
  · exact .inr ⟨k, Host.Outcome.next.inj (h.symm.trans hk), hop⟩

/-! ## The obligations -/

/-- Settles O29: a committed effect goes where it fits the instruction, and an error leaves the pc. -/
theorem onlyControlTransfersLeaveTheNextAddress : Obligations.OnlyControlTransfersLeaveTheNextAddress := by
  intro i s
  rcases exec_commitsOrRaises i s with ⟨e, he, hfits⟩ | ⟨k, hk, -⟩
  · exact ⟨_, he, .inl ⟨s.commit_instructionsExecuted i e, fun hop =>
      (s.commit_pc i e).trans (hfits.next hop)⟩⟩
  · exact ⟨_, hk, .inr ⟨rfl, rfl, rfl⟩⟩

/-- Completing an instruction keeps every register but rd. -/
theorem Effect.Fits.reg_commit {i : Instr} {s : State} {e : Effect} (hfits : e.Fits i s) {r : Reg}
    (hr : rdField i ≠ some r) : (s.commit i e).reg r = s.reg r := by
  cases hw : e.regWrite with
  | none => exact s.reg_commit_none i e hw r
  | some p =>
    have hne : r ≠ p.1 := by
      rintro rfl
      exact hr (by rw [← hfits.rd, hw, Option.map_some])
    rw [s.reg_commit_some i e p.1 p.2 hw, if_neg fun h => hne h.1]

/-- Only ECALL and EBREAK halt. -/
theorem Effect.Fits.halt_eq_none {i : Instr} {s : State} {e : Effect} (hfits : e.Fits i s) (hecall : i ≠ .ecall)
    (hebreak : i ≠ .ebreak) : e.halt = none := by
  refine Option.eq_none_iff_forall_ne_some.2 fun r hr => ?_
  rcases hfits.halt r hr with ⟨hi, -⟩ | ⟨hi, -⟩
  · exact hecall hi
  · exact hebreak hi

/-- A store keeps every byte outside its access. -/
theorem memKeptOutside_storeInstr {i : Instr} {n : Width} {rs1 rs2 : Reg} {imm : Word} {s t : State}
    (h : storeInstr i n rs1 rs2 imm s = .next t) : MemKeptOutside s t (s.effAddr rs1 imm).toNat n.bytes := by
  intro x hx
  rcases storeInstr_cases i n rs1 rs2 imm s with ⟨-, hs⟩ | ⟨k, -, hs⟩
  · obtain rfl := Host.Outcome.next.inj (h.symm.trans hs)
    rw [State.commit_mem, Option.getD_some, Memory.read_writeBytes_outside _ _ x _ (by rwa [length_bytesLE])]
  · obtain rfl := Host.Outcome.next.inj (h.symm.trans hs)
    rfl

/-- Settles O30: a committed effect changes what fits its instruction, and an error only the record and the driver
state. -/
theorem instructionsChangeOnlyTheirOwnState : Obligations.InstructionsChangeOnlyTheirOwnState := by
  intro i s t h
  have hstore (n : Width) (rs1 rs2 : Reg) (imm : Word) (hi : exec i s = storeInstr i n rs1 rs2 imm s) :=
    memKeptOutside_storeInstr (hi.symm.trans h)
  have hsb (rs1 rs2 imm) (hi : i = .sb rs1 rs2 imm) := hstore .byte rs1 rs2 imm (by subst hi; rfl)
  have hsh (rs1 rs2 imm) (hi : i = .sh rs1 rs2 imm) := hstore .half rs1 rs2 imm (by subst hi; rfl)
  have hsw (rs1 rs2 imm) (hi : i = .sw rs1 rs2 imm) := hstore .word rs1 rs2 imm (by subst hi; rfl)
  rcases exec_eq_next h with ⟨e, rfl, hfits⟩ | ⟨k, rfl, -⟩
  · refine ⟨s.commit_params i e, s.commit_progEnd i e, fun r => hfits.reg_commit,
      fun hop => memKept_commit s i (hfits.store hop), hsb, hsh, hsw, ?_, fun hecall hebreak => ?_,
      fun herr => absurd (s.commit_error i e) herr⟩
    · cases hh : e.halt with
      | none => exact .inl (s.commit_dstate_none i e hh)
      | some r => exact .inr (.inl ⟨(hfits.halt r hh).imp And.left And.left, s.commit_dstate_some i e r hh⟩)
    · have hh := hfits.halt_eq_none hecall hebreak
      exact ⟨s.commit_halted_none i e hh, s.commit_haltReason_none i e hh⟩
  · exact ⟨rfl, rfl, fun r _ => s.reg_raise k _ r, fun _ _ => rfl, hsb, hsh, hsw, .inr (.inr ⟨rfl, rfl⟩),
      fun _ _ => ⟨rfl, rfl⟩, fun _ => ⟨rfl, rfl⟩⟩

end Sys2Proof.Machine
end

section
/-! PROOFS. The invariant (spec/10_state.md sections 1 to 6): every step and every host command keeps it. -/

namespace Sys2Proof.Machine

/-! ## One step, by what it ends in (R102 to R105) -/

/-- What a step of a Running machine ends in, and why. -/
theorem stepOnce_eq_next {s t : State} (h : stepOnce s = .next t) :
    (s.progEnd ≤ s.pc.toNat ∧ t = s.halt .pcPastProgram) ∨
    (∃ k, checkAccess s.params.memSize s.pc .word = some k ∧ s.pc.toNat < s.progEnd ∧ t = s.raise k none) ∨
    (∃ w e, s.FetchesWord w ∧ decode w = .error e ∧ t = s.raise .illegalInstruction (some w)) ∨
    (∃ w i, s.FetchesWord w ∧ decode w = .ok i ∧ exec i s = .next t) := by
  rcases stepOnce_cases s with ⟨hpast, hs⟩ | ⟨hin, k, hfetch, hs⟩ | ⟨hin, w, e, hfetch, hd, hs⟩ |
    ⟨hin, w, i, hfetch, hd, hs⟩
  · exact .inl ⟨s.pastProgram_iff.1 hpast, Host.Outcome.next.inj (h.symm.trans hs)⟩
  · have hin := s.pastProgram_eq_false_iff.1 hin
    rcases s.memRead_cases s.pc .word with ⟨-, hread⟩ | ⟨k', hfail, hread⟩
    · cases hfetch.symm.trans hread
    · obtain rfl := Except.error.inj (hfetch.symm.trans hread)
      exact .inr (.inl ⟨k, hfail, hin, Host.Outcome.next.inj (h.symm.trans hs)⟩)
  · have hw := (s.fetchesWord_iff w).2 ⟨s.pastProgram_eq_false_iff.1 hin, hfetch⟩
    exact .inr (.inr (.inl ⟨w, e, hw, hd, Host.Outcome.next.inj (h.symm.trans hs)⟩))
  · have hw := (s.fetchesWord_iff w).2 ⟨s.pastProgram_eq_false_iff.1 hin, hfetch⟩
    exact .inr (.inr (.inr ⟨w, i, hw, hd, hs.symm.trans h⟩))

theorem stepOnce_of_step {s t : State} (h : step s = .next t) : stepOnce s.asRunning = .next t :=
  (step_of_admitted (admitted_of_step h)).symm.trans h

/-! ## The invariant along a step -/

/-- Outside Error there is no error record (R19). -/
theorem State.Inv.error_eq_none {s : State} (hi : s.Inv) (h : s.dstate ≠ .error) : s.error = none :=
  not_not.1 fun he => h (hi.errorIff.1 he)

theorem State.Admitted.ne_error {s : State} (h : s.Admitted) : s.dstate ≠ .error := by
  rcases h with h | h | h <;> simp [h]

/-- A Running machine is not halted and has no error record. -/
theorem State.Inv.of_running {s : State} (hi : s.Inv) (h : s.dstate = .running) :
    s.halted = false ∧ s.haltReason = none ∧ s.error = none := by
  have hhalted : s.halted = false := by
    rw [← Bool.not_eq_true, hi.haltedIff, h]
    decide
  have hreason : s.haltReason = none := not_not.1 fun hr => by simp [hi.reasonIff.1 hr] at hhalted
  exact ⟨hhalted, hreason, hi.error_eq_none (by simp [h])⟩

theorem State.Inv.asRunning {s : State} (hi : s.Inv) (h : s.dstate ≠ .error) : s.asRunning.Inv :=
  { hi with
    haltedIff := by simp
    reasonIff := by simp
    errorIff := by simp [hi.error_eq_none h]
    idleEmpty := by simp }

theorem State.Inv.halt {s : State} (hi : s.Inv) (h : s.dstate = .running) (r : HaltReason) : (s.halt r).Inv :=
  { hi with
    haltedIff := by simp
    reasonIff := by simp
    errorIff := by simp [hi.of_running h]
    idleEmpty := by simp }

theorem State.Inv.raise {s : State} (hi : s.Inv) (h : s.dstate = .running) (k : ErrorKind) (w : Option Word) :
    (s.raise k w).Inv :=
  { hi with
    haltedIff := by simp [hi.of_running h]
    reasonIff := by simp [hi.of_running h]
    errorIff := by simp
    errorPc := by simp
    idleEmpty := by simp }

/-- Bytes written inside memory list no byte outside it (R42). -/
theorem Memory.inside_writeBytes {m : Memory} {M a : Nat} {bs : List Byte} (hm : ∀ c ∈ m, c.1 < M)
    (hin : a + bs.length ≤ M) : ∀ c ∈ m.writeBytes a bs, c.1 < M := by
  intro c hc
  rcases Memory.mem_writeBytes hc with ⟨-, hlt⟩ | hc
  · omega
  · exact hm c hc

/-- The memory of an effect that stores safely is canonical and inside [0, MEM_SIZE) (R42). -/
theorem Effect.StoresSafely.keeps {e : Effect} {s : State} (hs : e.StoresSafely s) (hwf : s.mem.wf)
    (hin : ∀ c ∈ s.mem, c.1 < s.params.memSize) :
    Memory.wf (e.store.getD s.mem) ∧ ∀ c ∈ e.store.getD s.mem, c.1 < s.params.memSize := by
  rcases hs with hs | ⟨a, n, v, hpass, hs⟩
  · rw [hs]
    exact ⟨hwf, hin⟩
  · rw [hs]
    obtain ⟨-, hbound⟩ := checkAccess_eq_none.1 hpass
    exact ⟨Memory.wf_writeBytes hwf _ _, Memory.inside_writeBytes hin (by rwa [length_bytesLE])⟩

theorem State.Inv.commit {s : State} (hi : s.Inv) (h : s.dstate = .running) {i : Instr} (hwf : i.WellFormed)
    {e : Effect} (hfits : e.Fits i s) : (s.commit i e).Inv := by
  obtain ⟨hhalted, hreason, herror⟩ := hi.of_running h
  obtain ⟨hmem, hinside⟩ := hfits.stores.keeps hi.memWf hi.memInside
  have hhalt : ((s.commit i e).halted = true ↔ (s.commit i e).dstate = .halted) ∧
      ((s.commit i e).haltReason ≠ none ↔ (s.commit i e).halted = true) ∧
      ((s.commit i e).dstate = .running ∨ (s.commit i e).dstate = .halted) := by
    cases hh : e.halt with
    | none =>
      simp [s.commit_halted_none i e hh, s.commit_haltReason_none i e hh, s.commit_dstate_none i e hh, hhalted,
        hreason, h]
    | some r =>
      simp [s.commit_halted_some i e r hh, s.commit_haltReason_some i e r hh, s.commit_dstate_some i e r hh]
  obtain ⟨hiff, hriff, hd⟩ := hhalt
  exact
    { legal := by simpa using hi.legal
      memWf := by simpa using hmem
      memInside := by simpa using hinside
      haltedIff := hiff
      reasonIff := hriff
      errorIff := by rcases hd with hd | hd <;> simp [herror, hd]
      errorPc := by simp [herror]
      progEndAligned := by simpa using hi.progEndAligned
      progEndInside := by simpa using hi.progEndInside
      pcEven := by simpa using hfits.even hwf hi.pcEven
      traceCounts := by simpa using hi.traceCounts
      idleEmpty := by rcases hd with hd | hd <;> simp [hd] }

/-- The driver states a step can end in. -/
def State.Stepped (t : State) : Prop := t.dstate = .running ∨ t.dstate = .halted ∨ t.dstate = .error

/-- A committed effect leaves the driver state or halts. -/
theorem State.dstate_commit (s : State) (i : Instr) (e : Effect) :
    (s.commit i e).dstate = s.dstate ∨ (s.commit i e).dstate = .halted := by
  cases hh : e.halt with
  | none => exact .inl (s.commit_dstate_none i e hh)
  | some r => exact .inr (s.commit_dstate_some i e r hh)

theorem stepped_of_stepOnce {s t : State} (hrun : s.dstate = .running) (h : stepOnce s = .next t) : t.Stepped := by
  rcases stepOnce_eq_next h with ⟨-, rfl⟩ | ⟨k, -, -, rfl⟩ | ⟨w, e, -, -, rfl⟩ | ⟨w, i, -, -, hexec⟩
  · exact .inr (.inl rfl)
  · exact .inr (.inr rfl)
  · exact .inr (.inr rfl)
  · rcases exec_eq_next hexec with ⟨e, rfl, -⟩ | ⟨k, rfl, -⟩
    · rcases s.dstate_commit i e with hd | hd
      · exact .inl (hd.trans hrun)
      · exact .inr (.inl hd)
    · exact .inr (.inr rfl)

theorem State.Inv.stepOnce {s t : State} (hi : s.Inv) (hrun : s.dstate = .running)
    (h : Sys2Proof.Machine.stepOnce s = .next t) : t.Inv := by
  rcases stepOnce_eq_next h with ⟨-, rfl⟩ | ⟨k, -, -, rfl⟩ | ⟨w, e, -, -, rfl⟩ | ⟨w, i, -, hd, hexec⟩
  · exact hi.halt hrun _
  · exact hi.raise hrun k none
  · exact hi.raise hrun _ _
  · rcases exec_eq_next hexec with ⟨e, rfl, hfits⟩ | ⟨k, rfl, -⟩
    · exact hi.commit hrun (wellFormed_of_decode hd) hfits
    · exact hi.raise hrun k _

/-- Settles O54: becoming Running keeps the invariant, and so does each way a step of a Running machine can end. -/
theorem stepKeepsTheInvariant : Obligations.StepKeepsTheInvariant := fun s _ hi h =>
  have hone := stepOnce_of_step h
  ⟨(hi.asRunning (admitted_of_step h).ne_error).stepOnce s.asRunning_dstate hone,
    stepped_of_stepOnce s.asRunning_dstate hone⟩

/-! ## The invariant along a run and a host command -/

theorem State.Inv.runLoop {k : Nat} {s t : State} (hi : s.Inv) (h : Sys2Proof.Machine.runLoop k s = .next t) :
    t.Inv := by
  induction k generalizing s with
  | zero =>
    unfold Sys2Proof.Machine.runLoop at h
    split at h
    · exact Host.Outcome.next.inj h ▸ hi
    · next hrun =>
      split at h <;> exact Host.Outcome.next.inj h ▸ hi.halt (not_not.1 hrun) _
  | succ k ih =>
    unfold Sys2Proof.Machine.runLoop at h
    split at h
    · exact Host.Outcome.next.inj h ▸ hi
    · next hrun =>
      split at h
      · exact Host.Outcome.next.inj h ▸ hi.halt (not_not.1 hrun) _
      · obtain ⟨u, hu⟩ := stepOnce_next s
        simp only [hu] at h
        exact ih (hi.stepOnce (not_not.1 hrun) hu) h

theorem admitted_of_runCommand {max : Nat} {s t : State} (h : runCommand max s = .next t) : s.Admitted := by
  unfold State.Admitted
  cases hd : s.dstate with
  | idle => cases (runCommand_of_idle hd max).symm.trans h
  | error => cases (runCommand_of_error hd max).symm.trans h
  | loaded | running | halted => simp

theorem State.Inv.runCommand {max : Nat} {s t : State} (hi : s.Inv)
    (h : Sys2Proof.Machine.runCommand max s = .next t) : t.Inv := by
  have ha := admitted_of_runCommand h
  exact (hi.asRunning ha.ne_error).runLoop ((runCommand_of_admitted ha max).symm.trans h)

theorem length_programBytes (ws : List Word) : (programBytes ws).length = 4 * ws.length := by
  simp [programBytes, List.length_flatMap, length_bytesOfWord, Nat.mul_comm]

theorem State.Inv.loadWords {s : State} (hi : s.Inv) {ws : List Word} (hfits : 4 * ws.length ≤ s.params.memSize) :
    (s.loadWords ws).Inv where
  legal := hi.legal
  memWf := Memory.wf_writeBytes Memory.wf_nil 0 _
  memInside := Memory.inside_writeBytes (by simp) (by rwa [length_programBytes, Nat.zero_add])
  haltedIff := by simp [State.loadWords, State.resetCommand]
  reasonIff := by simp [State.loadWords, State.resetCommand]
  errorIff := by simp [State.loadWords, State.resetCommand]
  errorPc := by simp [State.loadWords, State.resetCommand]
  progEndAligned := Nat.mul_mod_right 4 _
  progEndInside := hfits
  pcEven := rfl
  traceCounts := rfl
  idleEmpty := by simp [State.loadWords]

/-- A load that succeeds installs a program that fits. -/
theorem State.load_eq_ok {s t : State} {text : String} (h : s.load text = .ok t) :
    ∃ ws, assemble s.params.asmUAcceptUnsigned text = .ok ws ∧ 4 * ws.length ≤ s.params.memSize ∧
      t = s.loadWords ws := by
  unfold State.load at h
  split at h
  · cases h
  · next ws hws =>
    split at h
    · cases h
    · next hfits => exact ⟨ws, hws, not_lt.1 hfits, (Except.ok.inj h).symm⟩

theorem State.Inv.writeMemory {s t : State} (hi : s.Inv) {addr : Nat} {bytes : List Byte}
    (h : s.writeMemory addr bytes = some t) : t.Inv := by
  obtain ⟨hin, rfl⟩ := State.writeMemory_eq_some h
  exact { hi with
    memWf := Memory.wf_writeBytes hi.memWf addr bytes
    memInside := Memory.inside_writeBytes hi.memInside hin }

theorem State.Inv.afterStepping {s : State} (hi : s.Inv) {o : Host.Outcome State Fault Refusal}
    (h : ∀ t, o = .next t → t.Inv) : (Sys2Proof.Machine.afterStepping s o).1.Inv := by
  cases o with
  | next t => exact h t rfl
  | fault r => cases r
  | refused r => exact hi

/-! What a host command leaves, where it is not a definition's equation (R258). -/

theorem command_assemble (text : String) (s : State) : (command (.assemble text) s).1 = s := by
  simp only [command]
  split <;> rfl

theorem command_readMemory (addr len : Nat) (s : State) : (command (.readMemory addr len) s).1 = s := by
  simp only [command]
  split <;> rfl

theorem command_load (text : String) (s : State) :
    (command (.load text) s).1 = s ∨ ∃ t, s.load text = .ok t ∧ (command (.load text) s).1 = t := by
  simp only [command]
  split
  · next t ht => exact .inr ⟨t, ht, rfl⟩
  · exact .inl rfl
  · exact .inl rfl

theorem command_writeMemory (addr : Nat) (bytes : List Byte) (s : State) :
    (command (.writeMemory addr bytes) s).1 = s ∨
      ∃ t, s.writeMemory addr bytes = some t ∧ (command (.writeMemory addr bytes) s).1 = t := by
  simp only [command]
  split
  · next t ht => exact .inr ⟨t, ht, rfl⟩
  · exact .inl rfl

/-- Every host command keeps the invariant. -/
theorem State.Inv.command {s : State} (hi : s.Inv) (c : Command) : (Sys2Proof.Machine.command c s).1.Inv := by
  cases c with
  | assemble text => rwa [command_assemble]
  | load text =>
    rcases command_load text s with h | ⟨t, hload, h⟩
    · rwa [h]
    · obtain ⟨ws, -, hfits, rfl⟩ := State.load_eq_ok hload
      rw [h]
      exact hi.loadWords hfits
  | reset => exact constructionMeetsTheInvariant _ hi.legal
  | step => exact hi.afterStepping fun t ht => (stepKeepsTheInvariant s t hi ht).1
  | run max => exact hi.afterStepping fun t ht => hi.runCommand ht
  | snapshot => exact hi
  | readMemory addr len => rwa [command_readMemory]
  | writeMemory addr bytes =>
    rcases command_writeMemory addr bytes s with h | ⟨t, hwrite, h⟩
    · rwa [h]
    · rw [h]
      exact hi.writeMemory hwrite

theorem State.Inv.afterCommands (cs : List Command) {s : State} (hi : s.Inv) :
    (Sys2Proof.Machine.afterCommands cs s).Inv := by
  induction cs generalizing s with
  | nil => exact hi
  | cons c cs ih => exact ih (hi.command c)

/-- Settles O55: construction meets the invariant and every command keeps it. -/
theorem reachableStatesMeetTheInvariant : Obligations.ReachableStatesMeetTheInvariant := by
  refine ⟨fun c s hi => hi.command c, ?_⟩
  rintro s ⟨p, cs, hp, rfl⟩
  exact (constructionMeetsTheInvariant p hp).afterCommands cs

end Sys2Proof.Machine
end

section
/-! PROOFS. Faults, traces and what the next step does (spec/10_state.md section 6; spec/20_memory.md section 7;
spec/60_exceptions.md sections 3 and 4). -/

namespace Sys2Proof.Machine

/-! ## Faults are precise (R226, R227) -/

/-- A committed effect does not end in Error. -/
theorem State.commit_dstate_ne_error {s : State} (hrun : s.dstate ≠ .error) (i : Instr) (e : Effect) :
    (s.commit i e).dstate ≠ .error := by
  rcases s.dstate_commit i e with hd | hd <;> rw [hd]
  · exact hrun
  · decide

/-- A fetch inside the program fails for a misaligned pc only (R103). -/
theorem State.Inv.misaligned_of_fails {s : State} (hi : s.Inv) (hin : s.pc.toNat < s.progEnd) {k : ErrorKind}
    (hfail : checkAccess s.params.memSize s.pc .word = some k) : k = .memoryAlignment ∧ s.pc.toNat % 4 ≠ 0 := by
  have hmis : s.pc.toNat % 4 ≠ 0 := fun haligned => by
    obtain ⟨w, -, -, hmem, -⟩ := hi.exists_fetchesWord hin haligned
    cases hfail.symm.trans (checkAccess_eq_none.2 ⟨haligned, hmem⟩)
  exact ⟨Option.some.inj (hfail.symm.trans (checkAccess_misaligned hmis)), hmis⟩

/-- Settles O37: a step of a Running machine ends in Error by raising an error only, and the word of an executed
instruction is its encoding, as decoding is strict. -/
theorem faultsArePreciseAndRecorded : Obligations.FaultsArePreciseAndRecorded := by
  intro s t hi h herr
  rcases stepOnce_eq_next (stepOnce_of_step h) with ⟨-, rfl⟩ | ⟨k, hfail, hin, rfl⟩ | ⟨w, e, hw, -, rfl⟩ |
    ⟨w, i, hw, hd, hexec⟩
  · cases herr
  · exact ⟨k, none, takesError_raise _ _ _, rfl, fun _ => hi.misaligned_of_fails hin hfail, nofun⟩
  · refine ⟨.illegalInstruction, some w, takesError_raise _ _ _, rfl, nofun, ?_⟩
    rintro _ ⟨⟩
    exact hw
  · rcases exec_eq_next hexec with ⟨e, rfl, -⟩ | ⟨k, rfl, -⟩
    · exact absurd herr (State.commit_dstate_ne_error (by simp) i e)
    · refine ⟨k, some (encode i), takesError_raise _ _ _, rfl, nofun, ?_⟩
      rintro _ ⟨⟩
      rw [encode_of_decode hd]
      exact hw

/-! ## Counting and tracing (R21, R107) -/

/-- The register writes a trace entry lists are those of rd, where it is not x0. -/
theorem State.map_index_traceWrites (s : State) (w : Option (Reg × Word)) :
    (s.traceWrites w).map RegWrite.index = (w.map Prod.fst).toList.filter (fun r => r ≠ 0) := by
  rcases w with _ | ⟨r, v⟩
  · rfl
  · by_cases hr : r = 0 <;> simp [State.traceWrites, hr]

/-- Settles O38: only a committed effect counts and traces, with the word fetched, as decoding is strict. -/
theorem stepsCountAndTraceWhatTheyExecute : Obligations.StepsCountAndTraceWhatTheyExecute := by
  intro s t hi h
  rcases stepOnce_eq_next (stepOnce_of_step h) with ⟨hpast, rfl⟩ | ⟨k, -, -, rfl⟩ | ⟨w, e, -, -, rfl⟩ |
    ⟨w, i, hw, hd, hexec⟩
  · exact .inr ⟨rfl, rfl, .inr hpast⟩
  · exact .inr ⟨rfl, rfl, .inl rfl⟩
  · exact .inr ⟨rfl, rfl, .inl rfl⟩
  · rcases exec_eq_next hexec with ⟨e, rfl, hfits⟩ | ⟨k, rfl, -⟩
    · refine .inl ⟨w, i, s.asRunning.traceWrites e.regWrite, hw, hd, State.commit_dstate_ne_error (by simp) i e,
        s.asRunning.commit_instructionsExecuted i e, ?_, ?_, fun x hx => ?_⟩
      · rw [State.commit_trace, encode_of_decode hd]
        rfl
      · rw [State.map_index_traceWrites, hfits.rd]
      · obtain ⟨r, v, hwr, hr, rfl⟩ := mem_traceWrites hx
        exact ⟨rfl, by simp [State.reg_commit_some _ i e r v hwr, hr]⟩
    · exact .inr ⟨rfl, rfl, .inl rfl⟩

/-! ## Bad targets (R187, R193) -/

theorem step_past {s : State} (ha : s.Admitted) (hpast : s.progEnd ≤ s.pc.toNat) :
    step s = .next (s.asRunning.halt .pcPastProgram) :=
  (step_of_admitted ha).trans (stepOnce_past hpast)

theorem step_misaligned {s : State} (ha : s.Admitted) (hin : s.pc.toNat < s.progEnd) (hmis : s.pc.toNat % 4 ≠ 0) :
    step s = .next (s.asRunning.raise .memoryAlignment none) :=
  (step_of_admitted ha).trans (stepOnce_misaligned hin hmis)

/-- Settles O39: a branch or jump commits its effect whatever the target, and the next step tests the pc. -/
theorem badTargetsStopTheNextStep : Obligations.BadTargetsStopTheNextStep := by
  intro i s hop
  rcases exec_commitsOrRaises i s with ⟨e, he, hfits⟩ | ⟨k, -, hno⟩
  · have hh : e.halt = none := by
      refine hfits.halt_eq_none ?_ ?_ <;> rintro rfl <;> simp [Instr.op, controlOps] at hop
    have hd := s.commit_dstate_none i e hh
    have hadmitted (ha : s.Admitted) : (s.commit i e).Admitted := by rwa [State.Admitted, hd]
    exact ⟨_, he, s.commit_instructionsExecuted i e, s.commit_error i e, hd, s.commit_progEnd i e,
      fun ha hpast => ⟨_, step_past (hadmitted ha) hpast, rfl, rfl, rfl⟩,
      fun ha hin hmis => ⟨_, step_misaligned (hadmitted ha) hin hmis, takesError_raise _ _ _⟩⟩
  · exact absurd hop hno

/-! ## Fetch is coherent with stores (20_memory.md section 7) -/

/-- The word of an aligned address inside the program and memory is the one fetched there. -/
theorem State.fetchesWord_of_readLE {s : State} {w : Word} (hin : s.pc.toNat < s.progEnd)
    (hpass : checkAccess s.params.memSize s.pc .word = none) (hread : s.mem.readLE s.pc.toNat .word = w) :
    s.FetchesWord w := by
  obtain ⟨haligned, hmem⟩ := checkAccess_eq_none.1 hpass
  exact ⟨hin, haligned, hmem, hread.symm⟩

/-- Settles O40: the store that completed passed the tests that the fetch makes, and the word reads back. -/
theorem storedInstructionRunsNext : Obligations.StoredInstructionRunsNext := by
  intro s t rs1 rs2 imm j hm ha hwf hrs2 haddr h hok hin
  rcases storeInstr_cases (.sw rs1 rs2 imm) .word rs1 rs2 imm s with ⟨hpass, hs⟩ | ⟨k, -, hs⟩
  · have ht := Host.Outcome.next.inj (h.symm.trans hs)
    have hpc : t.pc = s.effAddr rs1 imm := by
      rw [ht, State.commit_pc]
      exact haddr.symm
    have hmem : t.mem = s.mem.writeBytes t.pc.toNat (bytesLE .word (encode j)) := by
      rw [hpc, ht, State.commit_mem, hrs2, Option.getD_some]
    have hparams : t.params = s.params := by rw [ht, State.commit_params]
    have hadmitted : t.Admitted := by
      rw [State.Admitted, ht, State.commit_dstate_none _ _ _ rfl]
      exact ha
    have hread := Memory.readLE_writeBytes_word hm t.pc.toNat (encode j)
    exact stepRunsTheDecodedInstruction t _ j hadmitted
      (State.fetchesWord_of_readLE hin (by rwa [hpc, hparams]) (hmem ▸ hread)) (decode_encode hwf)
  · obtain rfl := Host.Outcome.next.inj (h.symm.trans hs)
    exact absurd rfl hok

/-- The place the host's word goes to is one a word can be fetched from. -/
theorem State.checkAccess_fetchPlace {s : State} (hp : s.params.Legal) :
    checkAccess s.params.memSize s.fetchPlace .word = none := by
  obtain ⟨hmin, -, -⟩ := hp
  rw [checkAccess_eq_none]
  unfold State.fetchPlace
  split
  · next h => exact h
  · exact ⟨rfl, hmin⟩

theorem State.admitted_placeFetchWord (s : State) (nbits w : Nat) : (s.placeFetchWord nbits w).Admitted := by
  unfold State.Admitted State.placeFetchWord
  cases s.dstate <;> simp

/-- Settles O57: the placed word reads back, at a place that passes the fetch's tests, inside the program. -/
theorem placedWordRunsNext : Obligations.PlacedWordRunsNext := by
  intro s i hp hm hwf
  have hmem : (s.withFetchWord 32 (encode i).toNat).mem =
      s.mem.writeBytes s.fetchPlace.toNat (bytesLE .word (encode i)) := by
    have hword : BitVec.ofNat 32 ((encode i).toNat % 2 ^ 32) = encode i := by
      rw [Nat.mod_eq_of_lt (encode i).isLt, BitVec.ofNat_toNat, BitVec.setWidth_eq]
    rw [State.withFetchWord, State.placeFetchWord, hword]
    rfl
  have hin : s.fetchPlace.toNat < max s.progEnd (s.fetchPlace.toNat + 4) := by omega
  have hread := Memory.readLE_writeBytes_word hm s.fetchPlace.toNat (encode i)
  exact stepRunsTheDecodedInstruction _ _ i (s.admitted_placeFetchWord _ _)
    (State.fetchesWord_of_readLE hin (State.checkAccess_fetchPlace hp) (hmem ▸ hread)) (decode_encode hwf)

/-! ## Resuming and leaving Error (R229, R232) -/

/-- Settles O41: admission is the same for every admitted driver state, and halting again restores what it cleared. -/
theorem haltedMachinesResume : Obligations.HaltedMachinesResume := by
  intro s hi hd
  have ha : s.Admitted := .inr (.inr hd)
  refine ⟨fun hr hpast => ?_, fun w i => stepRunsTheDecodedInstruction s w i ha, fun k => ?_, ?_⟩
  · rw [step_past ha hpast, State.asRunning, State.halt, ← hr, ← hd, ← hi.haltedIff.2 hd]
  · rw [runCommand_of_admitted ha, runCommand_of_admitted (.inl rfl)]
    rfl
  · rintro q u (h | h)
    · obtain rfl := Host.Outcome.next.inj ((exec_ecall q).symm.trans h)
      exact ⟨q.commit_pc _ _, q.commit_dstate_some _ _ _ rfl⟩
    · obtain rfl := Host.Outcome.next.inj ((exec_ebreak q).symm.trans h)
      exact ⟨q.commit_pc _ _, q.commit_dstate_some _ _ _ rfl⟩

/-- Settles O42, command by command: all but `reset` and a `load` that succeeds leave the driver state. -/
theorem errorIsLeftOnlyByResetOrLoad : Obligations.ErrorIsLeftOnlyByResetOrLoad := by
  intro s c hd
  have hstep : command .step s = (s, .refused .machineInError) := by rw [command, step_of_error hd, afterStepping]
  have hrun (k : Nat) : command (.run k) s = (s, .refused .machineInError) := by
    rw [command, runCommand_of_error hd, afterStepping]
  refine ⟨hstep, hrun, rfl, rfl, fun a n => command_readMemory a n s, fun hne => ?_⟩
  have hkept (h : (command c s).1.dstate = s.dstate) : False := hne (h.trans hd)
  cases c with
  | reset => exact .inl rfl
  | load text =>
    rcases command_load text s with h | ⟨t, hload, h⟩
    · exact (hkept (congrArg State.dstate h)).elim
    · obtain ⟨ws, -, -, rfl⟩ := State.load_eq_ok hload
      exact .inr ⟨text, rfl, congrArg State.dstate h⟩
  | writeMemory addr bytes =>
    rcases command_writeMemory addr bytes s with h | ⟨t, hwrite, h⟩
    · exact (hkept (congrArg State.dstate h)).elim
    · obtain ⟨-, rfl⟩ := State.writeMemory_eq_some hwrite
      exact (hkept (by rw [h])).elim
  | assemble text => exact (hkept (congrArg State.dstate (command_assemble text s))).elim
  | step => exact (hkept (by rw [hstep])).elim
  | run max => exact (hkept (by rw [hrun])).elim
  | snapshot => exact (hkept rfl).elim
  | readMemory addr len => exact (hkept (congrArg State.dstate (command_readMemory addr len s))).elim

end Sys2Proof.Machine
end

section
/-! PROOFS. Runs (spec/40_instruction_cycle.md R110 to R112). -/

namespace Sys2Proof.Machine

/-! ## One turn of the loop (R110) -/

theorem runLoop_of_not_running {s : State} (h : s.dstate ≠ .running) (k : Nat) : runLoop k s = .next s := by
  cases k <;> exact if_pos h

theorem runLoop_past {s : State} (hrun : s.dstate = .running) (hpast : s.progEnd ≤ s.pc.toNat) (k : Nat) :
    runLoop k s = .next (s.halt .pcPastProgram) := by
  cases k <;> simp [runLoop, hrun, s.pastProgram_iff.2 hpast]

theorem runLoop_zero {s : State} (hrun : s.dstate = .running) (hin : s.pc.toNat < s.progEnd) :
    runLoop 0 s = .next (s.halt .budgetExhausted) := by
  simp [runLoop, hrun, s.pastProgram_eq_false_iff.2 hin]

theorem runLoop_succ {s t : State} (hrun : s.dstate = .running) (hin : s.pc.toNat < s.progEnd)
    (ht : stepOnce s = .next t) (k : Nat) : runLoop (k + 1) s = runLoop k t := by
  simp [runLoop, hrun, s.pastProgram_eq_false_iff.2 hin, ht]

/-! ## A machine that goes on Running -/

/-- A machine is as admission makes it where it is Running and not halted. -/
theorem State.asRunning_eq_self_iff (s : State) :
    s.asRunning = s ↔ s.dstate = .running ∧ s.halted = false ∧ s.haltReason = none := by
  constructor
  · intro h
    rw [← h]
    exact ⟨rfl, rfl, rfl⟩
  · rintro ⟨hd, hh, hr⟩
    rw [State.asRunning, ← hd, ← hh, ← hr]

/-- A committed effect that does not halt leaves a machine Running. -/
theorem State.asRunning_commit {s : State} (hs : s.asRunning = s) {i : Instr} {e : Effect} (hh : e.halt = none) :
    (s.commit i e).asRunning = s.commit i e := by
  rw [State.asRunning_eq_self_iff] at hs ⊢
  rwa [s.commit_dstate_none i e hh, s.commit_halted_none i e hh, s.commit_haltReason_none i e hh]

/-- A step that ends Running leaves the machine as admission makes it. -/
theorem asRunning_of_stepOnce {s t : State} (hs : s.asRunning = s) (h : stepOnce s = .next t)
    (hrun : t.dstate = .running) : t.asRunning = t := by
  rcases stepOnce_eq_next h with ⟨-, rfl⟩ | ⟨k, -, -, rfl⟩ | ⟨w, e, -, -, rfl⟩ | ⟨w, i, -, -, hexec⟩
  · cases hrun
  · cases hrun
  · cases hrun
  · rcases exec_eq_next hexec with ⟨e, rfl, -⟩ | ⟨k, rfl, -⟩
    · cases hh : e.halt with
      | none => exact State.asRunning_commit hs hh
      | some r => cases (s.commit_dstate_some i e r hh).symm.trans hrun
    · cases hrun

/-- `t` ends a run from `s` with `k` instructions allowed, within the budget and for a reason that holds. -/
structure EndsRun (k : Nat) (s t : State) : Prop where
  ended : t.EndedCleanly ∨ t.EndedInError
  grows : s.instructionsExecuted ≤ t.instructionsExecuted
  within : t.instructionsExecuted ≤ s.instructionsExecuted + k
  budget : t.haltReason = some .budgetExhausted →
    t.instructionsExecuted = s.instructionsExecuted + k ∧ t.pc.toNat < t.progEnd
  clean : t.EndedCleanly → t.error = none ∧ t.haltReason ≠ none

theorem EndsRun.not_running {k : Nat} {s t : State} (h : EndsRun k s t) : t.dstate ≠ .running := by
  rcases h.ended with hd | hd <;> simp [show t.dstate = _ from hd]

theorem endsRun_pcPastProgram {s : State} (herr : s.error = none) (k : Nat) : EndsRun k s (s.halt .pcPastProgram) where
  ended := .inl rfl
  grows := Nat.le_refl _
  within := Nat.le_add_right _ _
  budget := nofun
  clean := fun _ => ⟨herr, nofun⟩

theorem endsRun_budgetExhausted {s : State} (herr : s.error = none) (hin : s.pc.toNat < s.progEnd) :
    EndsRun 0 s (s.halt .budgetExhausted) where
  ended := .inl rfl
  grows := Nat.le_refl _
  within := Nat.le_refl _
  budget := fun _ => ⟨rfl, hin⟩
  clean := fun _ => ⟨herr, nofun⟩

theorem endsRun_raise {s : State} (hs : s.asRunning = s) (k : Nat) (kind : ErrorKind) (w : Option Word) :
    EndsRun k s (s.raise kind w) where
  ended := .inr rfl
  grows := Nat.le_refl _
  within := Nat.le_add_right _ _
  budget := fun h => by
    obtain ⟨-, -, hreason⟩ := s.asRunning_eq_self_iff.1 hs
    simp [hreason] at h
  clean := nofun

theorem endsRun_commit {s : State} (herr : s.error = none) (k : Nat) {i : Instr} {e : Effect} {r : HaltReason}
    (hr : e.halt = some r) (hne : r ≠ .budgetExhausted) : EndsRun (k + 1) s (s.commit i e) where
  ended := .inl (s.commit_dstate_some i e r hr)
  grows := by simp
  within := by
    rw [s.commit_instructionsExecuted]
    omega
  budget := fun h => absurd (Option.some.inj ((s.commit_haltReason_some i e r hr).symm.trans h)) hne
  clean := fun _ => ⟨(s.commit_error i e).trans herr, by simp [s.commit_haltReason_some i e r hr]⟩

/-- One step inside the program completes an instruction and the machine goes on Running, or it ends the run. -/
theorem goesOn_or_ends {s t : State} (hs : s.asRunning = s) (herr : s.error = none) (hin : s.pc.toNat < s.progEnd)
    (h : stepOnce s = .next t) :
    (t.asRunning = t ∧ t.error = none ∧ t.instructionsExecuted = s.instructionsExecuted + 1) ∨
    ∀ k, EndsRun (k + 1) s t := by
  rcases stepOnce_eq_next h with ⟨hpast, -⟩ | ⟨k, -, -, rfl⟩ | ⟨w, e, -, -, rfl⟩ | ⟨w, i, -, -, hexec⟩
  · omega
  · exact .inr fun _ => endsRun_raise hs _ _ _
  · exact .inr fun _ => endsRun_raise hs _ _ _
  · rcases exec_eq_next hexec with ⟨e, rfl, hfits⟩ | ⟨k, rfl, -⟩
    · cases hr : e.halt with
      | none =>
        exact .inl ⟨State.asRunning_commit hs hr, (s.commit_error i e).trans herr,
          s.commit_instructionsExecuted i e⟩
      | some r =>
        refine .inr fun _ => endsRun_commit herr _ hr ?_
        rcases hfits.halt r hr with ⟨-, rfl⟩ | ⟨-, rfl⟩ <;> decide
    · exact .inr fun _ => endsRun_raise hs _ _ _

theorem exists_endsRun {k : Nat} {s : State} (hs : s.asRunning = s) (herr : s.error = none) :
    ∃ t, runLoop k s = .next t ∧ EndsRun k s t := by
  have hrun := (s.asRunning_eq_self_iff.1 hs).1
  induction k generalizing s with
  | zero =>
    rcases le_or_gt s.progEnd s.pc.toNat with hpast | hin
    · exact ⟨_, runLoop_past hrun hpast 0, endsRun_pcPastProgram herr 0⟩
    · exact ⟨_, runLoop_zero hrun hin, endsRun_budgetExhausted herr hin⟩
  | succ k ih =>
    rcases le_or_gt s.progEnd s.pc.toNat with hpast | hin
    · exact ⟨_, runLoop_past hrun hpast _, endsRun_pcPastProgram herr _⟩
    · obtain ⟨u, hu⟩ := stepOnce_next s
      rw [runLoop_succ hrun hin hu]
      rcases goesOn_or_ends hs herr hin hu with ⟨hgo, herr', hcount⟩ | hends
      · obtain ⟨t, ht, hend⟩ := ih hgo herr' (u.asRunning_eq_self_iff.1 hgo).1
        obtain ⟨hended, hgrows, hwithin, hbudget, hclean⟩ := hend
        refine ⟨t, ht, hended, by omega, by omega, fun hr => ?_, hclean⟩
        obtain ⟨hexact, hremains⟩ := hbudget hr
        exact ⟨by omega, hremains⟩
      · exact ⟨u, runLoop_of_not_running (hends k).not_running k, hends k⟩

/-! ## The obligations -/

/-- Settles O44, by induction on the budget. -/
theorem everyRunEndsWithinItsBudget : Obligations.EveryRunEndsWithinItsBudget := by
  intro max s ha herr
  obtain ⟨t, ht, hended, hgrows, hwithin, hbudget, hclean⟩ := exists_endsRun (k := max) (s := s.asRunning) rfl herr
  exact ⟨t, (runCommand_of_admitted ha max).trans ht, hended, hgrows, hwithin, hbudget, hclean⟩

/-- Settles O43, turn by turn of the loop. -/
theorem runIteratesStep : Obligations.RunIteratesStep := by
  intro s ha
  refine ⟨fun k hpast => ?_, fun hin => ?_, fun k hin => ?_⟩
  · rw [runCommand_of_admitted ha, step_past ha hpast]
    exact runLoop_past s.asRunning_dstate hpast k
  · rw [runCommand_of_admitted ha]
    exact runLoop_zero s.asRunning_dstate hin
  · obtain ⟨t, ht⟩ := stepOnce_next s.asRunning
    refine ⟨t, (step_of_admitted ha).trans ht, ?_⟩
    rw [runCommand_of_admitted ha, runLoop_succ s.asRunning_dstate hin ht]
    split
    · next hrun => rw [runCommand_of_admitted (.inr (.inl hrun)), asRunning_of_stepOnce rfl ht hrun]
    · next hrun => exact runLoop_of_not_running hrun k

end Sys2Proof.Machine
end

section
/-! PROOFS. Loading a program (spec/70_reset_and_hazards.md R252). -/

namespace Sys2Proof.Machine

/-- Byte 4i + k of a program is byte k of its word i (R33, R88). -/
theorem getElem?_programBytes (ws : List Word) {i k : Nat} (hi : i < ws.length) (hk : k < 4) :
    (programBytes ws)[4 * i + k]? = some (ws[i].extractLsb' (8 * k) 8) := by
  induction ws generalizing i with
  | nil => simp at hi
  | cons w ws ih =>
    have hcons : programBytes (w :: ws) = bytesLE .word w ++ programBytes ws := rfl
    have hlen : (bytesLE .word w).length = 4 := length_bytesLE .word w
    rw [hcons]
    cases i with
    | zero =>
      rw [List.getElem?_append_left (by omega), List.getElem?_eq_getElem (by omega), getElem_bytesLE]
      simp
    | succ i =>
      rw [List.getElem?_append_right (by omega), hlen, show 4 * (i + 1) + k - 4 = 4 * i + k by omega]
      exact ih (Nat.lt_of_succ_lt_succ hi)

/-- The memory of a program just placed: its words' bytes, and 0 behind them. -/
theorem read_loadWords (s : State) (ws : List Word) :
    (∀ i (h : i < ws.length) k, k < 4 → (s.loadWords ws).mem.read (4 * i + k) = ws[i].extractLsb' (8 * k) 8) ∧
    ∀ a, 4 * ws.length ≤ a → (s.loadWords ws).mem.read a = 0 := by
  have hlen := length_programBytes ws
  refine ⟨fun i hi k hk => ?_, fun a ha => ?_⟩
  · have hin : 0 ≤ 4 * i + k ∧ 4 * i + k < 0 + (programBytes ws).length := by omega
    refine (Memory.read_writeBytes [] Memory.wf_nil 0 _ _).trans ((dif_pos hin).trans ?_)
    exact (List.getElem_eq_iff _).2 (getElem?_programBytes ws hi hk)
  · exact Memory.read_writeBytes_outside [] 0 a _ (.inr (by omega))

/-- Settles O45: `load` installs the program on the constructed machine, or reports why not. -/
theorem loadResetsAndPlacesTheProgram : Obligations.LoadResetsAndPlacesTheProgram := by
  intro s text
  refine ⟨fun e he => ?_, fun ws hws => ⟨fun hlarge => ?_, fun hfits => ⟨s.loadWords ws, ?_, rfl,
    fun r => State.reg_construct s.params r, rfl, rfl, rfl, rfl, rfl, rfl, rfl, rfl,
    Memory.wf_writeBytes Memory.wf_nil 0 _, read_loadWords s ws⟩⟩⟩
  · simp [command, State.load, he]
  · simp [command, State.load, hws, hlarge]
  · simp [command, State.load, hws, hfits.not_gt]

end Sys2Proof.Machine
end

section
/-! PROOFS. Nothing reads the trace or the counter (spec/10_state.md R21, R22). -/

namespace Sys2Proof.Machine

/-- A store completes with its access's memory, or takes the error of its access. -/
theorem storeInstr_eq_finish (i : Instr) (n : Width) (rs1 rs2 : Reg) (imm : Word) (s : State) :
    storeInstr i n rs1 rs2 imm s = finish i ((s.memWrite (s.effAddr rs1 imm) n (s.reg rs2)).map fun m =>
      { regWrite := none, store := some m, next := s.pcNext, halt := none }) s := by
  unfold storeInstr
  cases s.memWrite (s.effAddr rs1 imm) n (s.reg rs2) <;> rfl

/-- The effect of an instruction, or the error it raises, is the same without the history. -/
theorem exec_eq_finish_forgetHistory (i : Instr) (s : State) :
    ∃ r, exec i s = finish i r s ∧ exec i s.forgetHistory = finish i r s.forgetHistory := by
  cases i with
  | lb rd rs1 imm | lh rd rs1 imm | lw rd rs1 imm | lbu rd rs1 imm | lhu rd rs1 imm =>
    exact ⟨_, loadInstr_eq_finish _ _ _ rd rs1 imm s, loadInstr_eq_finish _ _ _ rd rs1 imm s.forgetHistory⟩
  | sb rs1 rs2 imm | sh rs1 rs2 imm | sw rs1 rs2 imm =>
    exact ⟨_, storeInstr_eq_finish _ _ rs1 rs2 imm s, storeInstr_eq_finish _ _ rs1 rs2 imm s.forgetHistory⟩
  | add | sub | and | or | xor | sll | srl | sra | slt | sltu
  | addi | andi | ori | xori | slti | sltiu | slli | srli | srai
  | beq | bne | blt | bge | bltu | bgeu | jal | jalr | lui | auipc | ecall | ebreak => exact ⟨.ok _, rfl, rfl⟩

/-- Committing an effect reads the history only to extend it. -/
theorem State.forgetHistory_commit (s : State) (i : Instr) (e : Effect) :
    (s.forgetHistory.commit i e).forgetHistory = (s.commit i e).forgetHistory := by
  obtain ⟨w, m, next, h⟩ := e
  rcases w with _ | ⟨r, v⟩
  · cases h <;> rfl
  · by_cases hr : r = 0
    · subst hr
      cases h <;> rfl
    · cases h <;>
        simp [State.commit, State.writeBack, State.setReg, hr, State.haltWith, State.halt, State.forgetHistory]

@[simp] theorem State.forgetHistory_dstate (s : State) : s.forgetHistory.dstate = s.dstate := rfl
@[simp] theorem State.forgetHistory_pastProgram (s : State) : s.forgetHistory.pastProgram = s.pastProgram := rfl
@[simp] theorem State.forgetHistory_fetch (s : State) : s.forgetHistory.fetch = s.fetch := rfl

/-- `f` reads no history: with the history forgotten it comes out the same, but for the history. -/
def ReadsNoHistory (f : State → Host.Outcome State Fault Refusal) : Prop :=
  ∀ s, forgetHistoryOf (f s.forgetHistory) = forgetHistoryOf (f s)

theorem readsNoHistory_exec (i : Instr) : ReadsNoHistory (exec i) := by
  intro s
  obtain ⟨r, hs, hf⟩ := exec_eq_finish_forgetHistory i s
  rw [hs, hf]
  cases r with
  | ok e => exact congrArg Host.Outcome.next (s.forgetHistory_commit i e)
  | error k => rfl

theorem readsNoHistory_stepOnce : ReadsNoHistory stepOnce := by
  intro s
  rw [stepOnce, stepOnce, State.forgetHistory_pastProgram, State.forgetHistory_fetch]
  split
  · rfl
  · split
    · rfl
    · next w _ =>
      unfold runWord
      split
      · next i _ => exact readsNoHistory_exec i s
      · rfl

/-- Two states that differ in history only come out alike where no history is read. -/
theorem ReadsNoHistory.congr {f : State → Host.Outcome State Fault Refusal} (hf : ReadsNoHistory f) {s t : State}
    (h : s.forgetHistory = t.forgetHistory) : forgetHistoryOf (f s) = forgetHistoryOf (f t) := by
  rw [← hf s, h, hf t]

theorem readsNoHistory_runLoop (k : Nat) : ReadsNoHistory (runLoop k) := by
  induction k with
  | zero =>
    intro s
    rw [runLoop, runLoop, State.forgetHistory_dstate, State.forgetHistory_pastProgram]
    split
    · rfl
    · split <;> rfl
  | succ k ih =>
    intro s
    obtain ⟨t, ht⟩ := stepOnce_next s
    obtain ⟨u, hu⟩ := stepOnce_next s.forgetHistory
    have hstep := readsNoHistory_stepOnce s
    rw [ht, hu] at hstep
    rw [runLoop, runLoop, State.forgetHistory_dstate, State.forgetHistory_pastProgram, ht, hu]
    split
    · rfl
    · split
      · rfl
      · exact ih.congr (Host.Outcome.next.inj hstep)

/-- Admission reads no history, so neither does a command that goes on from the admitted machine. -/
theorem readsNoHistory_of_accept {f g : State → Host.Outcome State Fault Refusal}
    (hfg : ∀ s, f s = match s.accept with | .error r => .refused r | .ok t => g t) (hg : ReadsNoHistory g) :
    ReadsNoHistory f := by
  intro s
  rw [hfg, hfg, State.accept, State.accept, State.forgetHistory_dstate]
  cases s.dstate with
  | idle | error => rfl
  | loaded | running | halted => exact hg s.asRunning

/-- Settles O56, from the effect of an instruction up to the run. -/
theorem historyIsObservationalOnly : Obligations.HistoryIsObservationalOnly := fun _ _ max h =>
  ⟨(readsNoHistory_of_accept (fun _ => rfl) readsNoHistory_stepOnce).congr h,
    (readsNoHistory_of_accept (fun _ => rfl) (readsNoHistory_runLoop max)).congr h⟩

end Sys2Proof.Machine
end

section
/-! PROOFS. Texts (spec/30_encoding.md R82, R83, R90, R91). -/

namespace Sys2Proof.Machine

/-! ## Literals (R83) -/

/-- What digits denote is what the parser reads, digit by digit. -/
theorem digitsValue_eq_natCast (base : Nat) (ds : Digits) :
    digitsValue base ds = ((ds.foldl (fun a d => a * base + d.1.val) 0 : Nat) : Int) := by
  exact (List.foldl_hom Nat.cast (by simp)).trans rfl

/-- The texts of one or more digits of a base, with the number each denotes. -/
theorem parseDigits_eq_some {base : Nat} {t : Text} {n : Nat} :
    parseDigits base t = some n ↔
      ∃ ds : Digits, ds ≠ [] ∧ t = digitsText ds ∧ (∀ d ∈ ds, d.1.val < base) ∧ (n : Int) = digitsValue base ds := by
  unfold parseDigits
  split
  · next ht =>
    subst ht
    refine iff_of_false nofun ?_
    rintro ⟨ds, hne, hnil, -⟩
    exact hne (List.map_eq_nil_iff.1 hnil.symm)
  · next ht =>
    rw [digitsFrom_eq_some]
    refine exists_congr fun ds => ⟨?_, ?_⟩
    · rintro ⟨rfl, hlt, hn⟩
      exact ⟨fun h => ht (h ▸ rfl), rfl, hlt, by rw [digitsValue_eq_natCast, hn]⟩
    · rintro ⟨-, rfl, hlt, hn⟩
      rw [digitsValue_eq_natCast] at hn
      exact ⟨rfl, hlt, by exact_mod_cast hn⟩

theorem parseDigits_digitsText {base : Nat} {ds : Digits} (hne : ds ≠ []) (hlt : ∀ d ∈ ds, d.1.val < base) :
    (parseDigits base (digitsText ds)).map Int.ofNat = some (digitsValue base ds) := by
  rw [parseDigits_eq_some.2 ⟨ds, hne, rfl, hlt, (digitsValue_eq_natCast base ds).symm⟩, digitsValue_eq_natCast]
  rfl

/-- Only decimal digits stand in a decimal text. -/
theorem digitValue_of_mem_digitsText {base : Nat} {ds : Digits} (hlt : ∀ d ∈ ds, d.1.val < base) {c : Char}
    (hc : c ∈ digitsText ds) : ∃ v < base, digitValue c = some v := by
  obtain ⟨d, hd, rfl⟩ := List.mem_map.1 hc
  exact ⟨d.1.val, hlt d hd, digitValue_digitChar d⟩

/-- A decimal text has no sign and no base mark, so it is read as it stands. -/
theorem parseLiteral_digitsText {ds : Digits} (hlt : ∀ d ∈ ds, d.1.val < 10) :
    parseLiteral (digitsText ds) = (parseDigits 10 (digitsText ds)).map Int.ofNat := by
  have hmark {c : Char} (hc : c ∈ digitsText ds) := digitValue_of_mem_digitsText hlt hc
  unfold parseLiteral
  split
  · next t ht =>
    obtain ⟨v, hv, hx⟩ := hmark (c := 'x') (by simp [ht])
    cases hx
  · next t ht =>
    obtain ⟨v, hv, hb⟩ := hmark (c := 'b') (by simp [ht])
    cases hb
    omega
  · next t ht =>
    obtain ⟨v, hv, hplus⟩ := hmark (c := '+') (by simp [ht])
    cases hplus
  · next t ht =>
    obtain ⟨v, hv, hminus⟩ := hmark (c := '-') (by simp [ht])
    cases hminus
  · rfl

/-- Settles O50: forwards by reading the digits back, backwards by the five shapes a literal is tried against. -/
theorem literalsDenoteTheWrittenInteger : Obligations.LiteralsDenoteTheWrittenInteger := by
  refine ⟨fun ds hne => ⟨parseDigits_digitsText hne fun d _ => d.1.isLt, fun hlt => ⟨?_, ?_, ?_⟩,
    fun hlt => parseDigits_digitsText hne hlt, rfl, rfl, rfl, rfl⟩, fun t v h => ?_⟩
  · rw [parseLiteral_digitsText hlt, parseDigits_digitsText hne hlt]
  · exact parseDigits_digitsText hne hlt
  · have hminus := congrArg (Option.map Neg.neg) (parseDigits_digitsText hne hlt)
    rwa [Option.map_map] at hminus
  · have hdigits {base : Nat} {u : Text} {v : Int} (hu : (parseDigits base u).map Int.ofNat = some v) :
        ∃ ds : Digits, ds ≠ [] ∧ u = digitsText ds ∧ (∀ d ∈ ds, d.1.val < base) ∧ v = digitsValue base ds := by
      obtain ⟨n, hn, rfl⟩ := Option.map_eq_some_iff.1 hu
      exact parseDigits_eq_some.1 hn
    unfold parseLiteral at h
    split at h
    · next u =>
      obtain ⟨ds, hne, rfl, -, hv⟩ := hdigits h
      exact ⟨ds, hne, .inl ⟨rfl, hv⟩⟩
    · next u =>
      obtain ⟨ds, hne, rfl, hlt, hv⟩ := hdigits h
      exact ⟨ds, hne, .inr (.inr (.inr ⟨hlt, rfl, hv⟩))⟩
    · next u =>
      obtain ⟨ds, hne, rfl, hlt, hv⟩ := hdigits h
      exact ⟨ds, hne, .inr (.inl ⟨hlt, .inr rfl, hv⟩)⟩
    · next u =>
      obtain ⟨n, hn, rfl⟩ := Option.map_eq_some_iff.1 h
      obtain ⟨ds, hne, rfl, hlt, hv⟩ := hdigits (congrArg (Option.map Int.ofNat) hn)
      exact ⟨ds, hne, .inr (.inr (.inl ⟨hlt, rfl, congrArg Neg.neg hv⟩))⟩
    · obtain ⟨ds, hne, rfl, hlt, hv⟩ := hdigits h
      exact ⟨ds, hne, .inr (.inl ⟨hlt, .inl rfl, hv⟩)⟩

/-! ## Registers (R82) -/

theorem regOfNat_eq_some {n : Nat} {r : Reg} (h : regOfNat n = some r) : r.val = n := by
  unfold regOfNat at h
  split at h
  · exact congrArg Fin.val (Option.some.inj h).symm
  · cases h

/-- A decimal digit's character does not depend on the letter case. -/
theorem digitChar_of_lt_ten : ∀ d : Fin 16 × Bool, d.1.val < 10 → digitChar d = digitChar (d.1, false) := by decide

theorem toString_of_digit : ∀ d : Fin 16, d.val < 10 → (toString d.val).toList = [digitChar (d, false)] := by decide

theorem toString_of_two_digits : ∀ d e : Fin 16, d.val < 10 → e.val < 10 → digitChar (d, false) ≠ '0' →
    (toString (d.val * 10 + e.val)).toList = [digitChar (d, false), digitChar (e, false)] := by decide

/-- A numeric register name is `x` and the index in decimal. -/
theorem parseNumericReg_eq_some {t : Text} {r : Reg} (h : parseNumericReg t = some r) :
    t = 'x' :: (toString r.val).toList := by
  have hdigits {u : Text} (hu : (parseDigits 10 u).bind regOfNat = some r) :
      ∃ ds : Digits, u = digitsText ds ∧ (∀ d ∈ ds, d.1.val < 10) ∧ (r.val : Int) = digitsValue 10 ds := by
    obtain ⟨n, hn, hr⟩ := Option.bind_eq_some_iff.1 hu
    obtain ⟨ds, -, hds, hlt, hval⟩ := parseDigits_eq_some.1 hn
    exact ⟨ds, hds, hlt, regOfNat_eq_some hr ▸ hval⟩
  unfold parseNumericReg at h
  split at h
  · next c =>
    obtain ⟨-, h⟩ := Option.ite_none_right_eq_some.1 h
    obtain ⟨ds, hds, hlt, hval⟩ := hdigits h
    obtain ⟨d, rfl, rfl⟩ := List.map_eq_singleton_iff.1 hds.symm
    have hd := hlt d List.mem_cons_self
    have hr : r.val = d.1.val := by simpa [digitsValue] using hval
    rw [hr, toString_of_digit d.1 hd, digitChar_of_lt_ten d hd]
  · next c c' =>
    obtain ⟨hc, h⟩ := Option.ite_none_right_eq_some.1 h
    obtain ⟨ds, hds, hlt, hval⟩ := hdigits h
    obtain ⟨d, tail, rfl, rfl, htail⟩ := List.map_eq_cons_iff.1 hds.symm
    obtain ⟨e, rfl, rfl⟩ := List.map_eq_singleton_iff.1 htail
    have hd := hlt d List.mem_cons_self
    have he := hlt e (List.mem_cons_of_mem _ List.mem_cons_self)
    have hr : r.val = d.1.val * 10 + e.1.val := by
      simp only [digitsValue, List.foldl_cons, List.foldl_nil] at hval
      omega
    have hzero : digitChar (d.1, false) ≠ '0' := by
      rw [← digitChar_of_lt_ten d hd]
      simpa using (Bool.and_eq_true_iff.1 hc).2
    rw [hr, toString_of_two_digits d.1 e.1 hd he hzero, digitChar_of_lt_ten d hd, digitChar_of_lt_ten e he]
  · cases h

/-- A register name is a numeric one, `fp`, or the ABI name of the index. -/
theorem parseReg_eq_some {t : Text} {r : Reg} (h : parseReg t = some r) :
    t = 'x' :: (toString r.val).toList ∨ t = (abiNames.getD r.val "").toList ∨ (t = "fp".toList ∧ r = 8) := by
  unfold parseReg at h
  split at h
  · next q hq =>
    obtain rfl := Option.some.inj h
    exact .inl (parseNumericReg_eq_some hq)
  · split at h
    · next ht => exact .inr (.inr ⟨ht, (Option.some.inj h).symm⟩)
    · obtain ⟨k, hk, hr⟩ := Option.bind_eq_some_iff.1 h
      obtain ⟨hlt, hname, -⟩ := List.findIdx?_eq_some_iff_getElem.1 hk
      obtain rfl := regOfNat_eq_some hr
      refine .inr (.inl ?_)
      rw [List.getD_eq_getElem _ _ hlt]
      exact (of_decide_eq_true hname).symm

theorem regOperand_of_unknown {t : Text} (hid : isIdent t = true) (h : parseReg t = none) :
    regOperand t = .error .unknownRegister := by
  simp [regOperand, h, hid]

/-- Settles O49: the names parse by evaluation, and what parses is a name by the three ways the parser has. -/
theorem registerNamesAreTheStatedOnes : Obligations.RegisterNamesAreTheStatedOnes :=
  ⟨by decide, by decide, by decide, fun _ _ => parseReg_eq_some, fun _ => regOperand_of_unknown, by decide⟩

/-! ## Whole texts (R90, R91) -/

/-- Settles O51, by evaluating the assembler on each text. -/
theorem workedEncodingsAssemble : Obligations.WorkedEncodingsAssemble :=
  ⟨by decide, by decide, by decide⟩

/-- Settles O52, by evaluating the assembler on each line. -/
theorem pseudoInstructionsAndDirectivesAreRefused : Obligations.PseudoInstructionsAndDirectivesAreRefused :=
  ⟨by decide, by decide⟩

end Sys2Proof.Machine
end
